-- ==== Sys2Proof/Word.lean ====
section
/-! DEFINITION. The word types of the core (spec/00_scope.md R13): every value is unsigned. -/

namespace Sys2Proof

/-- A byte: a raw or logical byte, a frame field (u8). -/
abbrev Byte := BitVec 8

/-- A 32-bit word: a command word, a CSR, a baud value, a time (u32). -/
abbrev Word := BitVec 32

/-- A 16-bit CSR address (spec/30_encoding.md R103). -/
abbrev CsrAddr := BitVec 16

end Sys2Proof
end

