-- ==== Sys2Proof/Config.lean ====
section
/-! DEFINITION. What the spec fixes for every core, and the parameters it leaves to the implementation
(spec/00_scope.md R7, R8). -/

namespace Sys2Proof

/-- `PREAMBLE` (R7), also the value of a sync byte. -/
def Config.preamble : Byte := 0xAA

/-- `ESC` (R7): the wire byte that escapes the next one. -/
def Config.escape : Byte := 0xFF

/-- `HDR_LEN` (R7). -/
def Config.hdrLen : Nat := 5

/-- `MIN_FRAME = HDR_LEN + 1` (R7, R8). -/
def Config.minFrame : Nat := 6

/-- `NBAUD_MAX` (R7, decision D35). -/
def Config.nbaudMax : Nat := 8

/-- `CH_FIFO_DEPTH` (R7, OPEN; decision D45): the capacity of the channel's receive buffer. A free value: no
body, so no proof can use a number for it. Its 16 bits are DEDUCED from the u16 that `ChAvail` returns (R15),
see log 4. -/
opaque Config.chFifoDepth : BitVec 16

/-- `TICK_UNIT` (R7, OPEN; decision D44): the unit of the clock. A free value; no rule reads it (log 4). -/
opaque Config.tickUnit : Nat

/-- The parameters a model takes as arguments (R7, R8; spec/93_implementation_defined.md rows 1 to 4). State
carries them, no step changes them, and statements hold for every value of them (log 3). -/
structure Params where
  /-- `PAYLOAD_CAP`. At most 256: each payload window of the CSR map holds 0x100 addresses (DEDUCED from R56, log 3). -/
  payloadCap : Fin 257
  /-- `SYNC_N`. -/
  syncN : Nat
  /-- `CH_FIFO_DEPTH`. -/
  fifoDepth : BitVec 16
  /-- `TICK_UNIT`. -/
  tickUnit : Nat
  deriving DecidableEq, Repr

/-- The parameters at the spec's defaults (R7: `PAYLOAD_CAP = 250`, `SYNC_N = 10`), the OPEN ones left free. -/
def Params.default : Params :=
  { payloadCap := 250, syncN := 10, fifoDepth := Config.chFifoDepth, tickUnit := Config.tickUnit }

end Sys2Proof
end

