-- ==== Sys2Proof/Syntax.lean ====
section
/-! DEFINITION. The instructions: one constructor per row of spec/opcode_table.json. The eight commands of
spec/30_encoding.md R105, the five receive classes of R110 and the three transmit forms of R112. -/

namespace Sys2Proof

/-- One constructor per row of the opcode table. -/
inductive Instr where
  /-- BEGIN_AUTO (R220). -/
  | beginAuto
  /-- BEGIN_BAUD (R221); `baud` is the operand word DATA (R104). -/
  | beginBaud (baud : Word)
  /-- POLL (R224). -/
  | poll
  /-- RESET, the soft reset (R227). -/
  | reset
  /-- SET_NO_RESTART (R228); `flag` is CMD[8] (R104). -/
  | setNoRestart (flag : Bool)
  /-- SEND (R229). -/
  | send
  /-- CSR_READ (R230); `addr` is CMD[31:16] (R104). -/
  | csrRead (addr : CsrAddr)
  /-- CSR_WRITE (R231); `addr` is CMD[31:16], `data` is DATA (R104). -/
  | csrWrite (addr : CsrAddr) (data : Word)
  /-- RX_ESCAPED (R141): the raw byte after an escape, any value. -/
  | rxEscaped (raw : Byte)
  /-- RX_ESC (R142): the escape prefix, raw 0xFF. -/
  | rxEsc
  /-- RX_SYNC (R146): a raw 0xAA that is a sync marker. -/
  | rxSync
  /-- RX_AA (R145): a raw 0xAA that is not a sync marker. -/
  | rxAa
  /-- RX_DATA (R144): an ordinary raw byte. -/
  | rxData (raw : Byte)
  /-- TX_PRE (R149): the preamble, at frame offset 0. -/
  | txPre
  /-- TX_LIT (R150): a frame byte sent as itself. -/
  | txLit (b : Byte)
  /-- TX_ESCD (R150): a frame byte sent as an escape pair. -/
  | txEscd (b : Byte)
  deriving DecidableEq, Repr

end Sys2Proof
end

