-- ==== Sys2Proof/Machine/State.lean ====
section
/-! DEFINITION. The state of the machine: the core's registers (spec/10_state.md R31), the environment it meets
(spec/00_scope.md R11, R15) and the event trace (spec/20_memory.md R88), as plain data; why a step can stop; and the
machine right after reset (spec/70_reset_and_hazards.md R300). -/

namespace Sys2Proof.Machine

/-- The storage behind one payload window of the CSR map (R52, R54) or the work frame's payload (R40). The entries
from `PAYLOAD_CAP` on have no address and are never stored to (log 13). -/
abbrev Bank := Vector Byte 256

/-- A bank of zeros. -/
def Bank.zero : Bank := Vector.replicate 256 0

/-- A frame as the core holds it (spec/30_encoding.md R109): the work frame `W` (R40), or the RX frame registers
RX_HDR, RX_TAIL and RX_PAY (R50 to R52). -/
structure Frame where
  preamble : Byte
  nodeID : Byte
  command : Byte
  frameID : Byte
  totalLength : Byte
  payload : Bank
  checksum : Byte
  deriving DecidableEq, Repr

/-- Every field 0: the work frame after `FaClear` (R171), the RX frame after reset. -/
def Frame.empty : Frame :=
  { preamble := 0, nodeID := 0, command := 0, frameID := 0, totalLength := 0, payload := Bank.zero, checksum := 0 }

/-- The stored fields of TX_HDR, TX_TAIL and TX_PAY (R53, R54). TX_HDR.PREAMBLE is hard-wired and not stored. -/
structure TxFrame where
  nodeID : Byte
  command : Byte
  frameID : Byte
  totalLength : Byte
  payload : Bank
  deriving DecidableEq, Repr

/-- Where a command stands when a step ends inside it. The first three are the holds of
spec/70_reset_and_hazards.md R310. -/
inductive Hold where
  /-- HOLD_NB, in `NextByte` (R148). -/
  | nextByte
  /-- HOLD_AD, in the attempt at candidate `idx` (R203). -/
  | autodetect (idx : BitVec 3)
  /-- HOLD_FL, in `ChFlush` (R15, R229). -/
  | flush
  /-- No hold: between two attempts of the autodetect, before the one at `idx` (R207). Where the model's bound on the
  attempts of one step would run out; the next step goes on from here (log 14). -/
  | attempt (idx : BitVec 3)
  deriving DecidableEq, Repr

/-- The sequencer `seq` (R32, R234). -/
inductive Seq where
  /-- The core accepts a command. -/
  | idle
  /-- `BUSY(c)`, the procedure of command `c` running. -/
  | busy (c : Instr)
  /-- `BUSY(ILLEGAL)`, the procedure of an illegal command running (R232). -/
  | busyIllegal
  /-- `BUSY(c)`, the procedure of command `c` waiting at `h`. -/
  | held (c : Instr) (h : Hold)
  deriving DecidableEq, Repr

/-- The core's registers: every element of R31. -/
structure Regs where
  /-- `seq` (R32). -/
  seq : Seq
  /-- `st.ready` (R34). -/
  ready : Bool
  /-- `st.fatal` (R35). -/
  fatal : Bool
  /-- `st.chOpen` (R36). -/
  chOpen : Bool
  /-- `codec.esc` (R37). -/
  esc : Bool
  /-- `codec.syncCount` (R38). -/
  syncCount : Byte
  /-- The model's own field: the logical byte the last receive class emitted, if it emitted one (log 9). -/
  codecOut : Option Byte
  /-- `fa.pos` (R39). -/
  faPos : Byte
  /-- The work frame `W` (R40). -/
  work : Frame
  /-- `ad.attempts` (R66). -/
  adAttempts : Word
  /-- CONFIG.MODE (R42): false is host, true is device. -/
  mode : Bool
  /-- CONFIG.AUTO_RESTART_DISABLED (R42). -/
  autoRestartDisabled : Bool
  /-- CONFIG.RING_FWD_EN (R42). -/
  ringFwdEn : Bool
  /-- QUIET_TIMEOUT (R43). -/
  quietTimeout : Word
  /-- CUR_BAUD (R44). -/
  curBaud : Word
  /-- LAST_ACT (R45). -/
  lastAct : Word
  /-- BAUD_COUNT (R46). -/
  baudCount : BitVec 4
  /-- BAUD_INDEX (R47). -/
  baudIndex : BitVec 3
  /-- AD_MAX_ATTEMPTS (R48). -/
  adMaxAttempts : Word
  /-- BAUD_LIST (R49). -/
  baudList : Vector Word 8
  /-- RX_HDR, RX_TAIL and RX_PAY (R50 to R52). -/
  rx : Frame
  /-- TX_HDR, TX_TAIL and TX_PAY (R53, R54). -/
  tx : TxFrame
  deriving DecidableEq, Repr

/-- The registers after hardware reset (R62, R55). -/
def Regs.reset : Regs where
  seq := .idle
  ready := false
  fatal := false
  chOpen := false
  esc := false
  syncCount := 0
  codecOut := none
  faPos := 0
  work := Frame.empty
  adAttempts := 0
  mode := false
  autoRestartDisabled := false
  ringFwdEn := true
  quietTimeout := 50000
  curBaud := 0
  lastAct := 0
  baudCount := 0
  baudIndex := 0
  adMaxAttempts := 0
  baudList := Vector.replicate 8 0
  rx := Frame.empty
  tx := { nodeID := 0, command := 0, frameID := 0, totalLength := 0, payload := Bank.zero }

/-- A move of the environment (R11; spec/93_implementation_defined.md rows 2 and 6 to 12). -/
inductive EnvMove where
  /-- A raw byte arrives on the line. When the receive buffer is full, the byte that is lost is the one at place
  `lost` of the buffer with the new byte at its end: any choice (row 2, log 5). -/
  | arrive (b : Byte) (lost : Nat)
  /-- The clock advances by `n` ticks (R60, log 18). -/
  | advance (n : Word)
  /-- The channel-present input changes (R60). -/
  | setPresent (p : Bool)
  /-- The channel reports a requested flush done (R15). -/
  | flushDone
  /-- The caller presents a command (R57). -/
  | issue (cmd data : Word)
  /-- Hardware reset (R300, R301). What it does to the channel is the integrator's choice (R302): the channel stands
  after it as the move says. -/
  | hwReset (openAt : Option Word) (fifo : List Byte)
  deriving DecidableEq, Repr

end Sys2Proof.Machine

/-- The turns of an environment that moves in any way at all, step after step without end (R11). A free value: no body, so no
proof can use what the turns are (log 24). -/
opaque Sys2Proof.Config.freeTurns : Nat → List (List Sys2Proof.Machine.EnvMove)

namespace Sys2Proof.Machine

/-- How the environment goes on when the turns of its script are used up (R11, R208; log 24). -/
inductive Supply where
  /-- It takes these turns, again and again without end. With no turns, it makes no more moves. -/
  | again (turns : List (List EnvMove))
  /-- It takes any turns at all: those that `Config.freeTurns` gives at `n`, then at `n + 1`, and so on. -/
  | free (n : Nat)
  deriving DecidableEq, Repr

/-- The environment: the channel, the inputs, the command port, and the moves it is going to make. -/
structure Env where
  /-- The channel's own `isOpen`, and the baud value it is open at (R15). -/
  openAt : Option Word
  /-- The channel's receive buffer, oldest byte first (R93). -/
  fifo : List Byte
  /-- A requested flush is not yet reported done (R15, R310 HOLD_FL). -/
  flushPending : Bool
  /-- The clock input `Now()` (R60). -/
  now : Word
  /-- The input `ChPresent()` (R60). -/
  present : Bool
  /-- The command and operand word presented on the command port, if any (R57). -/
  port : Option (Word × Word)
  /-- The model's own field: the environment's next turns (log 1). -/
  script : List (List EnvMove)
  /-- The model's own field: the environment's turns after those of the script (log 24). -/
  supply : Supply
  deriving DecidableEq, Repr

/-- An entry of the event trace (R88). -/
inductive Event where
  | opened (baud : Word)
  | closed
  | read (b : Byte)
  | write (b : Byte)
  | flush
  | ring (b : Byte)
  | resp (code : Byte) (rdata : Word)
  deriving DecidableEq, Repr

/-- The whole machine. -/
structure State where
  /-- The core's registers. -/
  core : Regs
  /-- The environment. -/
  env : Env
  /-- The event trace, oldest entry first (R88). -/
  trace : List Event
  /-- The parameters; no step changes them (log 3). -/
  params : Params
  deriving DecidableEq, Repr

/-- Why a step faults. The core itself has no fault (spec/60_exceptions.md R283). -/
inductive Fault where
  /-- Raised by `ChRead` on an empty receive buffer, for which the spec gives no value and which it says the core never
  does (R15, spec/91_not_in_source.md). Safe: no path of any instruction reaches it (log 15). -/
  | readEmpty
  deriving DecidableEq, Repr

/-- Why a step is refused. -/
inductive Refusal where
  /-- Raised by an arm of `exec` for an instruction that has no meaning yet. Safe. No arm of this model raises it. -/
  | notModelled (mnemonic : String)
  deriving DecidableEq, Repr

/-- The machine after reset, at the parameters `p` (R300, R62). The environment is the start state S0 of
spec/95_test_vectors.md: channel closed and empty, present, clock 0 (DESIGN CHOICE, log 6). -/
def State.resetAt (p : Params) : State where
  core := Regs.reset
  env := { openAt := none, fifo := [], flushPending := false, now := 0, present := true, port := none, script := [],
           supply := .again [] }
  trace := []
  params := p

/-- The machine right after reset, at the spec's default parameters. -/
def State.reset : State := State.resetAt Params.default

end Sys2Proof.Machine
end

