-- ==== Sys2Proof/Machine/Flags.lean ====
section
/-! DEFINITION. The flag and counter computations: the STATUS word (spec/10_state.md R41), the saturating
synchronization counter (spec/41_byte_codec.md R143), the quiet timeout (spec/44_session_commands.md R224), the frame
length test (spec/42_frame_assembler.md R176) and the checksum (spec/40_checksum.md). -/

namespace Sys2Proof.Machine

/-- `sat8(v + 1)` for the 8-bit counter `v` (spec/00_scope.md R13). -/
def sat8Succ (v : Byte) : Byte := if v = 0xFF then 0xFF else v + 1

/-- The STATUS word (R41, R230). -/
def statusWord (c : Regs) : Word :=
  0#8 ++ c.syncCount ++ c.faPos ++ 0#4 ++ BitVec.ofBool c.esc ++ BitVec.ofBool c.chOpen ++ BitVec.ofBool c.fatal ++
    BitVec.ofBool c.ready

/-- The quiet timeout is exceeded at time `t` (R224, R287): `(t -32 LAST_ACT) > QUIET_TIMEOUT`. -/
def quietExceeded (t : Word) (c : Regs) : Bool := c.quietTimeout < t - c.lastAct

/-- `b < MIN_FRAME or (b - MIN_FRAME) > PAYLOAD_CAP` (R176, R229). -/
def badLength (p : Params) (b : Byte) : Bool :=
  b.toNat < Config.minFrame || p.payloadCap.val < b.toNat - Config.minFrame

/-- `Csum` (R130): the sum mod 256. -/
def csum : List Byte → Byte
  | [] => 0
  | b :: bs => b + csum bs

/-- The payload bytes of a frame of `len` logical bytes: entries 0 to `len - 7` (R131). -/
def payloadBytes (len : Byte) (payload : Bank) : List Byte := payload.toList.take (len.toNat - Config.minFrame)

/-- `CsumFrame` (R131). -/
def csumFrame (preamble nodeID command frameID len : Byte) (payload : Bank) : Byte :=
  csum ([preamble, nodeID, command, frameID, len] ++ payloadBytes len payload)

/-- A frame is checksum-valid (R132). -/
def Frame.valid (f : Frame) : Bool :=
  csumFrame f.preamble f.nodeID f.command f.frameID f.totalLength f.payload == f.checksum

end Sys2Proof.Machine
end

