-- ==== Sys2Proof/Machine/Operands.lean ====
section
/-! DEFINITION. The operand forms: which register a CSR address names (spec/10_state.md R55, R56), what it reads as
(R41 to R54, spec/44_session_commands.md R230) and what a write stores (R231). -/

namespace Sys2Proof.Machine

/-- Entry `i` of a bank; a bank has 256. -/
def Bank.get (b : Bank) (i : Nat) : Byte := b[i]?.getD 0

/-- The bank with entry `i` replaced. -/
def Bank.put (b : Bank) (i : Nat) (v : Byte) : Bank := b.setIfInBounds i v

/-- Entry `i` of BAUD_LIST. -/
def baudAt (c : Regs) (i : BitVec 3) : Word := c.baudList[i.toNat]

/-- The mapped registers (R55). -/
inductive Csr where
  | status
  | config
  | quietTimeout
  | curBaud
  | lastAct
  | baudCount
  | baudIndex
  | adMaxAttempts
  | baudList (i : BitVec 3)
  | rxHdr
  | rxTail
  | txHdr
  | txTail
  | rxPay (i : Nat)
  | txPay (i : Nat)
  deriving DecidableEq, Repr

/-- The register at address `a`, or none if `a` is unmapped (R55, R56). -/
def csrAt (p : Params) (a : CsrAddr) : Option Csr :=
  if a = 0x0000 then some .status
  else if a = 0x0001 then some .config
  else if a = 0x0002 then some .quietTimeout
  else if a = 0x0003 then some .curBaud
  else if a = 0x0004 then some .lastAct
  else if a = 0x0005 then some .baudCount
  else if a = 0x0006 then some .baudIndex
  else if a = 0x0007 then some .adMaxAttempts
  else if 0x0010 ≤ a.toNat ∧ a.toNat < 0x0010 + Config.nbaudMax then some (.baudList (BitVec.ofNat 3 (a.toNat - 0x0010)))
  else if a = 0x0020 then some .rxHdr
  else if a = 0x0021 then some .rxTail
  else if a = 0x0030 then some .txHdr
  else if a = 0x0031 then some .txTail
  else if 0x0100 ≤ a.toNat ∧ a.toNat < 0x0100 + p.payloadCap.val then some (.rxPay (a.toNat - 0x0100))
  else if 0x0200 ≤ a.toNat ∧ a.toNat < 0x0200 + p.payloadCap.val then some (.txPay (a.toNat - 0x0200))
  else none

/-- `value(a)` of R230: the register's contents in the layouts of R41 to R54, every reserved bit 0. -/
def csrValue (c : Regs) : Csr → Word
  | .status => statusWord c
  | .config => 0#29 ++ BitVec.ofBool c.ringFwdEn ++ BitVec.ofBool c.autoRestartDisabled ++ BitVec.ofBool c.mode
  | .quietTimeout => c.quietTimeout
  | .curBaud => c.curBaud
  | .lastAct => c.lastAct
  | .baudCount => 0#28 ++ c.baudCount
  | .baudIndex => 0#29 ++ c.baudIndex
  | .adMaxAttempts => c.adMaxAttempts
  | .baudList i => baudAt c i
  | .rxHdr => c.rx.frameID ++ c.rx.command ++ c.rx.nodeID ++ c.rx.preamble
  | .rxTail => 0#16 ++ c.rx.checksum ++ c.rx.totalLength
  | .txHdr => c.tx.frameID ++ c.tx.command ++ c.tx.nodeID ++ Config.preamble
  | .txTail => 0#24 ++ c.tx.totalLength
  | .rxPay i => 0#24 ++ c.rx.payload.get i
  | .txPay i => 0#24 ++ c.tx.payload.get i

/-- Byte `k` of a word: bits `[8k+7:8k]` (spec/20_memory.md R84). -/
def byteOf (v : Word) (k : Nat) : Byte := v.extractLsb' (8 * k) 8

/-- The registers after a write of `v` (R231), or none where the write is refused: a read-only register, or a BAUD_COUNT
above `NBAUD_MAX` (R46). Reserved bits and read-only fields of `v` are ignored. -/
def csrStore (c : Regs) (v : Word) : Csr → Option Regs
  | .status => none
  | .config => some { c with mode := v.getLsbD 0, autoRestartDisabled := v.getLsbD 1, ringFwdEn := v.getLsbD 2 }
  | .quietTimeout => some { c with quietTimeout := v }
  | .curBaud => none
  | .lastAct => none
  | .baudCount =>
    if Config.nbaudMax < (v.extractLsb' 0 4).toNat then none else some { c with baudCount := v.extractLsb' 0 4 }
  | .baudIndex => none
  | .adMaxAttempts => some { c with adMaxAttempts := v }
  | .baudList i => some { c with baudList := c.baudList.set i.toNat v }
  | .rxHdr => none
  | .rxTail => none
  | .txHdr => some { c with tx := { c.tx with nodeID := byteOf v 1, command := byteOf v 2, frameID := byteOf v 3 } }
  | .txTail => some { c with tx := { c.tx with totalLength := byteOf v 0 } }
  | .rxPay _ => none
  | .txPay i => some { c with tx := { c.tx with payload := c.tx.payload.put i (byteOf v 0) } }

end Sys2Proof.Machine
end

