-- ==== Sys2Proof/Machine/Ops.lean ====
section
/-! DEFINITION. The shared operations: the outcome codes, what the environment's moves do, one turn of the
environment, the channel primitives of spec/00_scope.md R15, the holds, and how a command begins and responds.
The core has no exception entry and no return from one (spec/60_exceptions.md R275, R277): `State.respond` is how
every command ends. -/

namespace Sys2Proof.Machine

/-! ## Outcome codes -/

/-- The outcome codes of spec/60_exceptions.md R270. -/
inductive Code where
  | ok
  | frameReady
  | pending
  | checksumFail
  | busDown
  | busReset
  | noActivity
  | channelUnavailable
  | configError
  | autodetectExhausted
  | lengthError
  | illegalCommand
  | badCsr
  deriving DecidableEq, Repr

/-- The 8-bit value of an outcome code (R270, R108). -/
def Code.toByte : Code → Byte
  | .ok => 0x00
  | .frameReady => 0x01
  | .pending => 0x02
  | .checksumFail => 0x03
  | .busDown => 0x04
  | .busReset => 0x05
  | .noActivity => 0x06
  | .channelUnavailable => 0x07
  | .configError => 0x08
  | .autodetectExhausted => 0x09
  | .lengthError => 0x0A
  | .illegalCommand => 0x0B
  | .badCsr => 0x0C

/-- What a command answers: `respond(code, rdata)` (R14). -/
structure Reply where
  code : Code
  rdata : Word
  deriving DecidableEq, Repr

/-- A response whose `RDATA` is 0 (spec/10_state.md R57). -/
def Reply.plain (code : Code) : Reply := { code := code, rdata := 0 }

/-! ## Updates of the state -/

/-- Update the core's registers. -/
def State.mapCore (f : Regs → Regs) (s : State) : State := { s with core := f s.core }

/-- Update the environment. -/
def State.mapEnv (f : Env → Env) (s : State) : State := { s with env := f s.env }

/-- Append an entry to the event trace (spec/20_memory.md R88). -/
def State.emit (e : Event) (s : State) : State := { s with trace := s.trace ++ [e] }

/-- `seq <- v`. -/
def State.setSeq (v : Seq) (s : State) : State := s.mapCore fun c => { c with seq := v }

/-- `respond(code, rdata)` (spec/44_session_commands.md R234): the response enters the trace and the core is idle. -/
def State.respond (r : Reply) (s : State) : State :=
  (s.emit (.resp r.code.toByte r.rdata)).setSeq .idle

/-- Hardware reset (spec/70_reset_and_hazards.md R300): every register at its reset value, no event. The inputs, the
presented command, the script, the trace and the parameters are not the core's. -/
def State.hardwareReset (s : State) : State := s.mapCore fun _ => Regs.reset

/-- The command of the sequencer, waiting at `h`. -/
def Seq.waiting (h : Hold) : Seq → Seq
  | .idle => .idle
  | .busy c => .held c h
  | .busyIllegal => .busyIllegal
  | .held c _ => .held c h

/-! ## The environment -/

/-- The number of buffered raw bytes, `ChAvail()` (R15): 0 while the channel is closed. -/
def Env.avail (e : Env) : Nat := if e.openAt.isSome then e.fifo.length else 0

/-- A raw byte arrives (spec/20_memory.md R93): lost while the channel is closed; when the buffer of `depth` bytes
overflows, the byte at place `lost` is dropped (log 5). -/
def Env.receive (depth : BitVec 16) (b : Byte) (lost : Nat) (e : Env) : Env :=
  if e.openAt.isSome then
    if e.fifo.length < depth.toNat then { e with fifo := e.fifo ++ [b] }
    else { e with fifo := (e.fifo ++ [b]).eraseIdx (min lost e.fifo.length) }
  else e

/-- The channel as an integrator leaves it at a hardware reset (R302, log 7): a closed channel holds no bytes, an open
one no more than its buffer. -/
def Env.afterReset (depth : BitVec 16) (openAt : Option Word) (fifo : List Byte) (e : Env) : Env :=
  { e with openAt := openAt, fifo := if openAt.isSome then fifo.take depth.toNat else [], flushPending := false }

/-- The effect of one move of the environment. A command is presented only to an idle core whose port is free
(R11, R57; log 16). -/
def applyMove (m : EnvMove) (s : State) : State :=
  match m with
  | .arrive b lost => s.mapEnv (Env.receive s.params.fifoDepth b lost)
  | .advance n => s.mapEnv fun e => { e with now := e.now + n }
  | .setPresent p => s.mapEnv fun e => { e with present := p }
  | .flushDone => s.mapEnv fun e => { e with flushPending := false }
  | .issue cmd data =>
    if s.core.seq = .idle ∧ s.env.port = none then s.mapEnv fun e => { e with port := some (cmd, data) } else s
  | .hwReset openAt fifo => s.hardwareReset.mapEnv (Env.afterReset s.params.fifoDepth openAt fifo)

/-- The moves of one turn, in order. -/
def applyTurn : List EnvMove → State → State
  | [], s => s
  | m :: ms, s => applyTurn ms (applyMove m s)

/-- The move is a hardware reset. -/
def EnvMove.isReset : EnvMove → Bool
  | .hwReset _ _ => true
  | _ => false

/-- The turns that a step finds when the script is used up, and the supply after them (log 24). -/
def Supply.draw : Supply → List (List EnvMove) × Supply
  | .again turns => (turns, .again turns)
  | .free n => (Config.freeTurns n, .free (n + 1))

/-- The environment goes on (R11, R208): a used-up script is filled from the supply (log 24). -/
def State.refill (s : State) : State :=
  match s.env.script with
  | [] => s.mapEnv fun e => { e with script := e.supply.draw.1, supply := e.supply.draw.2 }
  | _ :: _ => s

/-! ## Procedures -/

/-- Why a procedure ends without a result. -/
inductive Stop where
  /-- The step ends inside the procedure: it holds (R310), or a hardware reset aborted it (R301). The state says which. -/
  | halted
  /-- The machine faults. -/
  | fault (f : Fault)
  deriving DecidableEq, Repr

/-- A procedure of the spec's pseudocode (R16): it runs in order, and ends with a result or with a stop. -/
abbrev Proc (α : Type) := EStateM Stop State α

/-- The procedure with the given runs. -/
def Proc.of {α : Type} (f : State → EStateM.Result Stop State α) : Proc α := f

/-- The whole state. -/
def theState : Proc State := Proc.of fun s => .ok s s

/-- A change of the state. -/
def change (f : State → State) : Proc Unit := Proc.of fun s => .ok () (f s)

/-- The core's registers. -/
def regs : Proc Regs := Proc.of fun s => .ok s.core s

/-- The parameters. -/
def params : Proc Params := Proc.of fun s => .ok s.params s

/-- A register update. -/
def update (f : Regs → Regs) : Proc Unit := change (State.mapCore f)

/-- The environment's next turn, taken before each primitive (R11: "at any step"; log 1). A hardware reset in it aborts
the procedure (R301). -/
def tick : Proc Unit := Proc.of fun s =>
  match s.env.script with
  | [] => .ok () s
  | turn :: rest =>
    if turn.any EnvMove.isReset then .error .halted (applyTurn turn (s.mapEnv fun e => { e with script := rest }))
    else .ok () (applyTurn turn (s.mapEnv fun e => { e with script := rest }))

/-- The step ends here, with the running command waiting at `h`. -/
def haltAt {α : Type} (h : Hold) : Proc α := Proc.of fun s => .error .halted (s.setSeq (s.core.seq.waiting h))

/-- `wait until c`, for at most `n` turns of the environment. -/
def waitFor (c : State → Bool) (h : Hold) : Nat → Proc Unit
  | 0 => do
    let s ← theState
    if c s then pure () else haltAt h
  | n + 1 => do
    let s ← theState
    if c s then pure ()
    else
      tick
      waitFor c h n

/-- `wait until c` (R15): the environment moves until `c` holds. When its script ends first, the core holds at `h`, and a
later step waits on. -/
def waitUntil (c : State → Bool) (h : Hold) : Proc Unit := do
  let s ← theState
  waitFor c h s.env.script.length

/-! ## The primitives of R15 -/

/-- `Now()`. -/
def now : Proc Word := do
  tick
  let s ← theState
  return s.env.now

/-- `ChPresent()`. -/
def chPresent : Proc Bool := do
  tick
  let s ← theState
  return s.env.present

/-- `ChAvail()`. -/
def chAvail : Proc Nat := do
  tick
  let s ← theState
  return s.env.avail

/-- What `ChOpen(baud)` does: the channel is open at `baud`, `st.chOpen <- 1`, and the event. -/
def State.openChannel (baud : Word) (s : State) : State :=
  ((s.mapEnv fun e => { e with openAt := some baud }).mapCore fun c => { c with chOpen := true }).emit (.opened baud)

/-- `ChOpen(baud)`. -/
def chOpen (baud : Word) : Proc Unit := do
  tick
  change (State.openChannel baud)

/-- What `ChClose()` does: the channel is closed, its buffer empty, `st.chOpen <- 0`, and the event. -/
def State.closeChannel (s : State) : State :=
  ((s.mapEnv fun e => { e with openAt := none, fifo := [] }).mapCore fun c => { c with chOpen := false }).emit .closed

/-- `ChClose()`. -/
def chClose : Proc Unit := do
  tick
  change State.closeChannel

/-- What `ChRead()` does to the state when it takes the byte `b` and leaves `rest` buffered. -/
def State.takeByte (b : Byte) (rest : List Byte) (s : State) : State :=
  (s.mapEnv fun e => { e with fifo := rest }).emit (.read b)

/-- `ChRead()` without the turn before it: the oldest buffered raw byte. On an empty buffer, which no caller reaches, it
faults (log 15). -/
def popByte : Proc Byte := Proc.of fun s =>
  match s.env.fifo with
  | [] => .error (.fault .readEmpty) s
  | b :: rest => .ok b (s.takeByte b rest)

/-- `ChRead()`. -/
def chRead : Proc Byte := do
  tick
  popByte

/-- `ChWrite(b)`. -/
def chWrite (b : Byte) : Proc Unit := do
  tick
  change (State.emit (.write b))

/-- `RingWrite(b)`. -/
def ringWrite (b : Byte) : Proc Unit := do
  tick
  change (State.emit (.ring b))

/-- The flush request of `ChFlush()`: the event, and the channel begins to drain. -/
def State.requestFlush (s : State) : State :=
  (s.mapEnv fun e => { e with flushPending := true }).emit .flush

/-- The hold HOLD_FL of `ChFlush()`. -/
def waitFlush : Proc Unit := waitUntil (fun s => !s.env.flushPending) .flush

/-- `ChFlush()`. -/
def chFlush : Proc Unit := do
  tick
  change State.requestFlush
  waitFlush

/-! ## Running a procedure as a step -/

/-- The outcome of a step that ran a command's procedure: it responds (R234), or the step ends inside it. -/
def settle : EStateM.Result Stop State Reply → Host.Outcome State Fault Refusal
  | .ok r s => .next (s.respond r)
  | .error .halted s => .next s
  | .error (.fault f) _ => .fault f

/-- The procedure `p` with its response: the response enters the trace as an action of its own (R88), so the environment takes
a turn before it (log 1). -/
def answer (p : Proc Reply) : Proc Reply := do
  let r ← p
  tick
  return r

/-- `seq <- v`, then the procedure `p` with its response (R234). -/
def runAs (v : Seq) (p : Proc Reply) (s : State) : Host.Outcome State Fault Refusal := settle ((answer p).run (s.setSeq v))

/-- Run the procedure `p` of command `i` from its start: `seq <- BUSY(i)` (R234). -/
def runCommand (i : Instr) (p : Proc Reply) (s : State) : Host.Outcome State Fault Refusal := runAs (.busy i) p s

/-- The outcome of a step that ran a procedure which gives no response: a receive class, a transmit form, or a turn of
the environment while the core is idle. -/
def settleForm : EStateM.Result Stop State Unit → Host.Outcome State Fault Refusal
  | .ok _ s => .next s
  | .error .halted s => .next s
  | .error (.fault f) _ => .fault f

/-- Run the procedure of a receive class or a transmit form. -/
def runForm (p : Proc Unit) (s : State) : Host.Outcome State Fault Refusal := settleForm (p.run s)

end Sys2Proof.Machine
end

