-- ==== Sys2Proof/Machine/Registers.lean ====
section
/-! DEFINITION. Register access: the meanings of CSR_READ and CSR_WRITE (spec/44_session_commands.md R230, R231). -/

namespace Sys2Proof.Machine

/-- `CsrRead(a)` (R230). -/
def csrReadProc (a : CsrAddr) : Proc Reply := do
  let c ← regs
  let p ← params
  match csrAt p a with
  | none => return .plain .badCsr
  | some r => return { code := .ok, rdata := csrValue c r }

/-- `CsrWrite(a, v)` (R231). -/
def csrWriteProc (a : CsrAddr) (v : Word) : Proc Reply := do
  let c ← regs
  let p ← params
  match (csrAt p a).bind (csrStore c v) with
  | none => return .plain .badCsr
  | some c' =>
    update fun _ => c'
    return .plain .ok

/-- CSR_READ (R230). -/
def execCsrRead (a : CsrAddr) (s : State) : Host.Outcome State Fault Refusal :=
  runCommand (.csrRead a) (csrReadProc a) s

/-- CSR_WRITE (R231). -/
def execCsrWrite (a : CsrAddr) (v : Word) (s : State) : Host.Outcome State Fault Refusal :=
  runCommand (.csrWrite a v) (csrWriteProc a v) s

end Sys2Proof.Machine
end

