-- ==== Sys2Proof/WellFormed.lean ====
section
/-! DEFINITION. Which instructions can be encoded: the operand conditions of spec/30_encoding.md R110 and R112.
The commands' operands have the width of their fields, so every value of them is encodable (R101 to R104). -/

namespace Sys2Proof

/-- `b` is one of the two byte values the wire gives a special meaning, 0xAA and 0xFF (R110, R112). -/
def Config.special (b : Byte) : Bool := b == Config.preamble || b == Config.escape

/-- The operand conditions of the opcode table's rows. -/
def Instr.wf : Instr → Bool
  | .beginAuto => true
  | .beginBaud _ => true
  | .poll => true
  | .reset => true
  | .setNoRestart _ => true
  | .send => true
  | .csrRead _ => true
  | .csrWrite _ _ => true
  | .rxEscaped _ => true
  | .rxEsc => true
  | .rxSync => true
  | .rxAa => true
  | .rxData raw => !Config.special raw
  | .txPre => true
  | .txLit b => !Config.special b
  | .txEscd b => Config.special b

end Sys2Proof
end

