-- ==== Sys2Proof/Decode.lean ====
section
/-! DEFINITION. The decoder and the encoder (spec/30_encoding.md). The core reads three streams: command words
from the command port (R100 to R107), raw bytes from the channel (R110, R111), and, in SEND, the logical bytes of
the outgoing frame (R112). -/

namespace Sys2Proof

/-- Why a bit pattern is no instruction (R107). -/
inductive Reject where
  /-- Opcode 0x00 or 0x09 to 0xFF. -/
  | illegalOpcode (op : Byte)
  /-- A legal opcode with a non-zero bit in its format's must-be-zero field. -/
  | mustBeZero (op : Byte)
  /-- Frame offset 0 holds something other than the preamble, which no frame has (R109, R149). -/
  | notPreamble (b : Byte)
  deriving DecidableEq, Repr

/-- What stands on one of the three streams. -/
inductive Encoded where
  /-- A command word with its operand word (R100). -/
  | command (cmd data : Word)
  /-- A raw byte on the receive stream (R110). -/
  | rx (raw : Byte)
  /-- A logical frame byte on the transmit stream (R112). -/
  | tx (b : Byte)
  deriving DecidableEq, Repr

/-- What the class of a byte depends on besides its value: the codec state (R110), and, on transmit, whether the
byte stands at frame offset 0 (R112). -/
structure Ctx where
  esc : Bool
  syncCount : Byte
  first : Bool
  deriving DecidableEq, Repr

/-- The codec right after reset or `CodecClear` (R140), before the first byte. -/
def Ctx.fresh : Ctx := { esc := false, syncCount := 0, first := true }

/-- `OP = CMD[7:0]` (R100). -/
def cmdOp (cmd : Word) : Byte := cmd.extractLsb' 0 8

/-- `CMD[31:8]`, must be zero in format N (R101). -/
def cmdHighN (cmd : Word) : BitVec 24 := cmd.extractLsb' 8 24

/-- `FLAG = CMD[8]` (R102, R104). -/
def cmdFlag (cmd : Word) : Bool := cmd.getLsbD 8

/-- `CMD[31:9]`, must be zero in format F (R102). -/
def cmdHighF (cmd : Word) : BitVec 23 := cmd.extractLsb' 9 23

/-- `CMD[15:8]`, must be zero in format A (R103). -/
def cmdMidA (cmd : Word) : Byte := cmd.extractLsb' 8 8

/-- `ADDR = CMD[31:16]` (R103, R104). -/
def cmdAddr (cmd : Word) : CsrAddr := cmd.extractLsb' 16 16

/-- A format N command: `i`, if the must-be-zero field is zero (R106). -/
def decodeN (cmd : Word) (i : Instr) : Except Reject Instr :=
  if cmdHighN cmd = 0 then .ok i else .error (.mustBeZero (cmdOp cmd))

/-- A format A command: `i`, if the must-be-zero field is zero (R106). -/
def decodeA (cmd : Word) (i : Instr) : Except Reject Instr :=
  if cmdMidA cmd = 0 then .ok i else .error (.mustBeZero (cmdOp cmd))

/-- `Decode` of R106, total on every command word. -/
def decodeCommand (cmd data : Word) : Except Reject Instr :=
  if cmdOp cmd = 0x01 then decodeN cmd .beginAuto
  else if cmdOp cmd = 0x02 then decodeN cmd (.beginBaud data)
  else if cmdOp cmd = 0x03 then decodeN cmd .poll
  else if cmdOp cmd = 0x04 then decodeN cmd .reset
  else if cmdOp cmd = 0x05 then
    if cmdHighF cmd = 0 then .ok (.setNoRestart (cmdFlag cmd)) else .error (.mustBeZero (cmdOp cmd))
  else if cmdOp cmd = 0x06 then decodeN cmd .send
  else if cmdOp cmd = 0x07 then decodeA cmd (.csrRead (cmdAddr cmd))
  else if cmdOp cmd = 0x08 then decodeA cmd (.csrWrite (cmdAddr cmd) data)
  else .error (.illegalOpcode (cmdOp cmd))

/-- The receive class of a raw byte, tested in the order of R110. -/
def classifyRx (esc : Bool) (syncCount raw : Byte) : Instr :=
  if esc then .rxEscaped raw
  else if raw = Config.escape then .rxEsc
  else if raw = Config.preamble then if syncCount = 0 then .rxSync else .rxAa
  else .rxData raw

/-- The transmit form of a logical frame byte after the preamble (R112, R150). -/
def classifyTx (b : Byte) : Instr :=
  if Config.special b then .txEscd b else .txLit b

/-- The instruction that `e` stands for on its stream, in the context `ctx`. -/
def decode (ctx : Ctx) : Encoded → Except Reject Instr
  | .command cmd data => decodeCommand cmd data
  | .rx raw => .ok (classifyRx ctx.esc ctx.syncCount raw)
  | .tx b =>
    if ctx.first then
      if b = Config.preamble then .ok .txPre else .error (.notPreamble b)
    else .ok (classifyTx b)

/-- The row's encoding (R101 to R105, R110, R112). -/
def encode : Instr → Encoded
  | .beginAuto => .command 0x00000001 0
  | .beginBaud baud => .command 0x00000002 baud
  | .poll => .command 0x00000003 0
  | .reset => .command 0x00000004 0
  | .setNoRestart flag => .command (0#23 ++ BitVec.ofBool flag ++ 0x05#8) 0
  | .send => .command 0x00000006 0
  | .csrRead addr => .command (addr ++ 0#8 ++ 0x07#8) 0
  | .csrWrite addr data => .command (addr ++ 0#8 ++ 0x08#8) data
  | .rxEscaped raw => .rx raw
  | .rxEsc => .rx Config.escape
  | .rxSync => .rx Config.preamble
  | .rxAa => .rx Config.preamble
  | .rxData raw => .rx raw
  | .txPre => .tx Config.preamble
  | .txLit b => .tx b
  | .txEscd b => .tx b

/-- The raw bytes a transmit form puts on the wire (R112); the other rows put none there. -/
def txRaw : Instr → List Byte
  | .txPre => [Config.preamble]
  | .txLit b => [b]
  | .txEscd b => [Config.escape, ~~~b]
  | _ => []

/-- The condition on the context under which a row applies (the opcode table's "condition" and "used_for"; R110,
R112). A command needs none. -/
def Instr.admittedBy (ctx : Ctx) : Instr → Bool
  | .beginAuto => true
  | .beginBaud _ => true
  | .poll => true
  | .reset => true
  | .setNoRestart _ => true
  | .send => true
  | .csrRead _ => true
  | .csrWrite _ _ => true
  | .rxEscaped _ => ctx.esc
  | .rxEsc => !ctx.esc
  | .rxSync => !ctx.esc && ctx.syncCount == 0
  | .rxAa => !ctx.esc && ctx.syncCount != 0
  | .rxData _ => !ctx.esc
  | .txPre => ctx.first
  | .txLit _ => !ctx.first
  | .txEscd _ => !ctx.first

/-- The instruction the decoder reads from an instruction whose bits are `w`, numbered as the opcode table numbers
them. 32 bits are a command word with operand word DATA = bits 63 to 32. 8 bits or fewer are a raw byte that a
fresh codec receives (DEDUCED, log 11: the class of a byte is not in its bits alone). -/
def decodeTableWord (nbits w : Nat) : Option Instr :=
  let e : Encoded := if nbits ≤ 8 then .rx (BitVec.ofNat 8 w) else .command (BitVec.ofNat 32 w) (BitVec.ofNat 32 (w >>> 32))
  match decode .fresh e with
  | .ok i => some i
  | .error _ => none

end Sys2Proof
end

