-- ==== Sys2Proof/Machine/Codec.lean ====
section
/-! DEFINITION. The Byte Codec (spec/41_byte_codec.md): the five receive classes, the three transmit forms, the
receive step and `NextByte`; and the meanings of these eight rows of the opcode table. -/

namespace Sys2Proof.Machine

/-- `CodecClear` (R140). -/
def codecClear : Proc Unit := update fun c => { c with esc := false, syncCount := 0 }

/-! ## Receive classes -/

/-- RX_ESCAPED (R141). -/
def rxEscaped (raw : Byte) : Proc Unit :=
  update fun c => { c with esc := false, syncCount := sat8Succ c.syncCount, codecOut := some (~~~raw) }

/-- RX_ESC (R142). -/
def rxEsc : Proc Unit :=
  update fun c => { c with esc := true, syncCount := sat8Succ c.syncCount, codecOut := none }

/-- RX_DATA (R144). -/
def rxData (raw : Byte) : Proc Unit :=
  update fun c => { c with syncCount := sat8Succ c.syncCount, codecOut := some raw }

/-- RX_AA (R145). -/
def rxAa : Proc Unit := update fun c => { c with syncCount := 0, codecOut := some Config.preamble }

/-- The ring pass-through of a sync marker: `if csr.CONFIG.RING_FWD_EN == 1: RingWrite(0xAA)` (R146). -/
def ringForward : Proc Unit := do
  let c ← regs
  if c.ringFwdEn then ringWrite Config.preamble else pure ()

/-- RX_SYNC (R146). -/
def rxSync : Proc Unit := do
  ringForward
  update fun c => { c with syncCount := 0, codecOut := some Config.preamble }

/-- The procedure of a receive class; the other rows are no receive class. -/
def rxClass : Instr → Proc Unit
  | .rxEscaped raw => rxEscaped raw
  | .rxEsc => rxEsc
  | .rxSync => rxSync
  | .rxAa => rxAa
  | .rxData raw => rxData raw
  | _ => pure ()

/-- `CodecRx` (R147): the class of the raw byte (R110), then what the class does; the result is what it emits. -/
def codecRx (raw : Byte) : Proc (Option Byte) := do
  let c ← regs
  rxClass (classifyRx c.esc c.syncCount raw)
  let c' ← regs
  return c'.codecOut

/-- One pass of the loop of `NextByte` (R148). -/
def nextRaw : Proc (Option Byte) := do
  waitUntil (fun s => 0 < s.env.avail) .nextByte
  let r ← chRead
  codecRx r

/-- `NextByte` (R148), at most `n` passes. After the last one the step would end at the head of the loop, which is the hold
HOLD_NB itself. -/
def nextByteIn : Nat → Proc Byte
  | 0 => haltAt .nextByte
  | n + 1 => do
    match ← nextRaw with
    | some b => pure b
    | none => nextByteIn n

/-- `NextByte` (R148): one raw byte, or two when the first is an escape. -/
def nextByte : Proc Byte := nextByteIn 2

/-! ## Transmit forms -/

/-- TX_PRE, `CodecTxPreamble` (R149). -/
def txPre : Proc Unit := chWrite Config.preamble

/-- TX_LIT (R150). -/
def txLit (b : Byte) : Proc Unit := chWrite b

/-- TX_ESCD (R150). -/
def txEscd (b : Byte) : Proc Unit := do
  chWrite Config.escape
  chWrite (~~~b)

/-- The procedure of a transmit form; the other rows are no transmit form. -/
def txForm : Instr → Proc Unit
  | .txPre => txPre
  | .txLit b => txLit b
  | .txEscd b => txEscd b
  | _ => pure ()

/-- `CodecTx` (R150): the form of the logical byte (R112), then what the form does. -/
def codecTx (b : Byte) : Proc Unit := txForm (classifyTx b)

/-- `CodecTx` for each byte in turn. -/
def codecTxAll : List Byte → Proc Unit
  | [] => pure ()
  | b :: bs => do
    codecTx b
    codecTxAll bs

/-! ## The meanings of the rows -/

/-- RX_ESCAPED (R141). -/
def execRxEscaped (raw : Byte) (s : State) : Host.Outcome State Fault Refusal := runForm (rxEscaped raw) s

/-- RX_ESC (R142). -/
def execRxEsc (s : State) : Host.Outcome State Fault Refusal := runForm rxEsc s

/-- RX_SYNC (R146). -/
def execRxSync (s : State) : Host.Outcome State Fault Refusal := runForm rxSync s

/-- RX_AA (R145). -/
def execRxAa (s : State) : Host.Outcome State Fault Refusal := runForm rxAa s

/-- RX_DATA (R144). -/
def execRxData (raw : Byte) (s : State) : Host.Outcome State Fault Refusal := runForm (rxData raw) s

/-- TX_PRE (R149). -/
def execTxPre (s : State) : Host.Outcome State Fault Refusal := runForm txPre s

/-- TX_LIT (R150). -/
def execTxLit (b : Byte) (s : State) : Host.Outcome State Fault Refusal := runForm (txLit b) s

/-- TX_ESCD (R150). -/
def execTxEscd (b : Byte) (s : State) : Host.Outcome State Fault Refusal := runForm (txEscd b) s

end Sys2Proof.Machine
end

