-- ==== Sys2Proof/Machine/Assembler.lean ====
section
/-! DEFINITION. The Frame Assembler (spec/42_frame_assembler.md). -/

namespace Sys2Proof.Machine

/-- What `FaAccept` returns (R179). -/
inductive Accept where
  | cont
  | framing
  | lenErr
  | doneOk
  | doneBad
  deriving DecidableEq, Repr

/-- `FaClear` (R171). -/
def faClear (c : Regs) : Regs := { c with work := Frame.empty, faPos := 0 }

/-- `Complete` (R180). -/
def faComplete (c : Regs) : Accept × Regs :=
  if c.work.valid then (.doneOk, faClear { c with rx := c.work }) else (.doneBad, faClear c)

/-- `FaAccept` (R179, R172 to R178). The test `p < W.totalLength - 1` is on numbers, so a `totalLength` of 0, which no
reachable frame has at position 5 or later (spec/10_state.md R61 (d)), counts as the checksum position (log 17). -/
def faAccept (p : Params) (b : Byte) (c : Regs) : Accept × Regs :=
  if c.faPos = 0 then
    if b = Config.preamble then (.cont, { c with work := { c.work with preamble := b }, faPos := 1 }) else (.framing, c)
  else if c.faPos = 1 then (.cont, { c with work := { c.work with nodeID := b }, faPos := 2 })
  else if c.faPos = 2 then (.cont, { c with work := { c.work with command := b }, faPos := 3 })
  else if c.faPos = 3 then (.cont, { c with work := { c.work with frameID := b }, faPos := 4 })
  else if c.faPos = 4 then
    if badLength p b then (.lenErr, faClear c)
    else (.cont, { c with work := { c.work with totalLength := b }, faPos := 5 })
  else if c.faPos.toNat + 1 < c.work.totalLength.toNat then
    (.cont, { c with
      work := { c.work with payload := c.work.payload.put (c.faPos.toNat - Config.hdrLen) b }
      faPos := c.faPos + 1 })
  else faComplete { c with work := { c.work with checksum := b }, faPos := c.work.totalLength }

/-- `FaAccept` as a step of a procedure. -/
def acceptByte (b : Byte) : Proc Accept := do
  let c ← regs
  let p ← params
  update fun _ => (faAccept p b c).2
  return (faAccept p b c).1

/-- The body of the loop of `Assemble` after `NextByte` gave `b` (R181): `k` is the next pass. -/
def assembleByte (b : Byte) (k : Proc Code) : Proc Code := do
  match ← acceptByte b with
  | .cont => k
  | .framing => return .pending
  | .lenErr => return .pending
  | .doneOk => return .frameReady
  | .doneBad => return .checksumFail

/-- The loop of `Assemble` (R181), at most `n` passes. -/
def assembleIn : Nat → Proc Code
  | 0 => return .pending
  | n + 1 => do
    let avail ← chAvail
    if 0 < avail then
      let b ← nextByte
      assembleByte b (assembleIn n)
    else return .pending

/-- `Assemble` (R181). 256 passes are enough: each pass that goes on advances `fa.pos`, which stays below 255
(`assembleIn_stable` in Laws/Assembler.lean; log 14). -/
def assemble : Proc Code := assembleIn 256

/-- `Assemble` from inside `NextByte`, after the hold HOLD_NB (R310, R311). -/
def assembleResume : Proc Code := do
  let b ← nextByte
  assembleByte b assemble

end Sys2Proof.Machine
end

