-- ==== Sys2Proof/Machine/Autodetect.lean ====
section
/-! DEFINITION. The Baud Autodetector (spec/43_baud_autodetect.md). -/

namespace Sys2Proof.Machine

/-- `ChRead()`, `n` times, raw: the bytes read, in order. -/
def readMany : Nat → Proc (List Byte)
  | 0 => return []
  | n + 1 => do
    let b ← chRead
    let bs ← readMany n
    return b :: bs

/-- `ChDiscard` (R206): it drops exactly the bytes buffered when it starts. -/
def chDiscard : Proc Unit := do
  let n ← chAvail
  let _ ← readMany n
  return ()

/-- The part of an attempt from HOLD_AD on (R203): wait for `SYNC_N` bytes, read them all, raw. -/
def attemptRead (idx : BitVec 3) : Proc Bool := do
  let p ← params
  waitUntil (fun s => p.syncN ≤ s.env.avail) (.autodetect idx)
  let bs ← readMany p.syncN
  return bs.all (· == Config.preamble)

/-- `Attempt(idx)` (R203). -/
def attempt (idx : BitVec 3) : Proc Bool := do
  update fun c => { c with baudIndex := idx }
  chClose
  let c ← regs
  chOpen (baudAt c idx)
  chDiscard
  attemptRead idx

/-- `idx <- (idx + 1) mod BAUD_COUNT` (R205). -/
def nextCandidate (idx : BitVec 3) (c : Regs) : BitVec 3 := BitVec.ofNat 3 ((idx.toNat + 1) % c.baudCount.toNat)

/-- Acceptance of candidate `idx` (R202). -/
def acceptBaud (idx : BitVec 3) : Proc Code := do
  update fun c => { c with curBaud := baudAt c idx }
  return .ok

/-- The attempt bound is reached (R204). -/
def attemptsSpent (c : Regs) : Bool := c.adMaxAttempts != 0 && c.adAttempts == c.adMaxAttempts

/-- The loop of `Autodetect` (R207) from candidate `idx` on, at most `n` attempts in this step (log 14). -/
def scan : Nat → BitVec 3 → Proc Code
  | 0, idx => haltAt (.attempt idx)
  | n + 1, idx => do
    let c ← regs
    if attemptsSpent c then
      chClose
      return .autodetectExhausted
    else
      update fun c => { c with adAttempts := c.adAttempts + 1 }
      if ← attempt idx then acceptBaud idx
      else
        let c ← regs
        scan n (nextCandidate idx c)

/-- The loop of `Autodetect` from candidate `idx` on, with one attempt for each turn the script still holds, and one more.
An attempt empties the buffer first and then needs `SYNC_N` bytes, so with `SYNC_N > 0` it uses up a turn or holds, and
the bound is never reached (log 14). -/
def scanFrom (idx : BitVec 3) : Proc Code := do
  let s ← theState
  scan (s.env.script.length + 1) idx

/-- `Autodetect` (R201, R207). -/
def autodetect : Proc Code := do
  update fun c => { c with adAttempts := 0 }
  scanFrom 0

/-- `Autodetect` from inside the attempt at `idx`, after the hold HOLD_AD (R310). -/
def autodetectResume (idx : BitVec 3) : Proc Code := do
  if ← attemptRead idx then acceptBaud idx
  else
    let c ← regs
    scanFrom (nextCandidate idx c)

end Sys2Proof.Machine
end

