-- ==== Sys2Proof/Machine/Session.lean ====
section
/-! DEFINITION. The Bus Session (spec/44_session_commands.md): the begin procedure, silent-bus recovery, and the
meanings of BEGIN_AUTO, BEGIN_BAUD, POLL, RESET, SET_NO_RESTART and SEND; and how a held command goes on. -/

namespace Sys2Proof.Machine

/-! ## Begin -/

/-- The end of the begin procedure on success (R222). -/
def beginFinish : Proc Code := do
  codecClear
  update faClear
  let t ← now
  update fun c => { c with lastAct := t, ready := true }
  return .ok

/-- The begin procedure after the autodetect answered `r` (R222). -/
def beginAfterScan (r : Code) : Proc Code := if r = .ok then beginFinish else return r

/-- `Begin(auto, baud)` (R222); `baud` is none for `auto = true`. -/
def begin (baud : Option Word) : Proc Code := do
  let c ← regs
  if c.fatal then return .channelUnavailable
  else
    let there ← chPresent
    if !there then
      update fun c => { c with fatal := true, ready := false }
      return .channelUnavailable
    else
      match baud with
      | none =>
        if c.baudCount = 0 then return .configError
        else
          update fun c => { c with ready := false }
          let r ← autodetect
          beginAfterScan r
      | some b =>
        update fun c => { c with ready := false }
        chClose
        chOpen b
        chDiscard
        update fun c => { c with curBaud := b }
        beginFinish

/-- `BEGIN_AUTO`'s procedure (R220). -/
def beginAutoProc : Proc Reply := do
  let r ← begin none
  return .plain r

/-- `BEGIN_BAUD`'s procedure (R221). -/
def beginBaudProc (baud : Word) : Proc Reply := do
  let r ← begin (some baud)
  return .plain r

/-! ## Poll -/

/-- What POLL answers when the begin nested in its recovery answered `r` (R225, R279). -/
def recovered (r : Code) : Code := if r = .ok then .busReset else .busDown

/-- `Recover` (R225). -/
def recover : Proc Code := do
  chClose
  update fun c => { c with ready := false }
  let c ← regs
  if c.autoRestartDisabled then return .busDown
  else
    let r ← begin none
    return recovered r

/-- `POLL`'s procedure (R224). -/
def pollProc : Proc Reply := do
  let c ← regs
  if !c.ready then return .plain .busDown
  else
    let t ← now
    let avail ← chAvail
    if Config.minFrame ≤ avail then
      update fun c => { c with lastAct := t }
      let r ← assemble
      return .plain r
    else
      let c ← regs
      if quietExceeded t c then
        let r ← recover
        return .plain r
      else return .plain .noActivity

/-! ## Reset and configuration -/

/-- `RESET`'s procedure (R227). -/
def resetProc : Proc Reply := do
  chClose
  update fun c => { c with ready := false }
  return .plain .ok

/-- `SET_NO_RESTART`'s procedure (R228). -/
def setNoRestartProc (flag : Bool) : Proc Reply := do
  update fun c => { c with autoRestartDisabled := flag }
  return .plain .ok

/-! ## Send -/

/-- The checksum of the TX frame (R229, R131). -/
def txChecksum (t : TxFrame) : Byte :=
  csumFrame Config.preamble t.nodeID t.command t.frameID t.totalLength t.payload

/-- The logical bytes of the TX frame after the preamble, in offset order (R229, spec/20_memory.md R83). -/
def txBody (t : TxFrame) : List Byte :=
  [t.nodeID, t.command, t.frameID, t.totalLength] ++ payloadBytes t.totalLength t.payload ++ [txChecksum t]

/-- `SEND`'s procedure (R229). -/
def sendProc : Proc Reply := do
  let c ← regs
  let p ← params
  if !c.ready then return .plain .busDown
  else if badLength p c.tx.totalLength then return .plain .lengthError
  else
    txPre
    codecTxAll (txBody c.tx)
    chFlush
    return .plain .ok

/-! ## The meanings of the rows -/

/-- BEGIN_AUTO (R220). -/
def execBeginAuto (s : State) : Host.Outcome State Fault Refusal := runCommand .beginAuto beginAutoProc s

/-- BEGIN_BAUD (R221). -/
def execBeginBaud (baud : Word) (s : State) : Host.Outcome State Fault Refusal :=
  runCommand (.beginBaud baud) (beginBaudProc baud) s

/-- POLL (R224). -/
def execPoll (s : State) : Host.Outcome State Fault Refusal := runCommand .poll pollProc s

/-- RESET (R227). -/
def execReset (s : State) : Host.Outcome State Fault Refusal := runCommand .reset resetProc s

/-- SET_NO_RESTART (R228). -/
def execSetNoRestart (flag : Bool) (s : State) : Host.Outcome State Fault Refusal :=
  runCommand (.setNoRestart flag) (setNoRestartProc flag) s

/-- SEND (R229). -/
def execSend (s : State) : Host.Outcome State Fault Refusal := runCommand .send sendProc s

/-! ## Held commands -/

/-- The answer of the command `i` whose begin procedure answered `r`: POLL runs it inside its recovery (R225). -/
def beginAnswer (i : Instr) (r : Code) : Code :=
  match i with
  | .poll => recovered r
  | _ => r

/-- The procedure of command `i` from `h` on (R310). -/
def resumeProc (i : Instr) : Hold → Proc Reply
  | .nextByte => do
    let r ← assembleResume
    return .plain r
  | .autodetect idx => do
    let r ← autodetectResume idx
    let r' ← beginAfterScan r
    return .plain (beginAnswer i r')
  | .attempt idx => do
    let r ← scanFrom idx
    let r' ← beginAfterScan r
    return .plain (beginAnswer i r')
  | .flush => do
    waitFlush
    return .plain .ok

/-- The command `i` goes on from `h`. -/
def resume (i : Instr) (h : Hold) (s : State) : Host.Outcome State Fault Refusal := runCommand i (resumeProc i h) s

end Sys2Proof.Machine
end

