-- ==== Sys2Proof/Machine/Dispatch.lean ====
section
/-! DEFINITION. One arm per row of spec/opcode_table.json: the meaning of each instruction. -/

namespace Sys2Proof.Machine

/-- The meaning of one instruction. -/
def exec (i : Instr) (s : State) : Host.Outcome State Fault Refusal :=
  match i with
  | .beginAuto => Sys2Proof.Machine.execBeginAuto s
  | .beginBaud baud => Sys2Proof.Machine.execBeginBaud baud s
  | .poll => Sys2Proof.Machine.execPoll s
  | .reset => Sys2Proof.Machine.execReset s
  | .setNoRestart flag => Sys2Proof.Machine.execSetNoRestart flag s
  | .send => Sys2Proof.Machine.execSend s
  | .csrRead addr => Sys2Proof.Machine.execCsrRead addr s
  | .csrWrite addr data => Sys2Proof.Machine.execCsrWrite addr data s
  | .rxEscaped raw => Sys2Proof.Machine.execRxEscaped raw s
  | .rxEsc => Sys2Proof.Machine.execRxEsc s
  | .rxSync => Sys2Proof.Machine.execRxSync s
  | .rxAa => Sys2Proof.Machine.execRxAa s
  | .rxData raw => Sys2Proof.Machine.execRxData raw s
  | .txPre => Sys2Proof.Machine.execTxPre s
  | .txLit b => Sys2Proof.Machine.execTxLit b s
  | .txEscd b => Sys2Proof.Machine.execTxEscd b s

end Sys2Proof.Machine
end

