-- ==== Sys2Proof/Machine/Sequencer.lean ====
section
/-! DEFINITION. The sequencer `seq` (spec/10_state.md R32): an idle core accepts the command on its port
(spec/44_session_commands.md R234), or lets the environment take a turn; a held command goes on
(spec/70_reset_and_hazards.md R310). And where a command or a raw byte stands before a step takes it. -/

namespace Sys2Proof.Machine

/-- The procedure of an illegal command (R232). -/
def illegalProc : Proc Reply := return .plain .illegalCommand

/-- An illegal command, with `seq <- BUSY(ILLEGAL)` while it runs (R32, R232, R234). -/
def execIllegal (s : State) : Host.Outcome State Fault Refusal := runAs .busyIllegal illegalProc s

/-- The command word `cmd` with operand `data` is accepted: it leaves the port, and the command it decodes to runs (R234), or
the core responds ILLEGAL_COMMAND (R232). -/
def accept (cmd data : Word) (s : State) : Host.Outcome State Fault Refusal :=
  match decodeCommand cmd data with
  | .ok i => exec i (s.mapEnv fun e => { e with port := none })
  | .error _ => execIllegal (s.mapEnv fun e => { e with port := none })

/-- What the core does next, by the sequencer's state. -/
def sequence (s : State) : Host.Outcome State Fault Refusal :=
  match s.core.seq with
  | .idle =>
    match s.env.port with
    | some (cmd, data) => accept cmd data s
    | none => runForm tick s
  | .busy i => exec i s
  | .busyIllegal => execIllegal s
  | .held i h => resume i h s

/-- The command word `cmd` with operand `data` on the command port of an idle core (R57). -/
def State.present (cmd data : Word) (s : State) : State :=
  (s.setSeq .idle).mapEnv fun e => { e with port := some (cmd, data) }

/-- The raw byte `r` first in the buffer of an open channel, and a POLL waiting for it in `NextByte` (R148). -/
def State.deliver (r : Byte) (s : State) : State :=
  (s.setSeq (.held .poll .nextByte)).mapEnv fun e =>
    { e with openAt := some (e.openAt.getD s.core.curBaud), fifo := r :: e.fifo }

end Sys2Proof.Machine
end

