-- ==== Sys2Proof/Machine/Step.lean ====
section
/-! DEFINITION. One step of the machine, and how the host places an instruction before it. -/

namespace Sys2Proof.Machine

/-- One step: the environment's turns for it, then what the sequencer does. -/
def step (s : State) : Host.Outcome State Fault Refusal := sequence s.refill

/-- `s` with the instruction whose bits are `w` where the next step takes it (log 12): a command word on the command port,
its operand word DATA in bits 63 to 32, or a raw byte on the receive stream. -/
def State.withFetchWord (s : State) (nbits w : Nat) : State :=
  if nbits ≤ 8 then s.deliver (BitVec.ofNat 8 w) else s.present (BitVec.ofNat 32 w) (BitVec.ofNat 32 (w >>> 32))

end Sys2Proof.Machine
end

