-- ==== Sys2Proof/Machine/Pseudo.lean ====
section
/-! DEFINITION. The caller's side: the pseudo-instructions of spec/30_encoding.md R115 as the commands they stand for, and
the command syntax of R114. -/

namespace Sys2Proof.Machine

/-! ## Pseudo-instructions (R115) -/

/-- The pseudo-instructions with a fixed expansion (R115). -/
inductive Pseudo where
  | disableRestart
  | enableRestart
  | status
  | setBauds (bauds : List Word)
  | txFrame (nodeID command frameID : Byte) (payload : List Byte)
  deriving DecidableEq, Repr

/-- `CSR.W base+i, vi` for each value in turn (R115). -/
def writeRun (base : CsrAddr) : List Word → List Instr
  | [] => []
  | v :: vs => .csrWrite base v :: writeRun (base + 1) vs

/-- The commands a pseudo-instruction stands for (R115). -/
def Pseudo.expand : Pseudo → List Instr
  | .disableRestart => [.setNoRestart true]
  | .enableRestart => [.setNoRestart false]
  | .status => [.csrRead 0x0000]
  | .setBauds bauds => writeRun 0x0010 bauds ++ [.csrWrite 0x0005 (BitVec.ofNat 32 bauds.length)]
  | .txFrame n c f payload =>
    [.csrWrite 0x0030 (f ++ c ++ n ++ 0#8), .csrWrite 0x0031 (BitVec.ofNat 32 (payload.length + Config.minFrame))] ++
      writeRun 0x0200 (payload.map fun b => b.setWidth 32)

/-- The code of the response that a command run from `s` to `t` gave; none where it holds (R310) or a hardware reset aborted it
(R301). -/
def responseCode (s t : State) : Option Byte :=
  match (t.trace.drop s.trace.length).getLast? with
  | some (.resp code _) => some code
  | _ => none

/-- `WAITFRAME`: the caller repeats POLL until the response is FRAME_READY (R115). DESIGN CHOICE, log 23: it makes at most `n`
POLLs, and it stops after a POLL that gave no response, which holds or which a hardware reset aborted. -/
def waitFrame : Nat → State → Host.Outcome State Fault Refusal
  | 0, s => .next s
  | n + 1, s =>
    match execPoll s.refill with
    | .next t =>
      match responseCode s t with
      | none => .next t
      | some code => if code = Code.frameReady.toByte then .next t else waitFrame n t
    | .fault f => .fault f
    | .refused r => .refused r

/-! ## Command syntax (R114) -/

/-- A token of a line. -/
inductive Token where
  | name (cs : List Char)
  | num (n : Nat)
  | comma
  | lbr
  | rbr
  deriving DecidableEq, Repr

/-- The digits of the numbers of R114, in the order of their values, in upper and in lower case. -/
def digitRows : List (List Char) := ["0123456789ABCDEF".toList, "0123456789abcdef".toList]

/-- The value of a digit in base `b`: its place in a row of digits. -/
def digitOf (b : Nat) (c : Char) : Option Nat := digitRows.findSome? fun row => (row.take b).idxOf? c

/-- The digits as a number in base `b`, after the digits read so far, `acc`. -/
def numberIn (b acc : Nat) : List Char → Option Nat
  | [] => some acc
  | c :: cs => (digitOf b c).bind fun d => numberIn b (b * acc + d) cs

/-- A decimal number, or a hexadecimal one after `0x`. -/
def number : List Char → Option Nat
  | '0' :: 'x' :: c :: cs => numberIn 16 0 (c :: cs)
  | cs => numberIn 10 0 cs

/-- The token that a run of characters stands for: a number if the first is a digit, else a name. -/
def tokenOf : List Char → Option Token
  | [] => none
  | c :: cs => if c.isDigit then (number (c :: cs)).map .num else some (.name (c :: cs))

/-- `k` after the token of the run `w`, if there is one. -/
def closeRun (w : List Char) (k : Option (List Token)) : Option (List Token) :=
  if w.isEmpty then k else (tokenOf w).bind fun t => k.map fun ts => t :: ts

/-- The tokens of a line; `w` is the run being read. A `;` starts a comment. -/
def lex (w : List Char) : List Char → Option (List Token)
  | [] => closeRun w (some [])
  | c :: cs =>
    if c = ';' then closeRun w (some [])
    else if c = ' ' || c = '\t' then closeRun w (lex [] cs)
    else if c = ',' then closeRun w ((lex [] cs).map fun ts => .comma :: ts)
    else if c = '[' then closeRun w ((lex [] cs).map fun ts => .lbr :: ts)
    else if c = ']' then closeRun w ((lex [] cs).map fun ts => .rbr :: ts)
    else lex (w ++ [c]) cs

/-- The names of the registers that are not indexed (R55). -/
def registerNames : List (List Char × CsrAddr) :=
  [("STATUS".toList, 0x0000), ("CONFIG".toList, 0x0001), ("QUIET_TIMEOUT".toList, 0x0002), ("CUR_BAUD".toList, 0x0003),
   ("LAST_ACT".toList, 0x0004), ("BAUD_COUNT".toList, 0x0005), ("BAUD_INDEX".toList, 0x0006),
   ("AD_MAX_ATTEMPTS".toList, 0x0007), ("RX_HDR".toList, 0x0020), ("RX_TAIL".toList, 0x0021), ("TX_HDR".toList, 0x0030),
   ("TX_TAIL".toList, 0x0031)]

/-- The indexed registers, with the address of entry 0 and the number of addresses of the window (R55, R56, R114). -/
def windowNames : List (List Char × Nat × Nat) :=
  [("BAUD_LIST".toList, 0x0010, 8), ("RX_PAY".toList, 0x0100, 256), ("TX_PAY".toList, 0x0200, 256)]

/-- A CSR address at the head of `ts`: a number or a register's name (R114); and the tokens after it. -/
def addressIn : List Token → Option (CsrAddr × List Token)
  | .num n :: ts => if n < 2 ^ 16 then some (BitVec.ofNat 16 n, ts) else none
  | .name w :: .lbr :: .num i :: .rbr :: ts =>
    (windowNames.lookup w).bind fun b => if i < b.2 then some (BitVec.ofNat 16 (b.1 + i), ts) else none
  | .name w :: ts => (registerNames.lookup w).map fun a => (a, ts)
  | _ => none

/-- Numbers below `2 ^ w` with commas between them. -/
def numbersIn (w : Nat) : List Token → Option (List (BitVec w))
  | [.num n] => if n < 2 ^ w then some [BitVec.ofNat w n] else none
  | .num n :: .comma :: ts => if n < 2 ^ w then (numbersIn w ts).map fun vs => BitVec.ofNat w n :: vs else none
  | _ => none

/-- The payload of TXFRAME: bytes in brackets, none or more. -/
def payloadIn : List Token → Option (List Byte)
  | [.lbr, .rbr] => some []
  | .lbr :: ts => if ts.getLast? = some .rbr then numbersIn 8 ts.dropLast else none
  | _ => none

/-- The commands that the mnemonic `w` with the operands `ts` stands for (R114, R115). -/
def commandsOf (w : List Char) (ts : List Token) : Option (List Instr) :=
  if w = "BEGIN.AUTO".toList then if ts = [] then some [.beginAuto] else none
  else if w = "BEGIN.BAUD".toList then
    match ts with
    | [.num b] => if b < 2 ^ 32 then some [.beginBaud (BitVec.ofNat 32 b)] else none
    | _ => none
  else if w = "POLL".toList then if ts = [] then some [.poll] else none
  else if w = "RESET".toList then if ts = [] then some [.reset] else none
  else if w = "NORESTART".toList then
    if ts = [.num 0] then some [.setNoRestart false] else if ts = [.num 1] then some [.setNoRestart true] else none
  else if w = "SEND".toList then if ts = [] then some [.send] else none
  else if w = "CSR.R".toList then
    match addressIn ts with
    | some (a, []) => some [.csrRead a]
    | _ => none
  else if w = "CSR.W".toList then
    match addressIn ts with
    | some (a, [.comma, .num v]) => if v < 2 ^ 32 then some [.csrWrite a (BitVec.ofNat 32 v)] else none
    | _ => none
  else if w = "DISABLERESTART".toList then if ts = [] then some Pseudo.disableRestart.expand else none
  else if w = "ENABLERESTART".toList then if ts = [] then some Pseudo.enableRestart.expand else none
  else if w = "STATUS".toList then if ts = [] then some Pseudo.status.expand else none
  else if w = "SETBAUDS".toList then
    (numbersIn 32 ts).bind fun bs => if bs.length ≤ Config.nbaudMax then some (Pseudo.setBauds bs).expand else none
  else if w = "TXFRAME".toList then
    match ts with
    | .num n :: .comma :: .num c :: .comma :: .num f :: .comma :: p =>
      if n < 256 ∧ c < 256 ∧ f < 256 then
        (payloadIn p).bind fun bs =>
          if bs.length ≤ 249 then
            some (Pseudo.txFrame (BitVec.ofNat 8 n) (BitVec.ofNat 8 c) (BitVec.ofNat 8 f) bs).expand
          else none
      else none
    | _ => none
  else none

/-- The commands of one line: none or more; `none` for a line that is not of the syntax. WAITFRAME, a loop, is no line of
commands (`waitFrame`). -/
def assembleLine (line : List Char) : Option (List Instr) :=
  match lex [] line with
  | some [] => some []
  | some (.name w :: ts) => commandsOf w ts
  | _ => none

end Sys2Proof.Machine
end

