-- ==== Sys2Proof/Safety.lean ====
section
/-! DEFINITION. The terms the statements use: the invariants of spec/10_state.md R61, the outcome codes each command may
give (spec/60_exceptions.md R270), an environment that makes no hardware reset, and the wire form of a frame. -/

namespace Sys2Proof

/-! ## Commands -/

/-- The instruction is a command (R105): it is issued on the command port and responds. -/
def Instr.isCommand : Instr → Bool
  | .beginAuto => true
  | .beginBaud _ => true
  | .poll => true
  | .reset => true
  | .setNoRestart _ => true
  | .send => true
  | .csrRead _ => true
  | .csrWrite _ _ => true
  | .rxEscaped _ => false
  | .rxEsc => false
  | .rxSync => false
  | .rxAa => false
  | .rxData _ => false
  | .txPre => false
  | .txLit _ => false
  | .txEscd _ => false

/-- The outcome codes a command may give: the column "commands" of R270. -/
def Instr.codes : Instr → List Machine.Code
  | .beginAuto => [.ok, .channelUnavailable, .configError, .autodetectExhausted]
  | .beginBaud _ => [.ok, .channelUnavailable]
  | .poll => [.frameReady, .pending, .checksumFail, .busDown, .busReset, .noActivity]
  | .reset => [.ok]
  | .setNoRestart _ => [.ok]
  | .send => [.ok, .busDown, .lengthError]
  | .csrRead _ => [.ok, .badCsr]
  | .csrWrite _ _ => [.ok, .badCsr]
  | .rxEscaped _ => []
  | .rxEsc => []
  | .rxSync => []
  | .rxAa => []
  | .rxData _ => []
  | .txPre => []
  | .txLit _ => []
  | .txEscd _ => []

/-- The command can wait at the place `h`: the column "reachable from" of R310. Between two attempts of the autodetect, a
place of the model's own (log 14), it is as at HOLD_AD. -/
def Instr.mayHold (i : Instr) : Machine.Hold → Bool
  | .nextByte => i == .poll
  | .autodetect _ => i == .beginAuto || i == .poll
  | .attempt _ => i == .beginAuto || i == .poll
  | .flush => i == .send

end Sys2Proof

namespace Sys2Proof.Machine

/-! ## The environment of a run -/

/-- The environment makes no move in any step to come. -/
abbrev State.quiet (s : State) : Prop := s.env.script = [] ∧ s.env.supply = .again []

/-- No hardware reset in the turns of the script (R301: nothing else aborts a command). -/
def State.undisturbed (s : State) : Bool := s.env.script.all fun turn => turn.all fun m => !m.isReset

/-- A run of bytes arriving in one turn. -/
def arrivals (bs : List Byte) : List EnvMove := bs.map fun b => .arrive b 0

/-! ## The trace -/

/-- The entry is a response. -/
def Event.isResp : Event → Bool
  | .resp _ _ => true
  | _ => false

/-- The number of responses in the trace. -/
def State.responses (s : State) : Nat := s.trace.countP Event.isResp

/-- The commands in turn, as a caller issues them (R57, R115). -/
def execAll : List Instr → State → Host.Outcome State Fault Refusal
  | [], s => .next s
  | i :: is, s =>
    match exec i s with
    | .next t => execAll is t
    | .fault f => .fault f
    | .refused r => .refused r

/-! ## Frames -/

/-- The raw bytes of the TX frame `t` on the wire (R112, R113, R229): the preamble, then each later byte in its transmit
form. -/
def rawFrame (t : TxFrame) : List Byte :=
  Config.preamble :: (txBody t).flatMap fun b => txRaw (classifyTx b)

/-- The received frame `f` is the frame `t` (R183): preamble 0xAA, the same header and payload, the payload entries past
the frame 0 (R52), and the checksum of R131. -/
def Frame.carries (t : TxFrame) (f : Frame) : Prop :=
  f.preamble = Config.preamble ∧ f.nodeID = t.nodeID ∧ f.command = t.command ∧ f.frameID = t.frameID ∧
    f.totalLength = t.totalLength ∧ f.checksum = txChecksum t ∧
    ∀ i, f.payload.get i = if i + Config.minFrame < t.totalLength.toNat then t.payload.get i else 0

/-- `CodecRx` on each raw byte in turn (R147): what each emits. -/
def codecRxAll : List Byte → Proc (List (Option Byte))
  | [] => return []
  | r :: rs => do
    let b ← codecRx r
    let bs ← codecRxAll rs
    return b :: bs

/-! ## Register access -/

/-- The bits a CSR_WRITE stores, and the bits that always read as 1, of a register that can be written (R42 to R54, R231);
none for a read-only register. -/
def Csr.writable : Csr → Option (Word × Word)
  | .status => none
  | .config => some (0x00000007, 0)
  | .quietTimeout => some (0xFFFFFFFF, 0)
  | .curBaud => none
  | .lastAct => none
  | .baudCount => some (0x0000000F, 0)
  | .baudIndex => none
  | .adMaxAttempts => some (0xFFFFFFFF, 0)
  | .baudList _ => some (0xFFFFFFFF, 0)
  | .rxHdr => none
  | .rxTail => none
  | .txHdr => some (0xFFFFFF00, 0x000000AA)
  | .txTail => some (0x000000FF, 0)
  | .rxPay _ => none
  | .txPay _ => some (0x000000FF, 0)

/-- A write of `v` to the register that R231 refuses although the register can be written: BAUD_COUNT above
`NBAUD_MAX`. -/
def Csr.illegalValue (v : Word) : Csr → Bool
  | .baudCount => Config.nbaudMax < (v &&& 0xF).toNat
  | _ => false

/-- The registers after a successful begin at the rate `baud`, at time `t` (R222). -/
def Regs.begun (baud t : Word) (c : Regs) : Regs :=
  { c with
    seq := .idle, ready := true, chOpen := true, esc := false, syncCount := 0, faPos := 0, work := Frame.empty,
    curBaud := baud, lastAct := t }

/-- The candidate `k` places on from BAUD_INDEX, around the list (R205). -/
def Regs.candidate (c : Regs) (k : Nat) : BitVec 3 := BitVec.ofNat 3 ((c.baudIndex.toNat + k) % c.baudCount.toNat)

/-! ## The invariants of R61 -/

/-- What holds of the machine between steps. R61 (a) to (f), and what these need to be kept by every step: the channel
stands as the core's record says while the record says open, a closed channel buffers nothing, the buffer is within its
depth (R93), BAUD_COUNT is legal (R46), the unfilled part of the work frame is zero (R171), and the RX frame is empty or a
valid frame (R63, R52). -/
structure State.Inv (s : State) : Prop where
  /-- R61 (a). -/
  ready_open : s.core.ready = true → s.core.chOpen = true
  /-- R61 (b). -/
  fatal_down : s.core.fatal = true → s.core.ready = false
  /-- R61 (c). -/
  start_empty : s.core.faPos = 0 → s.core.work = Frame.empty
  /-- R61 (d); with it `fa.pos < 255`, R61 (e). -/
  body : 5 ≤ s.core.faPos.toNat → 6 ≤ s.core.work.totalLength.toNat ∧
    s.core.work.totalLength.toNat - 6 ≤ s.params.payloadCap.val ∧ s.core.faPos.toNat + 1 ≤ s.core.work.totalLength.toNat
  /-- R61 (f), and where an escape can be pending at all: at HOLD_NB. -/
  escape_held : s.core.esc = true → ∃ i, s.core.seq = .held i .nextByte
  /-- A command between steps is at a hold. -/
  not_running : s.core.seq ≠ .busyIllegal ∧ ∀ i, s.core.seq ≠ .busy i
  /-- A command holds only where R310 says that it can. -/
  held_by : ∀ i h, s.core.seq = .held i h → i.mayHold h = true
  /-- In the autodetect the session is not ready and the fatal latch is clear (R222). -/
  scanning : ∀ i idx, (s.core.seq = .held i (.autodetect idx) ∨ s.core.seq = .held i (.attempt idx)) →
    s.core.ready = false ∧ s.core.fatal = false
  /-- At HOLD_AD the channel is open (R203). -/
  attempt_open : ∀ i idx, s.core.seq = .held i (.autodetect idx) → s.core.chOpen = true
  /-- `st.chOpen` mirrors the channel's `isOpen` (R36). -/
  mirror : s.core.chOpen = true → s.env.openAt.isSome = true
  /-- A closed channel buffers nothing (R15, R93). -/
  closed_empty : s.env.openAt = none → s.env.fifo = []
  /-- The buffer is within CH_FIFO_DEPTH (R7). -/
  within_depth : s.env.fifo.length ≤ s.params.fifoDepth.toNat
  /-- R46. -/
  baud_count : s.core.baudCount.toNat ≤ Config.nbaudMax
  /-- The work frame in progress has its preamble (R172). -/
  work_preamble : s.core.faPos ≠ 0 → s.core.work.preamble = Config.preamble
  /-- The payload entries not yet stored to are 0 (R171, R177). -/
  work_tail : ∀ i, s.core.faPos.toNat ≤ i + 5 → s.core.work.payload.get i = 0
  /-- The RX frame is empty, or was delivered (R63, R180, R182). -/
  rx_valid : s.core.rx = Frame.empty ∨ (s.core.rx.preamble = Config.preamble ∧ 6 ≤ s.core.rx.totalLength.toNat ∧
    s.core.rx.totalLength.toNat - 6 ≤ s.params.payloadCap.val ∧ s.core.rx.valid = true ∧
    ∀ i, s.core.rx.totalLength.toNat ≤ i + 6 → s.core.rx.payload.get i = 0)

end Sys2Proof.Machine
end

