-- ==== Sys2Proof/Certificates/Slice0/Obligations.lean ====
section
/-! DEFINITION. The statements for the provers. Each docstring names the rules of spec/ it formalises. The
environment's turns stand in State: the script holds the next ones, and a step that finds it used up fills it from the supply
(`State.refill`). With `s.env.script = []` an instruction runs without a turn of the environment; with `s.quiet` so do all steps
to come. "Undisturbed" is: no hardware reset in the script. Script and supply are the model's own fields (log 1, log 24). -/

open Sys2Proof Sys2Proof.Machine

/-! ## Encoding -/

/-- Words written out from R105, R110 and R112 decode to the instructions they stand for. -/
def Obligations.SpecWordsDecode : Prop :=
  decodeCommand 0x00000001 0 = .ok .beginAuto ∧ decodeCommand 0x00000002 0x00004B00 = .ok (.beginBaud 19200) ∧
  decodeCommand 0x00000003 0 = .ok .poll ∧ decodeCommand 0x00000004 0 = .ok .reset ∧
  decodeCommand 0x00000105 0 = .ok (.setNoRestart true) ∧ decodeCommand 0x00000006 0 = .ok .send ∧
  decodeCommand 0x00200007 0 = .ok (.csrRead 0x0020) ∧ decodeCommand 0x00310008 7 = .ok (.csrWrite 0x0031 7) ∧
  decode { esc := true, syncCount := 4, first := false } (.rx 0x55) = .ok (.rxEscaped 0x55) ∧
  decode .fresh (.rx 0xFF) = .ok .rxEsc ∧ decode .fresh (.rx 0xAA) = .ok .rxSync ∧
  decode { esc := false, syncCount := 7, first := false } (.rx 0xAA) = .ok .rxAa ∧
  decode .fresh (.rx 0x01) = .ok (.rxData 0x01) ∧ decode .fresh (.tx 0xAA) = .ok .txPre ∧
  decode { esc := false, syncCount := 0, first := false } (.tx 0x55) = .ok (.txLit 0x55) ∧
  decode { esc := false, syncCount := 0, first := false } (.tx 0xAA) = .ok (.txEscd 0xAA)

/-- Decode and encode agree, for every well-formed instruction in every context its row admits (R105, R110, R112). -/
def Obligations.DecodeEncodeRoundTrip : Prop :=
  ∀ (ctx : Ctx) (i : Instr), i.wf = true → i.admittedBy ctx = true → decode ctx (encode i) = .ok i

/-- A command word that decodes is the encoding of what it decodes to, and the operand word goes to BEGIN_BAUD and CSR_WRITE
unchanged (R100, R104, R106). -/
def Obligations.DecodedCommandReencodes : Prop :=
  ∀ (cmd data : Word) (i : Instr), decodeCommand cmd data = .ok i →
    (∃ d, encode i = .command cmd d ∧ decodeCommand cmd d = .ok i) ∧
    (∀ baud, i = .beginBaud baud → baud = data) ∧ (∀ a v, i = .csrWrite a v → v = data)

/-- `Decode` of R106, word by word: which command word is which command, with which operand. Every other word is illegal. -/
def Obligations.CommandDecodeIsExact : Prop :=
  ∀ (cmd data : Word) (i : Instr), decodeCommand cmd data = .ok i ↔
    (cmd = 0x01 ∧ i = .beginAuto) ∨ (cmd = 0x02 ∧ i = .beginBaud data) ∨ (cmd = 0x03 ∧ i = .poll) ∨
    (cmd = 0x04 ∧ i = .reset) ∨ (cmd &&& 0xFFFFFEFF = 0x05 ∧ i = .setNoRestart (cmd.getLsbD 8)) ∨
    (cmd = 0x06 ∧ i = .send) ∨ (cmd &&& 0x0000FFFF = 0x07 ∧ i = .csrRead (cmd.extractLsb' 16 16)) ∨
    (cmd &&& 0x0000FFFF = 0x08 ∧ i = .csrWrite (cmd.extractLsb' 16 16) data)

/-! ## Steps -/

/-- An idle core runs the command on its port (R234): the step is the command's meaning, with the port emptied and the
environment's turns for the step in the script (`State.refill`, log 24). -/
def Obligations.StepRunsPresentedCommand : Prop :=
  ∀ (s : State) (cmd data : Word) (i : Instr), s.core.seq = .idle → s.env.port = some (cmd, data) →
    decodeCommand cmd data = .ok i → step s = exec i { s with env := { s.refill.env with port := none } }

/-- An illegal command responds ILLEGAL_COMMAND and changes no state (R232). -/
def Obligations.IllegalCommandResponds : Prop :=
  (∀ (s : State) (cmd data : Word) (r : Reject), s.core.seq = .idle → s.env.port = some (cmd, data) → s.quiet →
    decodeCommand cmd data = .error r →
    step s = .next { s with env := { s.env with port := none }, trace := s.trace ++ [.resp 0x0B 0] }) ∧
  ∀ data : Word, ∀ cmd ∈ [(0x00000000 : Word), 0x00000103, 0x00000207, 0x000000FF],
    ∃ r, decodeCommand cmd data = .error r

/-- A POLL that waits in `NextByte` with a raw byte buffered runs the byte's receive class (R110, R148). The byte it emits
goes to the Frame Assembler (R181); where it emits none, `NextByte` goes on. `codecOut` is the model's field for the byte
emitted (log 9). -/
def Obligations.StepRunsReceivedByte : Prop :=
  ∀ (s t : State) (i : Instr) (r : Byte) (rest : List Byte), s.core.seq = .held i .nextByte → s.quiet →
    s.env.openAt.isSome = true → s.env.fifo = r :: rest →
    exec (classifyRx s.core.esc s.core.syncCount r)
      { s with core := { s.core with seq := .busy i }, env := { s.env with fifo := rest }, trace := s.trace ++ [.read r] }
      = .next t →
    (∀ b, t.core.codecOut = some b →
      step s = runCommand i (do let c ← assembleByte b assemble; return .plain c) t) ∧
    (t.core.codecOut = none → step s = resume i .nextByte t)

/-- An idle core with no command presented takes no action of its own (R304): the environment takes its turn. -/
def Obligations.IdleCoreWaits : Prop :=
  ∀ s : State, s.core.seq = .idle → s.env.port = none → s.refill.undisturbed = true →
    ∃ t, step s = .next t ∧ t.core = s.core ∧ t.trace = s.trace ∧ t.params = s.params ∧
      t.env.script = s.refill.env.script.tail ∧ t.env.supply = s.refill.env.supply

/-! ## The Checksum Unit -/

/-- The laws of the checksum (R133). -/
def Obligations.ChecksumLaws : Prop :=
  (∀ l, (csum l).toNat ≤ 255) ∧
  (∀ l, (csum l).toNat = (l.map BitVec.toNat).sum % 256) ∧
  (∀ l l', l.Perm l' → csum l = csum l') ∧
  (∀ l l', csum (l ++ l') = csum l + csum l') ∧
  (∀ l, csum (l ++ [BitVec.ofNat 8 ((256 - (csum l).toNat) % 256)]) = 0)

/-! ## The Byte Codec -/

/-- The class of a raw byte is the first row of R110 whose condition holds. -/
def Obligations.RawByteClasses : Prop :=
  ∀ (n r : Byte), classifyRx true n r = .rxEscaped r ∧ classifyRx false n 0xFF = .rxEsc ∧
    classifyRx false 0 0xAA = .rxSync ∧ (n ≠ 0 → classifyRx false n 0xAA = .rxAa) ∧
    (r ≠ 0xAA → r ≠ 0xFF → classifyRx false n r = .rxData r)

/-- RX_ESCAPED, RX_ESC, RX_DATA and RX_AA (R141, R142, R144, R145): when a raw byte is of the class, and what the class does
to the codec's registers; nothing else changes. `codecOut` is the model's field for the byte emitted (log 9), and that the effect
is the same in a state outside the class's condition is the model's choice (log 10). -/
def Obligations.ReceiveClassesAct : Prop :=
  ∀ (s : State) (n r : Byte),
    (classifyRx true n r = .rxEscaped r ∧
      exec (.rxEscaped r) s = .next { s with core := { s.core with
        esc := false, syncCount := BitVec.ofNat 8 (min (s.core.syncCount.toNat + 1) 255), codecOut := some (~~~r) } }) ∧
    (classifyRx false n 0xFF = .rxEsc ∧
      exec .rxEsc s = .next { s with core := { s.core with
        esc := true, syncCount := BitVec.ofNat 8 (min (s.core.syncCount.toNat + 1) 255), codecOut := none } }) ∧
    ((r ≠ 0xAA → r ≠ 0xFF → classifyRx false n r = .rxData r) ∧
      exec (.rxData r) s = .next { s with core := { s.core with
        syncCount := BitVec.ofNat 8 (min (s.core.syncCount.toNat + 1) 255), codecOut := some r } }) ∧
    ((n ≠ 0 → classifyRx false n 0xAA = .rxAa) ∧
      exec .rxAa s = .next { s with core := { s.core with syncCount := 0, codecOut := some 0xAA } })

/-- RX_SYNC: with forwarding enabled the marker goes to the ring port, and it is emitted in either case (R146). `codecOut` is the
model's field for the byte emitted (log 9), and that the effect is the same in a state outside the class's condition, with an
escape pending or at a count other than 0, is the model's choice (log 10). -/
def Obligations.SyncMarkerForwards : Prop :=
  ∀ s : State,
    (s.core.ringFwdEn = true → s.env.script = [] → exec .rxSync s = .next { s with
      core := { s.core with syncCount := 0, codecOut := some 0xAA }, trace := s.trace ++ [.ring 0xAA] }) ∧
    (s.core.ringFwdEn = false → exec .rxSync s = .next { s with
      core := { s.core with syncCount := 0, codecOut := some 0xAA } })

/-- The escape round trip (R152). -/
def Obligations.EscapePairsDecode : Prop :=
  ∀ (s : State) (b : Byte), s.core.esc = false →
    (∃ s1 s2, (codecRx 0xFF).run s = .ok none s1 ∧ (codecRx (~~~b)).run s1 = .ok (some b) s2 ∧ s2.core.esc = false) ∧
    (b ≠ 0xAA → b ≠ 0xFF → ∃ s1, (codecRx b).run s = .ok (some b) s1)

/-- The logical bytes do not depend on the synchronization counter or on RING_FWD_EN, which affect only ring events
(R153). -/
def Obligations.LogicalBytesIgnoreSyncState : Prop :=
  ∀ (bs : List Byte) (s s' : State), s.undisturbed = true → s'.undisturbed = true → s.core.esc = s'.core.esc →
    ∃ l t t', (codecRxAll bs).run s = .ok l t ∧ (codecRxAll bs).run s' = .ok l t' ∧ t.core.esc = t'.core.esc ∧
      (∃ k, t.trace = s.trace ++ List.replicate k (.ring 0xAA)) ∧
      (∃ k, t'.trace = s'.trace ++ List.replicate k (.ring 0xAA))

/-- A run of `k` unescaped 0xAA bytes from a cleared codec forwards `k` bytes (R146). -/
def Obligations.SyncRunForwardsEachByte : Prop :=
  ∀ (k : Nat) (s : State), s.core.esc = false → s.core.syncCount = 0 → s.core.ringFwdEn = true → s.env.script = [] →
    ∃ t, (codecRxAll (List.replicate k 0xAA)).run s = .ok (List.replicate k (some 0xAA)) t ∧
      t.trace = s.trace ++ List.replicate k (.ring 0xAA) ∧ t.core.syncCount = 0 ∧ t.core.esc = false ∧ t.env = s.env

/-- TX_PRE, TX_LIT and TX_ESCD write their raw bytes and nothing else; `CodecTx` picks the form (R149, R150). That TX_LIT writes
0xAA and 0xFF as themselves, and TX_ESCD any other byte as an escape pair, where R112 gives the byte the other form, is the
model's choice (log 10). -/
def Obligations.TransmitFormsWrite : Prop :=
  ∀ (s : State) (b : Byte), s.env.script = [] →
    exec .txPre s = .next { s with trace := s.trace ++ [.write 0xAA] } ∧
    exec (.txLit b) s = .next { s with trace := s.trace ++ [.write b] } ∧
    exec (.txEscd b) s = .next { s with trace := s.trace ++ [.write 0xFF, .write (~~~b)] } ∧
    ((b = 0xAA ∨ b = 0xFF) →
      (codecTx b).run s = .ok () { s with trace := s.trace ++ [.write 0xFF, .write (~~~b)] }) ∧
    (b ≠ 0xAA → b ≠ 0xFF → (codecTx b).run s = .ok () { s with trace := s.trace ++ [.write b] })

/-- Transmitting changes no register but the sequencer, and leaves the channel as open as it was, whatever else the
environment does meanwhile (R151, R229 "State written: none"). -/
def Obligations.TransmitLeavesRegisters : Prop :=
  ∀ (s t : State) (i : Instr), (i = .send ∨ i = .txPre ∨ (∃ b, i = .txLit b) ∨ (∃ b, i = .txEscd b)) →
    s.undisturbed = true → exec i s = .next t →
    t.core = { s.core with seq := t.core.seq } ∧ t.env.openAt = s.env.openAt ∧ t.params = s.params ∧
      s.env.fifo.length ≤ t.env.fifo.length

/-! ## The Frame Assembler -/

/-- The positions PRE, NODE, CMD and FID (R172 to R175); a framing error ends the assembly loop with PENDING. -/
def Obligations.HeaderPositions : Prop :=
  ∀ (p : Params) (b : Byte) (c : Regs),
    (c.faPos = 0 → b ≠ 0xAA → faAccept p b c = (.framing, c)) ∧
    (c.faPos = 0 → b = 0xAA → faAccept p b c = (.cont, { c with work := { c.work with preamble := 0xAA }, faPos := 1 })) ∧
    (c.faPos = 1 → faAccept p b c = (.cont, { c with work := { c.work with nodeID := b }, faPos := 2 })) ∧
    (c.faPos = 2 → faAccept p b c = (.cont, { c with work := { c.work with command := b }, faPos := 3 })) ∧
    (c.faPos = 3 → faAccept p b c = (.cont, { c with work := { c.work with frameID := b }, faPos := 4 })) ∧
    (∀ (s : State) (k : Proc Code), s.core.faPos = 0 → b ≠ 0xAA → (assembleByte b k).run s = .ok .pending s)

/-- The position LEN (R176): a length below 6 or past the payload capacity drops the frame, and the assembly loop ends with
PENDING. -/
def Obligations.LengthPosition : Prop :=
  ∀ (p : Params) (b : Byte) (c : Regs), c.faPos = 4 →
    ((b.toNat < 6 ∨ p.payloadCap.val < b.toNat - 6) →
      faAccept p b c = (.lenErr, { c with work := Frame.empty, faPos := 0 })) ∧
    (6 ≤ b.toNat → b.toNat - 6 ≤ p.payloadCap.val →
      faAccept p b c = (.cont, { c with work := { c.work with totalLength := b }, faPos := 5 })) ∧
    (∀ (s : State) (k : Proc Code), s.core = c → s.params = p → (b.toNat < 6 ∨ p.payloadCap.val < b.toNat - 6) →
      (assembleByte b k).run s = .ok .pending { s with core := { c with work := Frame.empty, faPos := 0 } })

/-- The payload positions of BODY (R177): exactly the entry `fa.pos - 5` is stored to, and it is below `PAYLOAD_CAP` for every
length that R176 accepts. -/
def Obligations.PayloadPositions : Prop :=
  ∀ (p : Params) (b : Byte) (c : Regs), 5 ≤ c.faPos.toNat → c.faPos.toNat < c.work.totalLength.toNat - 1 →
    ∃ pay, faAccept p b c = (.cont, { c with work := { c.work with payload := pay }, faPos := c.faPos + 1 }) ∧
      (c.faPos + 1).toNat = c.faPos.toNat + 1 ∧
      (∀ j, pay.get j = if j = c.faPos.toNat - 5 then b else c.work.payload.get j) ∧
      (c.work.totalLength.toNat - 6 ≤ p.payloadCap.val → c.faPos.toNat - 5 < p.payloadCap.val)

/-- The checksum position of BODY and the completion (R178, R180): a frame whose checksum agrees becomes the RX frame in full,
any other leaves the RX frame as it was; in both cases a new frame begins. The assembly loop then ends, with FRAME_READY for the
one and CHECKSUM_FAIL for the other (R181). -/
def Obligations.ChecksumPositionCompletes : Prop :=
  ∀ (p : Params) (b : Byte) (c : Regs), 5 ≤ c.faPos.toNat → c.faPos.toNat = c.work.totalLength.toNat - 1 →
    (csum ([c.work.preamble, c.work.nodeID, c.work.command, c.work.frameID, c.work.totalLength] ++
        c.work.payload.toList.take (c.work.totalLength.toNat - 6)) = b →
      faAccept p b c = (.doneOk, { c with rx := { c.work with checksum := b }, work := Frame.empty, faPos := 0 })) ∧
    (csum ([c.work.preamble, c.work.nodeID, c.work.command, c.work.frameID, c.work.totalLength] ++
        c.work.payload.toList.take (c.work.totalLength.toNat - 6)) ≠ b →
      faAccept p b c = (.doneBad, { c with work := Frame.empty, faPos := 0 })) ∧
    (∀ (s : State) (k : Proc Code), s.core = c → s.params = p →
      (csum ([c.work.preamble, c.work.nodeID, c.work.command, c.work.frameID, c.work.totalLength] ++
          c.work.payload.toList.take (c.work.totalLength.toNat - 6)) = b →
        (assembleByte b k).run s = .ok .frameReady
          { s with core := { c with rx := { c.work with checksum := b }, work := Frame.empty, faPos := 0 } }) ∧
      (csum ([c.work.preamble, c.work.nodeID, c.work.command, c.work.frameID, c.work.totalLength] ++
          c.work.payload.toList.take (c.work.totalLength.toNat - 6)) ≠ b →
        (assembleByte b k).run s = .ok .checksumFail { s with core := { c with work := Frame.empty, faPos := 0 } }))

/-- A framing error, a length error or a checksum mismatch discards at most the frame in progress, and assembly resumes at
position 0 (R184). -/
def Obligations.ReceiveErrorsKeepSession : Prop :=
  ∀ (p : Params) (b : Byte) (c : Regs),
    ((faAccept p b c).1 = .framing ∨ (faAccept p b c).1 = .lenErr ∨ (faAccept p b c).1 = .doneBad) →
    (faAccept p b c).2 = { c with work := (faAccept p b c).2.work, faPos := 0 }

/-! ## BEGIN -/

/-- BEGIN_BAUD on a present channel opens it at the operand and brings the session up (R221, R222). -/
def Obligations.BeginBaudOpens : Prop :=
  ∀ (s : State) (b : Word), s.env.script = [] → s.core.fatal = false → s.env.present = true →
    exec (.beginBaud b) s = .next { s with
      core := s.core.begun b s.env.now, env := { s.env with openAt := some b, fifo := [] },
      trace := s.trace ++ [.closed, .opened b, .resp 0x00 0] }

/-- BEGIN_BAUD discards the bytes that arrive between the open and the discard, with one read each (R206, R221). That the fourth
turn of the environment falls there is the model's choice (log 1). -/
def Obligations.BeginBaudDiscardsArrivals : Prop :=
  ∀ (s : State) (b : Word) (bs : List Byte), s.env.script = [[], [], [], arrivals bs] → s.core.fatal = false →
    s.env.present = true → bs.length ≤ s.params.fifoDepth.toNat →
    exec (.beginBaud b) s = .next { s with
      core := s.core.begun b s.env.now, env := { s.env with openAt := some b, fifo := [], script := [] },
      trace := s.trace ++ [.closed, .opened b] ++ bs.map .read ++ [.resp 0x00 0] }

/-- The checks of the begin procedure, in their order, and what each leaves (R222, R284): the fatal latch and an empty
candidate list change nothing, a missing channel sets the latch. -/
def Obligations.BeginChecks : Prop :=
  ∀ s : State, s.env.script = [] →
    (s.core.fatal = true → ∀ i, (i = .beginAuto ∨ ∃ b, i = .beginBaud b) →
      exec i s = .next { s with core := { s.core with seq := .idle }, trace := s.trace ++ [.resp 0x07 0] }) ∧
    (s.core.fatal = false → s.env.present = false → ∀ i, (i = .beginAuto ∨ ∃ b, i = .beginBaud b) →
      exec i s = .next { s with
        core := { s.core with seq := .idle, fatal := true, ready := false }, trace := s.trace ++ [.resp 0x07 0] }) ∧
    (s.core.fatal = false → s.env.present = true → s.core.baudCount = 0 →
      exec .beginAuto s = .next { s with core := { s.core with seq := .idle }, trace := s.trace ++ [.resp 0x08 0] })

/-- BEGIN_AUTO whose first candidate carries the sync pattern: that rate is adopted, and the bytes past the pattern stay
buffered (R202, R220, R315). That the fifth turn and later ones fall into the hold is the model's choice (log 1). -/
def Obligations.BeginAutoAdoptsFirstCandidate : Prop :=
  ∀ (s : State) (n : Nat) (extra : List Byte), 4 ≤ n →
    s.env.script = List.replicate n [] ++ [arrivals (List.replicate s.params.syncN 0xAA ++ extra)] → s.core.fatal = false →
    s.env.present = true → s.core.baudCount ≠ 0 → 0 < s.params.syncN →
    s.params.syncN + extra.length ≤ s.params.fifoDepth.toNat →
    exec .beginAuto s = .next { s with
      core := { s.core.begun (s.core.baudList[0]) s.env.now with baudIndex := 0, adAttempts := 1 },
      env := { s.env with openAt := some (s.core.baudList[0]), fifo := extra, script := [] },
      trace := s.trace ++ [.closed, .opened (s.core.baudList[0])] ++
        (List.replicate s.params.syncN 0xAA).map .read ++ [.resp 0x00 0] }

/-- BEGIN_AUTO on a silent line closes, opens at candidate 0 and holds at HOLD_AD (R201, R203, R310). -/
def Obligations.BeginAutoHoldsForSync : Prop :=
  ∀ s : State, s.env.script = [] → s.core.fatal = false → s.env.present = true → s.core.baudCount ≠ 0 →
    0 < s.params.syncN →
    exec .beginAuto s = .next { s with
      core := { s.core with
        seq := .held .beginAuto (.autodetect 0), ready := false, chOpen := true, baudIndex := 0, adAttempts := 1 },
      env := { s.env with openAt := some (s.core.baudList[0]), fifo := [] },
      trace := s.trace ++ [.closed, .opened (s.core.baudList[0])] }

/-! ## The Baud Autodetector -/

/-- At HOLD_AD, `SYNC_N` bytes of 0xAA are accepted: the begin completes, the rest stays buffered (R202, R222, R225,
R315). With `AD_MAX_ATTEMPTS` 0 and no hardware reset, nothing else ends an autodetect (R208): a step that ends it has just read
`SYNC_N` bytes of 0xAA, whatever the environment did. -/
def Obligations.AutodetectAccepts : Prop :=
  (∀ (s : State) (i : Instr) (idx : BitVec 3) (rest : List Byte), s.core.seq = .held i (.autodetect idx) →
    s.quiet → s.env.openAt.isSome = true → s.core.chOpen = true →
    s.env.fifo = List.replicate s.params.syncN 0xAA ++ rest →
    step s = .next { s with
      core := s.core.begun (baudAt s.core idx) s.env.now, env := { s.env with fifo := rest },
      trace := s.trace ++ (List.replicate s.params.syncN 0xAA).map .read ++
        [.resp (if i = .poll then 0x05 else 0x00) 0] }) ∧
  (∀ (s t : State) (i : Instr) (idx : BitVec 3),
    (s.core.seq = .held i (.autodetect idx) ∨ s.core.seq = .held i (.attempt idx)) → s.core.adMaxAttempts = 0 →
    s.refill.undisturbed = true → step s = .next t →
    (∃ idx', t.core.seq = .held i (.autodetect idx') ∨ t.core.seq = .held i (.attempt idx')) ∨
      ∃ l, t.trace = s.trace ++ l ++ (List.replicate s.params.syncN 0xAA).map .read ++
        [.resp (if i = .poll then 0x05 else 0x00) 0])

/-- At HOLD_AD, `SYNC_N` bytes that are not all 0xAA are all read, and the next candidate is tried, around the list (R203,
R204, R205). With `AD_MAX_ATTEMPTS` 0 and an environment that sends such bytes again and again, the core goes around the
candidates without end (R208, vector AD3): after `k` steps it has made `k` more attempts, the count wrapping, and holds in the
attempt at the candidate `k` places on, with no response. That a step makes one attempt there is the model's choice (log 24). -/
def Obligations.AutodetectTriesNextCandidate : Prop :=
  (∀ (s : State) (i : Instr) (idx nxt : BitVec 3) (bs rest : List Byte), s.core.seq = .held i (.autodetect idx) →
    s.quiet → s.env.openAt.isSome = true → s.env.fifo = bs ++ rest → bs.length = s.params.syncN →
    (∃ b ∈ bs, b ≠ 0xAA) → (s.core.adMaxAttempts = 0 ∨ s.core.adAttempts ≠ s.core.adMaxAttempts) →
    0 < s.core.baudCount.toNat → s.core.baudCount.toNat ≤ 8 →
    nxt.toNat = (idx.toNat + 1) % s.core.baudCount.toNat →
    step s = .next { s with
      core := { s.core with
        seq := .held i (.autodetect nxt), chOpen := true, baudIndex := nxt, adAttempts := s.core.adAttempts + 1 },
      env := { s.env with openAt := some (baudAt s.core nxt), fifo := [] },
      trace := s.trace ++ bs.map .read ++ [.closed, .opened (baudAt s.core nxt)] }) ∧
  (∀ (s : State) (i : Instr) (bs : List Byte) (k : Nat), s.core.seq = .held i (.autodetect s.core.baudIndex) →
    s.core.chOpen = true → s.env.openAt = some (baudAt s.core s.core.baudIndex) → s.env.fifo = [] → s.env.script = [] →
    s.env.supply = .again [arrivals bs] → bs.length = s.params.syncN → bs.length ≤ s.params.fifoDepth.toNat →
    (∃ b ∈ bs, b ≠ 0xAA) → s.core.adMaxAttempts = 0 → s.core.baudIndex.toNat < s.core.baudCount.toNat →
    s.core.baudCount.toNat ≤ 8 →
    Host.Core.run Sys2Proof.core k s = .next { s with
      core := { s.core with
        seq := .held i (.autodetect (s.core.candidate k)), baudIndex := s.core.candidate k,
        adAttempts := s.core.adAttempts + BitVec.ofNat 32 k },
      env := { s.env with openAt := some (baudAt s.core (s.core.candidate k)) },
      trace := s.trace ++ (List.range k).flatMap fun j =>
        bs.map .read ++ [.closed, .opened (baudAt s.core (s.core.candidate (j + 1)))] })

/-- At HOLD_AD with the attempt bound reached, a mismatch ends the autodetect: the channel is closed, BEGIN_AUTO responds
AUTODETECT_EXHAUSTED, and a POLL responds BUS_DOWN (R204, R225, R279). -/
def Obligations.AutodetectGivesUp : Prop :=
  ∀ (s : State) (i : Instr) (idx : BitVec 3) (bs rest : List Byte), s.core.seq = .held i (.autodetect idx) →
    s.quiet → s.env.openAt.isSome = true → s.env.fifo = bs ++ rest → bs.length = s.params.syncN →
    (∃ b ∈ bs, b ≠ 0xAA) → s.core.adMaxAttempts ≠ 0 → s.core.adAttempts = s.core.adMaxAttempts →
    step s = .next { s with
      core := { s.core with seq := .idle, chOpen := false }, env := { s.env with openAt := none, fifo := [] },
      trace := s.trace ++ bs.map .read ++ [.closed, .resp (if i = .poll then 0x04 else 0x09) 0] }

/-! ## POLL -/

/-- POLL on a session that is not ready responds BUS_DOWN and does nothing else (R224). -/
def Obligations.PollWhenDown : Prop :=
  ∀ s : State, s.env.script = [] → s.core.ready = false →
    exec .poll s = .next { s with core := { s.core with seq := .idle }, trace := s.trace ++ [.resp 0x04 0] }

/-- POLL within the quiet period, with fewer than six bytes buffered, responds NO_ACTIVITY and refreshes nothing; the
elapsed time is computed mod 2^32 (R224, R317, R318). -/
def Obligations.PollWithinQuietPeriod : Prop :=
  ∀ s : State, s.env.script = [] → s.core.ready = true → s.env.avail < 6 →
    (s.env.now.toNat + 2 ^ 32 - s.core.lastAct.toNat) % 2 ^ 32 ≤ s.core.quietTimeout.toNat →
    exec .poll s = .next { s with core := { s.core with seq := .idle }, trace := s.trace ++ [.resp 0x06 0] }

/-- POLL past the quiet period: with auto-restart disabled, or with a restart that fails, the session goes down and POLL
responds BUS_DOWN (R225, R279). -/
def Obligations.PollGoesDown : Prop :=
  ∀ s : State, s.env.script = [] → s.core.ready = true → s.core.fatal = false → s.env.avail < 6 →
    s.core.quietTimeout.toNat < (s.env.now.toNat + 2 ^ 32 - s.core.lastAct.toNat) % 2 ^ 32 →
    ((s.core.autoRestartDisabled = true ∨ (s.env.present = true ∧ s.core.baudCount = 0)) →
      exec .poll s = .next { s with
        core := { s.core with seq := .idle, ready := false, chOpen := false },
        env := { s.env with openAt := none, fifo := [] }, trace := s.trace ++ [.closed, .resp 0x04 0] }) ∧
    (s.core.autoRestartDisabled = false → s.env.present = false →
      exec .poll s = .next { s with
        core := { s.core with seq := .idle, ready := false, chOpen := false, fatal := true },
        env := { s.env with openAt := none, fifo := [] }, trace := s.trace ++ [.closed, .resp 0x04 0] })

/-- POLL past the quiet period with a restart that succeeds at the first candidate responds BUS_RESET, and the session is
ready (R225, R226 (a)). That the eighth turn and later ones fall into the hold is the model's choice (log 1). -/
def Obligations.PollRestarts : Prop :=
  ∀ (s : State) (n : Nat), 7 ≤ n → s.env.script = List.replicate n [] ++ [arrivals (List.replicate s.params.syncN 0xAA)] →
    s.core.ready = true → s.core.fatal = false → s.env.avail < 6 →
    s.core.quietTimeout.toNat < (s.env.now.toNat + 2 ^ 32 - s.core.lastAct.toNat) % 2 ^ 32 →
    s.core.autoRestartDisabled = false → s.env.present = true → s.core.baudCount ≠ 0 → 0 < s.params.syncN →
    s.params.syncN ≤ s.params.fifoDepth.toNat →
    exec .poll s = .next { s with
      core := { s.core.begun (s.core.baudList[0]) s.env.now with baudIndex := 0, adAttempts := 1 },
      env := { s.env with openAt := some (s.core.baudList[0]), fifo := [], script := [] },
      trace := s.trace ++ [.closed, .closed, .opened (s.core.baudList[0])] ++
        (List.replicate s.params.syncN 0xAA).map .read ++ [.resp 0x05 0] }

/-- Traffic wins over the timeout (R274): a POLL with at least six bytes buffered refreshes LAST_ACT, however long the bus
was quiet, and leaves the session and the channel up. -/
def Obligations.PollTrafficWins : Prop :=
  ∀ s t : State, s.env.script = [] → s.core.ready = true → 6 ≤ s.env.avail → exec .poll s = .next t →
    t.core.lastAct = s.env.now ∧ t.core.ready = true ∧ t.core.chOpen = s.core.chOpen ∧
      t.env.openAt = s.env.openAt ∧ ∃ n, t.env.fifo = s.env.fifo.drop n ∧ 0 < n

/-- Wherever POLL assembles, the bytes SEND emits for a frame are received as that frame (R183). -/
def Obligations.SentFrameIsReceived : Prop :=
  ∀ (s : State) (f : TxFrame), s.env.script = [] → s.core.ready = true → s.core.esc = false → s.core.faPos = 0 →
    s.core.work = Frame.empty → s.env.openAt.isSome = true → s.env.fifo = rawFrame f → 6 ≤ f.totalLength.toNat →
    f.totalLength.toNat - 6 ≤ s.params.payloadCap.val →
    ∃ t, exec .poll s = .next t ∧ t.trace.getLast? = some (.resp 0x01 0) ∧ t.env.fifo = [] ∧ Frame.carries f t.core.rx ∧
      t.core.seq = .idle ∧ t.core.faPos = 0 ∧ t.core.work = Frame.empty ∧ t.core.esc = false ∧ t.core.ready = true

/-! ## RESET, SET_NO_RESTART, SEND -/

/-- RESET closes the channel, marks the session not ready, responds OK, and changes nothing else; it is idempotent in state
(R227, R87). -/
def Obligations.ResetClosesChannel : Prop :=
  ∀ s : State, s.env.script = [] →
    exec .reset s = .next { s with
      core := { s.core with seq := .idle, ready := false, chOpen := false },
      env := { s.env with openAt := none, fifo := [] }, trace := s.trace ++ [.closed, .resp 0x00 0] } ∧
    ∀ t u, exec .reset s = .next t → exec .reset t = .next u → u.core = t.core ∧ u.env = t.env

/-- SET_NO_RESTART writes CONFIG.AUTO_RESTART_DISABLED and nothing else (R228). -/
def Obligations.SetNoRestartWritesFlag : Prop :=
  ∀ (s : State) (flag : Bool), s.env.script = [] →
    exec (.setNoRestart flag) s = .next { s with
      core := { s.core with seq := .idle, autoRestartDisabled := flag }, trace := s.trace ++ [.resp 0x00 0] }

/-- SEND (R229): BUS_DOWN and LENGTH_ERROR write nothing. Otherwise the frame's raw bytes are written in order, then the flush;
SEND holds at HOLD_FL, and responds OK once the channel reports the flush done. -/
def Obligations.SendTransmitsFrame : Prop :=
  ∀ s : State, s.env.script = [] →
    (s.core.ready = false →
      exec .send s = .next { s with core := { s.core with seq := .idle }, trace := s.trace ++ [.resp 0x04 0] }) ∧
    (s.core.ready = true →
      (s.core.tx.totalLength.toNat < 6 ∨ s.params.payloadCap.val < s.core.tx.totalLength.toNat - 6) →
      exec .send s = .next { s with core := { s.core with seq := .idle }, trace := s.trace ++ [.resp 0x0A 0] }) ∧
    (s.core.ready = true → 6 ≤ s.core.tx.totalLength.toNat →
      s.core.tx.totalLength.toNat - 6 ≤ s.params.payloadCap.val →
      ∃ t, exec .send s = .next t ∧ t = { s with
          core := { s.core with seq := .held .send .flush }, env := { s.env with flushPending := true },
          trace := s.trace ++ (rawFrame s.core.tx).map .write ++ [.flush] } ∧
        step { t with env := { t.env with script := [[.flushDone]] } } = .next { t with
          core := { t.core with seq := .idle }, env := { t.env with flushPending := false, script := [] },
          trace := t.trace ++ [.resp 0x00 0] })

/-- SEND in one step, when the channel reports the flush done while it waits (R15, R229). That the turns before the last fall
before the flush request, or into the hold, is the model's choice (log 1). -/
def Obligations.SendCompletes : Prop :=
  ∀ (s : State) (n : Nat), s.core.ready = true → 6 ≤ s.core.tx.totalLength.toNat →
    s.core.tx.totalLength.toNat - 6 ≤ s.params.payloadCap.val → (rawFrame s.core.tx).length < n →
    s.env.script = List.replicate n [] ++ [[.flushDone]] →
    exec .send s = .next { s with
      core := { s.core with seq := .idle }, env := { s.env with flushPending := false, script := [] },
      trace := s.trace ++ (rawFrame s.core.tx).map .write ++ [.flush, .resp 0x00 0] }

/-- The raw length of a frame is its logical length and one more for each escaped byte, at most 509 (R113). -/
def Obligations.RawFrameLength : Prop :=
  ∀ f : TxFrame, 6 ≤ f.totalLength.toNat →
    (rawFrame f).length = f.totalLength.toNat + (txBody f).countP (fun b => b == 0xAA || b == 0xFF) ∧
      (rawFrame f).length ≤ 509

/-! ## Register access -/

/-- CSR_READ responds with the register's value, or BAD_CSR at an unmapped address, and changes nothing (R230). -/
def Obligations.CsrReadAnswers : Prop :=
  ∀ (s : State) (a : CsrAddr), s.env.script = [] →
    (csrAt s.params a = none →
      exec (.csrRead a) s = .next { s with core := { s.core with seq := .idle }, trace := s.trace ++ [.resp 0x0C 0] }) ∧
    (∀ r, csrAt s.params a = some r →
      exec (.csrRead a) s = .next { s with
        core := { s.core with seq := .idle }, trace := s.trace ++ [.resp 0x00 (csrValue s.core r)] })

/-- The mapped addresses (R55) and the unmapped ones, where an access responds BAD_CSR and changes no state (R56). -/
def Obligations.CsrMapIsExact : Prop :=
  ∀ (p : Params) (a : CsrAddr),
    (csrAt p a = none → ∀ (s : State) (v : Word), s.params = p → s.env.script = [] → ∀ i ∈ [Instr.csrRead a, .csrWrite a v],
      exec i s = .next { s with core := { s.core with seq := .idle }, trace := s.trace ++ [.resp 0x0C 0] }) ∧
    (csrAt p a = none ↔ (0x0008 ≤ a.toNat ∧ a.toNat ≤ 0x000F) ∨ (0x0018 ≤ a.toNat ∧ a.toNat ≤ 0x001F) ∨
      (0x0022 ≤ a.toNat ∧ a.toNat ≤ 0x002F) ∨ (0x0032 ≤ a.toNat ∧ a.toNat ≤ 0x00FF) ∨
      (0x0100 + p.payloadCap.val ≤ a.toNat ∧ a.toNat ≤ 0x01FF) ∨ (0x0200 + p.payloadCap.val ≤ a.toNat ∧ a.toNat ≤ 0x02FF) ∨
      0x0300 ≤ a.toNat) ∧
    csrAt p 0x0000 = some .status ∧ csrAt p 0x0001 = some .config ∧ csrAt p 0x0002 = some .quietTimeout ∧
    csrAt p 0x0003 = some .curBaud ∧ csrAt p 0x0004 = some .lastAct ∧ csrAt p 0x0005 = some .baudCount ∧
    csrAt p 0x0006 = some .baudIndex ∧ csrAt p 0x0007 = some .adMaxAttempts ∧ csrAt p 0x0020 = some .rxHdr ∧
    csrAt p 0x0021 = some .rxTail ∧ csrAt p 0x0030 = some .txHdr ∧ csrAt p 0x0031 = some .txTail ∧
    (∀ i : BitVec 3, a.toNat = 0x0010 + i.toNat → csrAt p a = some (.baudList i)) ∧
    (∀ i, i < p.payloadCap.val → a.toNat = 0x0100 + i → csrAt p a = some (.rxPay i)) ∧
    (∀ i, i < p.payloadCap.val → a.toNat = 0x0200 + i → csrAt p a = some (.txPay i))

/-- What every register reads as, field by field: STATUS (R41), CONFIG (R42), the 32-bit registers (R43 to R45, R48, R49),
BAUD_COUNT (R46), BAUD_INDEX (R47), and the frame registers (R50 to R54). -/
def Obligations.RegisterLayouts : Prop :=
  ∀ c : Regs,
    ((csrValue c .status).getLsbD 0 = c.ready ∧ (csrValue c .status).getLsbD 1 = c.fatal ∧
      (csrValue c .status).getLsbD 2 = c.chOpen ∧ (csrValue c .status).getLsbD 3 = c.esc ∧
      (csrValue c .status).extractLsb' 4 4 = 0 ∧ (csrValue c .status).extractLsb' 8 8 = c.faPos ∧
      (csrValue c .status).extractLsb' 16 8 = c.syncCount ∧ (csrValue c .status).extractLsb' 24 8 = 0) ∧
    ((csrValue c .config).getLsbD 0 = c.mode ∧ (csrValue c .config).getLsbD 1 = c.autoRestartDisabled ∧
      (csrValue c .config).getLsbD 2 = c.ringFwdEn ∧ (csrValue c .config).extractLsb' 3 29 = 0) ∧
    ((csrValue c .rxHdr).extractLsb' 0 8 = c.rx.preamble ∧ (csrValue c .rxHdr).extractLsb' 8 8 = c.rx.nodeID ∧
      (csrValue c .rxHdr).extractLsb' 16 8 = c.rx.command ∧ (csrValue c .rxHdr).extractLsb' 24 8 = c.rx.frameID) ∧
    ((csrValue c .rxTail).extractLsb' 0 8 = c.rx.totalLength ∧ (csrValue c .rxTail).extractLsb' 8 8 = c.rx.checksum ∧
      (csrValue c .rxTail).extractLsb' 16 16 = 0) ∧
    ((csrValue c .txHdr).extractLsb' 0 8 = 0xAA ∧ (csrValue c .txHdr).extractLsb' 8 8 = c.tx.nodeID ∧
      (csrValue c .txHdr).extractLsb' 16 8 = c.tx.command ∧ (csrValue c .txHdr).extractLsb' 24 8 = c.tx.frameID) ∧
    ((csrValue c .txTail).extractLsb' 0 8 = c.tx.totalLength ∧ (csrValue c .txTail).extractLsb' 8 24 = 0) ∧
    (csrValue c .quietTimeout = c.quietTimeout ∧ csrValue c .curBaud = c.curBaud ∧ csrValue c .lastAct = c.lastAct ∧
      csrValue c .adMaxAttempts = c.adMaxAttempts ∧ ∀ i : BitVec 3, csrValue c (.baudList i) = c.baudList[i.toNat]) ∧
    ((csrValue c .baudCount).extractLsb' 0 4 = c.baudCount ∧ (csrValue c .baudCount).extractLsb' 4 28 = 0) ∧
    ((csrValue c .baudIndex).extractLsb' 0 3 = c.baudIndex ∧ (csrValue c .baudIndex).extractLsb' 3 29 = 0) ∧
    (∀ i, (csrValue c (.rxPay i)).extractLsb' 0 8 = c.rx.payload.get i ∧ (csrValue c (.rxPay i)).extractLsb' 8 24 = 0) ∧
    (∀ i, (csrValue c (.txPay i)).extractLsb' 0 8 = c.tx.payload.get i ∧ (csrValue c (.txPay i)).extractLsb' 8 24 = 0)

/-- CSR_WRITE (R231): refused with BAD_CSR and no change at an unmapped address, at a read-only register, and for an illegal
BAUD_COUNT. Otherwise it responds OK; the register then reads as the written bits that it stores, every other mapped
register reads as before, and the state no register shows is as before: the sequencer idle, the work frame, the attempt count,
the model's field for the emitted byte (log 9), and the entries of the TX payload that have no address (log 13). -/
def Obligations.CsrWriteStores : Prop :=
  ∀ (s : State) (a : CsrAddr) (v : Word), s.env.script = [] →
    ((csrAt s.params a = none ∨ ∃ r, csrAt s.params a = some r ∧ (r.writable = none ∨ r.illegalValue v = true)) →
      exec (.csrWrite a v) s = .next { s with core := { s.core with seq := .idle }, trace := s.trace ++ [.resp 0x0C 0] }) ∧
    (∀ r m o, csrAt s.params a = some r → r.writable = some (m, o) → r.illegalValue v = false →
      ∃ c, exec (.csrWrite a v) s = .next { s with core := c, trace := s.trace ++ [.resp 0x00 0] } ∧
        csrValue c r = (v &&& m) ||| o ∧
        (∀ a' r', a' ≠ a → csrAt s.params a' = some r' → csrValue c r' = csrValue s.core r') ∧
        c.seq = .idle ∧ c.work = s.core.work ∧ c.adAttempts = s.core.adAttempts ∧ c.codecOut = s.core.codecOut ∧
        c.rx = s.core.rx ∧ ∀ j, s.params.payloadCap.val ≤ j → c.tx.payload.get j = s.core.tx.payload.get j)

/-- The commands of TXFRAME (R115) leave the TX frame it names in TX_HDR, TX_TAIL and TX_PAY, respond OK each, and change
nothing else. -/
def Obligations.TxFrameCommandsLoadFrame : Prop :=
  ∀ (s : State) (n c f : Byte) (payload : List Byte), payload.length ≤ 249 → payload.length ≤ s.params.payloadCap.val →
    s.env.script = [] → ∃ t, execAll (Pseudo.txFrame n c f payload).expand s = .next t ∧
      t.core = { s.core with
        seq := .idle
        tx := { nodeID := n, command := c, frameID := f, totalLength := BitVec.ofNat 8 (payload.length + 6),
                payload := t.core.tx.payload } } ∧
      (∀ i, t.core.tx.payload.get i = payload[i]?.getD (s.core.tx.payload.get i)) ∧
      t.trace = s.trace ++ List.replicate (payload.length + 2) (.resp 0x00 0) ∧ t.env = s.env ∧ t.params = s.params

/-- Every state element's value after reset (R62, R55). -/
def Obligations.ResetRegisterValues : Prop :=
  State.reset.core = Regs.reset ∧ Regs.reset.seq = .idle ∧ Regs.reset.ready = false ∧ Regs.reset.fatal = false ∧
  Regs.reset.chOpen = false ∧ Regs.reset.esc = false ∧ Regs.reset.syncCount = 0 ∧ Regs.reset.faPos = 0 ∧
  Regs.reset.work = ⟨0, 0, 0, 0, 0, Vector.replicate 256 0, 0⟩ ∧ Regs.reset.adAttempts = 0 ∧
  csrValue Regs.reset .status = 0x00000000 ∧ csrValue Regs.reset .config = 0x00000004 ∧
  csrValue Regs.reset .quietTimeout = 0x0000C350 ∧ csrValue Regs.reset .curBaud = 0x00000000 ∧
  csrValue Regs.reset .lastAct = 0x00000000 ∧ csrValue Regs.reset .baudCount = 0x00000000 ∧
  csrValue Regs.reset .baudIndex = 0x00000000 ∧ csrValue Regs.reset .adMaxAttempts = 0x00000000 ∧
  (∀ i, csrValue Regs.reset (.baudList i) = 0x00000000) ∧ csrValue Regs.reset .rxHdr = 0x00000000 ∧
  csrValue Regs.reset .rxTail = 0x00000000 ∧ csrValue Regs.reset .txHdr = 0x000000AA ∧
  csrValue Regs.reset .txTail = 0x00000000 ∧ (∀ i, csrValue Regs.reset (.rxPay i) = 0x00000000) ∧
  (∀ i, csrValue Regs.reset (.txPay i) = 0x00000000)

/-! ## Hardware reset and holds -/

/-- A hardware reset aborts whatever runs (R300, R301): an idle core, a held command, a command at its start, or one partway
through. Every register is at its reset value; the reset itself adds no event, and there is no response. -/
def Obligations.HardwareResetAbortsHold : Prop :=
  (∀ (s : State) (turn : List EnvMove) (rest : List (List EnvMove)), s.refill.env.script = turn :: rest →
    turn.any EnvMove.isReset = true → (∀ i, s.core.seq = .busy i → i.isCommand = true) →
    ∃ t, step s = .next t ∧ t.core = Regs.reset ∧ t.trace = s.trace ∧ t.params = s.params ∧ t.env.script = rest) ∧
  (∀ (i : Instr) (s : State) (turn : List EnvMove) (rest : List (List EnvMove)), i.isCommand = true →
    s.env.script = turn :: rest → turn.any EnvMove.isReset = true →
    ∃ t, exec i s = .next t ∧ t.core = Regs.reset ∧ t.trace = s.trace ∧ t.params = s.params ∧ t.env.script = rest) ∧
  (∀ (s t : State) (earlier rest : List (List EnvMove)) (turn : List EnvMove),
    s.env.script = earlier ++ turn :: rest → turn.any EnvMove.isReset = true →
    (∀ e ∈ earlier, e.any EnvMove.isReset = false) → t.env.script.length ≤ rest.length →
    (step s = .next t ∨ ∃ i, exec i s = .next t) →
    t.core = Regs.reset ∧ t.responses = s.responses ∧ t.env.script = rest ∧ t.params = s.params)

/-- A hold is lifted only by the environment: while it takes no turn, a held command never responds, for any number of steps
(R208, R310, R311). -/
def Obligations.HoldsNeedTheEnvironment : Prop :=
  ∀ (s : State) (i : Instr) (h : Hold) (k : Nat), s.core.seq = .held i h → s.quiet →
    ((h = .nextByte ∧ s.env.avail = 0) ∨ (∃ idx, h = .autodetect idx ∧ s.env.avail < s.params.syncN) ∨
      (h = .flush ∧ s.env.flushPending = true)) →
    Host.Core.run Sys2Proof.core k s = .next s

/-- The holds, and the commands each is reachable from (R310): where a command stands after its first step, and where it
stands when it went on from a hold. -/
def Obligations.HoldsAreThree : Prop :=
  (∀ (i : Instr) (s t : State), i.isCommand = true → exec i s = .next t →
    t.core.seq = .idle ∨ (i = .poll ∧ t.core.seq = .held i .nextByte) ∨
      ((i = .beginAuto ∨ i = .poll) ∧ ∃ idx, t.core.seq = .held i (.autodetect idx)) ∨
      (i = .send ∧ t.core.seq = .held i .flush)) ∧
  (∀ (i : Instr) (h : Hold) (s t : State), s.core.seq = .held i h → step s = .next t →
    t.core.seq = .idle ∨ (h = .nextByte ∧ t.core.seq = .held i .nextByte) ∨
      (((∃ idx, h = .autodetect idx) ∨ ∃ idx, h = .attempt idx) ∧ ∃ idx, t.core.seq = .held i (.autodetect idx)) ∨
      (h = .flush ∧ t.core.seq = .held i .flush))

/-! ## The whole machine -/

/-- The core raises no exception (R283): every instruction, in every state, and every step, answers a next state. -/
def Obligations.EveryStepAnswersNext : Prop :=
  (∀ (i : Instr) (s : State), ∃ t, exec i s = .next t) ∧ (∀ s : State, ∃ t, step s = .next t)

/-- Exactly one response per command that ends, the last entry of its part of the trace, with a code R270 lists for the
command, and RDATA 0 but for CSR_READ; a command that holds has given none, and gives it in the step in which it ends (R57, R234,
R270). While a command runs, a legal one, a held one or an illegal one, no other is taken: the port stays as it is (R57, R322). -/
def Obligations.OneResponsePerCommand : Prop :=
  (∀ (i : Instr) (s t : State), i.isCommand = true →
    ((s.undisturbed = true ∧ exec i s = .next t) ∨
      (s.refill.undisturbed = true ∧ ∃ h, i.mayHold h = true ∧ s.core.seq = .held i h ∧ step s = .next t)) →
    t.env.port = s.env.port ∧
    ((t.core.seq = .idle ∧ t.responses = s.responses + 1 ∧ ∃ code rdata,
        t.trace.getLast? = some (.resp (Code.toByte code) rdata) ∧ code ∈ i.codes ∧
          (rdata = 0 ∨ ∃ a, i = .csrRead a)) ∨
      ((∃ h, i.mayHold h = true ∧ t.core.seq = .held i h) ∧ t.responses = s.responses))) ∧
  (∀ (s t : State) (cmd data : Word) (r : Reject), s.core.seq = .idle → s.env.port = some (cmd, data) →
    decodeCommand cmd data = .error r → s.refill.undisturbed = true → step s = .next t →
    t.env.port = none ∧ t.core = s.core ∧ t.trace = s.trace ++ [.resp 0x0B 0])

/-- The trace is append-only, and the parameters never change (R88, R7). -/
def Obligations.TraceOnlyGrows : Prop :=
  (∀ (i : Instr) (s t : State), exec i s = .next t → (∃ l, t.trace = s.trace ++ l) ∧ t.params = s.params) ∧
  (∀ s t : State, step s = .next t → (∃ l, t.trace = s.trace ++ l) ∧ t.params = s.params)

/-- Only the begin procedure brings a session up (R34): in the first step of a begin command, or where a command goes on inside
the autodetect of its begin. -/
def Obligations.OnlyBeginSetsReady : Prop :=
  ∀ s t : State, s.core.ready = false → t.core.ready = true →
    (∀ i, exec i s = .next t → i = .beginAuto ∨ ∃ b, i = .beginBaud b) ∧
    (∀ i h, s.core.seq = .held i h → step s = .next t → ∃ idx, h = .autodetect idx ∨ h = .attempt idx)

/-- Only a hardware reset clears the fatal latch (R35, R284). -/
def Obligations.FatalLatchHolds : Prop :=
  ∀ s t : State, s.core.fatal = true →
    (∀ i, s.undisturbed = true → exec i s = .next t → t.core.fatal = true) ∧
    (s.refill.undisturbed = true → step s = .next t → t.core.fatal = true)

/-- The configuration and the TX frame change only by CSR_WRITE and SET_NO_RESTART (R42 to R54): by no other instruction, and
by no command that goes on from a hold. -/
def Obligations.ConfigurationIsTheCallers : Prop :=
  ∀ (i : Instr) (s t : State),
    (((∀ f, i ≠ .setNoRestart f) ∧ (∀ a v, i ≠ .csrWrite a v) ∧ s.undisturbed = true ∧ exec i s = .next t) ∨
      (s.refill.undisturbed = true ∧ ∃ h, s.core.seq = .held i h ∧ step s = .next t)) →
    t.core.mode = s.core.mode ∧ t.core.autoRestartDisabled = s.core.autoRestartDisabled ∧
      t.core.ringFwdEn = s.core.ringFwdEn ∧ t.core.quietTimeout = s.core.quietTimeout ∧
      t.core.baudCount = s.core.baudCount ∧ t.core.adMaxAttempts = s.core.adMaxAttempts ∧
      t.core.baudList = s.core.baudList ∧ t.core.tx = s.core.tx

/-- Only a FRAME_READY outcome of POLL writes the RX frame, and only with a checksum-valid frame (R50 to R52, R180, R182 (a),
R313): in its first step, or where it goes on from HOLD_NB. And a POLL answers FRAME_READY for no other frame: with that
response, at once or from a hold, the RX frame is checksum-valid, and a new frame begins (R182 (a), R180). -/
def Obligations.RxFrameOnlyOnFrameReady : Prop :=
  ∀ (i : Instr) (s t : State),
    (s.undisturbed = true → exec i s = .next t → t.core.rx = s.core.rx ∨ (i = .poll ∧ t.trace.getLast? = some (.resp 0x01 0) ∧
      t.core.rx.valid = true ∧ t.core.faPos = 0)) ∧
    (∀ h, s.refill.undisturbed = true → s.core.seq = .held i h → step s = .next t →
      t.core.rx = s.core.rx ∨ (h = .nextByte ∧ t.trace.getLast? = some (.resp 0x01 0) ∧ t.core.rx.valid = true ∧
        t.core.faPos = 0)) ∧
    (((s.undisturbed = true ∧ exec .poll s = .next t) ∨
        (s.refill.undisturbed = true ∧ ∃ h, s.core.seq = .held .poll h ∧ step s = .next t)) →
      t.core.seq = .idle → ∀ rdata, t.trace.getLast? = some (.resp 0x01 rdata) →
      t.core.rx.valid = true ∧ t.core.faPos = 0)

/-- CONFIG.MODE changes nothing in the core but what a read of CONFIG shows (R19, R42): not an instruction, and not a command
that goes on from a hold. -/
def Obligations.ModeIsIgnored : Prop :=
  ∀ (i : Instr) (s t : State) (m : Bool),
    (s.undisturbed = true → (∀ a, i ≠ .csrRead a) → (∀ a v, i ≠ .csrWrite a v) → exec i s = .next t →
      exec i { s with core := { s.core with mode := m } } = .next { t with core := { t.core with mode := m } }) ∧
    (∀ h, s.refill.undisturbed = true → s.core.seq = .held i h → step s = .next t →
      step { s with core := { s.core with mode := m } } = .next { t with core := { t.core with mode := m } })

/-- The invariants hold after reset, at any parameters (R61, R62); the environment in the reset state is the model's choice
(log 6). -/
def Obligations.InvariantsAtReset : Prop := ∀ p : Params, (State.resetAt p).Inv

/-- Every step keeps the invariants of R61, from every state that has them. -/
def Obligations.StepKeepsInvariants : Prop := ∀ s t : State, s.Inv → step s = .next t → t.Inv
end

