-- ==== Sys2Proof/Laws/State.lean ====
section
/-! SUPPORT. The small lemmas of the state's updates: one per field of State per update, so that no proof unfolds a
record update. -/

namespace Sys2Proof.Machine

/-! ## mapCore -/

@[simp] theorem State.mapCore_core (f : Regs → Regs) (s : State) : (s.mapCore f).core = f s.core := rfl
@[simp] theorem State.mapCore_env (f : Regs → Regs) (s : State) : (s.mapCore f).env = s.env := rfl
@[simp] theorem State.mapCore_trace (f : Regs → Regs) (s : State) : (s.mapCore f).trace = s.trace := rfl
@[simp] theorem State.mapCore_params (f : Regs → Regs) (s : State) : (s.mapCore f).params = s.params := rfl

/-! ## mapEnv -/

@[simp] theorem State.mapEnv_core (f : Env → Env) (s : State) : (s.mapEnv f).core = s.core := rfl
@[simp] theorem State.mapEnv_env (f : Env → Env) (s : State) : (s.mapEnv f).env = f s.env := rfl
@[simp] theorem State.mapEnv_trace (f : Env → Env) (s : State) : (s.mapEnv f).trace = s.trace := rfl
@[simp] theorem State.mapEnv_params (f : Env → Env) (s : State) : (s.mapEnv f).params = s.params := rfl

/-! ## emit -/

@[simp] theorem State.emit_core (e : Event) (s : State) : (s.emit e).core = s.core := rfl
@[simp] theorem State.emit_env (e : Event) (s : State) : (s.emit e).env = s.env := rfl
@[simp] theorem State.emit_trace (e : Event) (s : State) : (s.emit e).trace = s.trace ++ [e] := rfl
@[simp] theorem State.emit_params (e : Event) (s : State) : (s.emit e).params = s.params := rfl

/-! ## setSeq -/

@[simp] theorem State.setSeq_core (v : Seq) (s : State) : (s.setSeq v).core = { s.core with seq := v } := rfl
@[simp] theorem State.setSeq_env (v : Seq) (s : State) : (s.setSeq v).env = s.env := rfl
@[simp] theorem State.setSeq_trace (v : Seq) (s : State) : (s.setSeq v).trace = s.trace := rfl
@[simp] theorem State.setSeq_params (v : Seq) (s : State) : (s.setSeq v).params = s.params := rfl

/-! ## respond -/

@[simp] theorem State.respond_core (r : Reply) (s : State) : (s.respond r).core = { s.core with seq := .idle } := rfl
@[simp] theorem State.respond_env (r : Reply) (s : State) : (s.respond r).env = s.env := rfl
@[simp] theorem State.respond_trace (r : Reply) (s : State) :
    (s.respond r).trace = s.trace ++ [.resp r.code.toByte r.rdata] := rfl
@[simp] theorem State.respond_params (r : Reply) (s : State) : (s.respond r).params = s.params := rfl

/-! ## hardwareReset -/

@[simp] theorem State.hardwareReset_core (s : State) : s.hardwareReset.core = Regs.reset := rfl
@[simp] theorem State.hardwareReset_env (s : State) : s.hardwareReset.env = s.env := rfl
@[simp] theorem State.hardwareReset_trace (s : State) : s.hardwareReset.trace = s.trace := rfl
@[simp] theorem State.hardwareReset_params (s : State) : s.hardwareReset.params = s.params := rfl

/-! ## refill -/

@[simp] theorem State.refill_core (s : State) : s.refill.core = s.core := by unfold State.refill; split <;> rfl
@[simp] theorem State.refill_trace (s : State) : s.refill.trace = s.trace := by unfold State.refill; split <;> rfl
@[simp] theorem State.refill_params (s : State) : s.refill.params = s.params := by unfold State.refill; split <;> rfl
@[simp] theorem State.refill_openAt (s : State) : s.refill.env.openAt = s.env.openAt := by unfold State.refill; split <;> rfl
@[simp] theorem State.refill_fifo (s : State) : s.refill.env.fifo = s.env.fifo := by unfold State.refill; split <;> rfl
@[simp] theorem State.refill_port (s : State) : s.refill.env.port = s.env.port := by unfold State.refill; split <;> rfl

/-- While the script has turns left, the supply is not drawn on. -/
theorem State.refill_script {s : State} {turn : List EnvMove} {rest : List (List EnvMove)} (h : s.env.script = turn :: rest) :
    s.refill = s := by
  simp [State.refill, h]

/-- A used-up script is filled from the supply, and nothing else changes. -/
theorem State.refill_used {s : State} (h : s.env.script = []) :
    s.refill = { s with env := { s.env with script := s.env.supply.draw.1, supply := s.env.supply.draw.2 } } := by
  simp [State.refill, h, State.mapEnv]

/-- A quiet environment stays quiet. -/
theorem State.refill_quiet {s : State} (h : s.quiet) : s.refill = s := by
  obtain ⟨c, e, t, p⟩ := s
  obtain ⟨o, f, l, n, pr, pt, sc, su⟩ := e
  obtain ⟨rfl, rfl⟩ := h
  rfl

/-- Everything a refill can do: it changes the script and the supply alone. -/
theorem State.refill_cases (s : State) :
    ∃ sc su, s.refill = { s with env := { s.env with script := sc, supply := su } } := by
  cases h : s.env.script with
  | nil => exact ⟨_, _, State.refill_used h⟩
  | cons turn rest => exact ⟨s.env.script, s.env.supply, State.refill_script h⟩

/-! ## The channel -/

@[simp] theorem State.openChannel_core (b : Word) (s : State) : (s.openChannel b).core = { s.core with chOpen := true } := rfl
@[simp] theorem State.openChannel_env (b : Word) (s : State) : (s.openChannel b).env = { s.env with openAt := some b } := rfl
@[simp] theorem State.openChannel_trace (b : Word) (s : State) : (s.openChannel b).trace = s.trace ++ [.opened b] := rfl
@[simp] theorem State.openChannel_params (b : Word) (s : State) : (s.openChannel b).params = s.params := rfl

@[simp] theorem State.closeChannel_core (s : State) : s.closeChannel.core = { s.core with chOpen := false } := rfl
@[simp] theorem State.closeChannel_env (s : State) : s.closeChannel.env = { s.env with openAt := none, fifo := [] } := rfl
@[simp] theorem State.closeChannel_trace (s : State) : s.closeChannel.trace = s.trace ++ [.closed] := rfl
@[simp] theorem State.closeChannel_params (s : State) : s.closeChannel.params = s.params := rfl

@[simp] theorem State.takeByte_core (b : Byte) (l : List Byte) (s : State) : (s.takeByte b l).core = s.core := rfl
@[simp] theorem State.takeByte_env (b : Byte) (l : List Byte) (s : State) :
    (s.takeByte b l).env = { s.env with fifo := l } := rfl
@[simp] theorem State.takeByte_trace (b : Byte) (l : List Byte) (s : State) :
    (s.takeByte b l).trace = s.trace ++ [.read b] := rfl
@[simp] theorem State.takeByte_params (b : Byte) (l : List Byte) (s : State) : (s.takeByte b l).params = s.params := rfl

@[simp] theorem State.requestFlush_core (s : State) : s.requestFlush.core = s.core := rfl
@[simp] theorem State.requestFlush_env (s : State) : s.requestFlush.env = { s.env with flushPending := true } := rfl
@[simp] theorem State.requestFlush_trace (s : State) : s.requestFlush.trace = s.trace ++ [.flush] := rfl
@[simp] theorem State.requestFlush_params (s : State) : s.requestFlush.params = s.params := rfl

/-! ## Banks (R52, R54) -/

@[simp] theorem Bank.get_zero (i : Nat) : Bank.zero.get i = 0 := by
  simp [Bank.get, Bank.zero, Vector.getElem?_replicate]
  split <;> rfl

/-- What a bank reads as after an entry was stored. -/
theorem Bank.get_put (b : Bank) (i j : Nat) (v : Byte) :
    (b.put i v).get j = if i = j ∧ j < 256 then v else b.get j := by
  unfold Bank.get Bank.put
  rw [Vector.getElem?_setIfInBounds]
  by_cases h : i = j
  · subst h
    by_cases hi : i < 256
    · simp [hi]
    · simp [hi]
  · simp [h]

end Sys2Proof.Machine
end

