-- ==== Sys2Proof/Laws/Ops.lean ====
section
/-! SUPPORT. What each shared operation can do, said once: how procedures compose, what a turn of the environment changes,
and the primitives of R15, both in general and while the environment has no turn to take. -/

namespace Sys2Proof.Machine

/-! ## Procedures -/

section
variable {α β : Type}

theorem Proc.bind_ok {p : Proc α} {f : α → Proc β} {s s' : State} {a : α} (h : p.run s = .ok a s') :
    (p >>= f).run s = (f a).run s' := by
  rw [EStateM.run_bind, h]

theorem Proc.bind_error {p : Proc α} {f : α → Proc β} {s s' : State} {e : Stop} (h : p.run s = .error e s') :
    (p >>= f).run s = .error e s' := by
  rw [EStateM.run_bind, h]

@[simp] theorem Proc.of_run (f : State → EStateM.Result Stop State α) (s : State) : (Proc.of f).run s = f s := rfl
@[simp] theorem theState_run (s : State) : theState.run s = .ok s s := rfl
@[simp] theorem change_run (f : State → State) (s : State) : (change f).run s = .ok () (f s) := rfl
@[simp] theorem regs_run (s : State) : regs.run s = .ok s.core s := rfl
@[simp] theorem params_run (s : State) : params.run s = .ok s.params s := rfl
@[simp] theorem update_run (g : Regs → Regs) (s : State) : (update g).run s = .ok () (s.mapCore g) := rfl
@[simp] theorem haltAt_run (h : Hold) (s : State) :
    (haltAt h : Proc α).run s = .error .halted (s.setSeq (s.core.seq.waiting h)) := rfl

/-- The state a procedure ends in. -/
def Proc.final (r : EStateM.Result Stop State α) : State :=
  match r with
  | .ok _ s => s
  | .error _ s => s

/-- Every run of the procedure relates its first and last states by `R`. -/
def Proc.Relates (R : State → State → Prop) (p : Proc α) : Prop := ∀ s, R s (Proc.final (p.run s))

theorem Proc.relates_pure {R : State → State → Prop} (hr : ∀ s, R s s) (a : α) : Proc.Relates R (pure a : Proc α) := hr

theorem Proc.relates_bind {R : State → State → Prop} (ht : ∀ {s t u}, R s t → R t u → R s u) {p : Proc α}
    {f : α → Proc β} (hp : Proc.Relates R p) (hf : ∀ a, Proc.Relates R (f a)) : Proc.Relates R (p >>= f) := by
  intro s
  have h := hp s
  cases hps : p.run s with
  | ok a s' => rw [Proc.bind_ok hps]; rw [hps] at h; exact ht h (hf a s')
  | error e s' => rw [Proc.bind_error hps]; rw [hps] at h; exact h

end

/-! ## The environment's moves -/

/-- What moves without a hardware reset keep of the environment: the channel stays as open as it was and only gains
bytes, and the moves to come are the same. -/
structure Env.Later (e e' : Env) : Prop where
  openAt : e'.openAt = e.openAt
  fifo : e.fifo.length ≤ e'.fifo.length
  script : e'.script = e.script

theorem Env.Later.refl (e : Env) : Env.Later e e := ⟨rfl, Nat.le_refl _, rfl⟩

theorem Env.Later.trans {e e' e'' : Env} (h : Env.Later e e') (h' : Env.Later e' e'') : Env.Later e e'' :=
  ⟨h'.openAt.trans h.openAt, Nat.le_trans h.fifo h'.fifo, h'.script.trans h.script⟩

theorem Env.receive_later (d : BitVec 16) (b : Byte) (n : Nat) (e : Env) : Env.Later e (e.receive d b n) := by
  unfold Env.receive
  split
  · split
    · exact ⟨rfl, by simp, rfl⟩
    · refine ⟨rfl, ?_, rfl⟩
      have h : min n e.fifo.length < (e.fifo ++ [b]).length := by simp
      simp [List.length_eraseIdx_of_lt h]
  · exact Env.Later.refl e

/-- Every move but a hardware reset acts on the environment alone (R11). -/
theorem applyMove_later (m : EnvMove) (s : State) (h : m.isReset = false) :
    ∃ e, applyMove m s = { s with env := e } ∧ Env.Later s.env e := by
  cases m with
  | arrive b lost => exact ⟨_, rfl, Env.receive_later ..⟩
  | advance n => exact ⟨_, rfl, rfl, Nat.le_refl _, rfl⟩
  | setPresent p => exact ⟨_, rfl, rfl, Nat.le_refl _, rfl⟩
  | flushDone => exact ⟨_, rfl, rfl, Nat.le_refl _, rfl⟩
  | issue cmd data =>
    simp only [applyMove]
    split
    · exact ⟨_, rfl, rfl, Nat.le_refl _, rfl⟩
    · exact ⟨s.env, rfl, Env.Later.refl _⟩
  | hwReset o f => simp [EnvMove.isReset] at h

theorem applyTurn_later (ms : List EnvMove) (s : State) (h : ms.any EnvMove.isReset = false) :
    ∃ e, applyTurn ms s = { s with env := e } ∧ Env.Later s.env e := by
  induction ms generalizing s with
  | nil => exact ⟨s.env, rfl, Env.Later.refl _⟩
  | cons m ms ih =>
    simp only [List.any_cons, Bool.or_eq_false_iff] at h
    obtain ⟨e, he, hl⟩ := applyMove_later m s h.1
    obtain ⟨e', he', hl'⟩ := ih { s with env := e } h.2
    exact ⟨e', by rw [applyTurn, he, he'], hl.trans hl'⟩

/-- After a turn with a hardware reset in it, the registers are at their reset values (R300); the trace and the parameters
are as they were. -/
theorem applyTurn_reset (ms : List EnvMove) (s : State) (h : ms.any EnvMove.isReset = true) :
    ∃ e, applyTurn ms s = { s with core := Regs.reset, env := e } := by
  induction ms generalizing s with
  | nil => simp at h
  | cons m ms ih =>
    by_cases hm : m.isReset = true
    · cases m with
      | hwReset o f =>
        by_cases hr : ms.any EnvMove.isReset = true
        · obtain ⟨e, he⟩ := ih (applyMove (.hwReset o f) s) hr
          exact ⟨e, by rw [applyTurn, he]; rfl⟩
        · obtain ⟨e, he, -⟩ := applyTurn_later ms (applyMove (.hwReset o f) s) (by simpa using hr)
          exact ⟨e, by rw [applyTurn, he]; rfl⟩
      | _ => simp [EnvMove.isReset] at hm
    · obtain ⟨e, he, -⟩ := applyMove_later m s (by simpa using hm)
      have hr : ms.any EnvMove.isReset = true := by simpa [hm] using h
      obtain ⟨e', he'⟩ := ih { s with env := e } hr
      exact ⟨e', by rw [applyTurn, he, he']⟩

/-! ## A turn -/

theorem tick_quiet {s : State} (h : s.env.script = []) : tick.run s = .ok () s := by
  simp [tick, h]

/-- A turn in which the environment does nothing. -/
theorem tick_still {s : State} {rest : List (List EnvMove)} (h : s.env.script = [] :: rest) :
    tick.run s = .ok () (s.mapEnv fun e => { e with script := rest }) := by
  simp [tick, h, applyTurn]

/-- A turn with no hardware reset in it. -/
theorem tick_turn {s : State} {turn : List EnvMove} {rest : List (List EnvMove)} (h : s.env.script = turn :: rest)
    (hr : turn.any EnvMove.isReset = false) :
    tick.run s = .ok () (applyTurn turn (s.mapEnv fun e => { e with script := rest })) := by
  simp only [tick, Proc.of_run, h, hr, Bool.false_eq_true, if_false]

/-- Everything a turn can do: it changes the environment alone, or a hardware reset in it puts the registers at their reset
values and aborts the procedure. -/
theorem tick_cases (s : State) :
    (∃ e, tick.run s = .ok () { s with env := e } ∧ e.openAt = s.env.openAt ∧ s.env.fifo.length ≤ e.fifo.length ∧
      e.script = s.env.script.tail) ∨
    (∃ e, tick.run s = .error .halted { s with core := Regs.reset, env := e } ∧ s.undisturbed = false) := by
  cases hs : s.env.script with
  | nil => exact .inl ⟨s.env, tick_quiet hs, rfl, Nat.le_refl _, by simp [hs]⟩
  | cons turn rest =>
    by_cases hr : turn.any EnvMove.isReset = true
    · right
      obtain ⟨e, he⟩ := applyTurn_reset turn (s.mapEnv fun e => { e with script := rest }) hr
      refine ⟨e, ?_, ?_⟩
      · have ht : tick.run s = .error .halted (applyTurn turn (s.mapEnv fun e => { e with script := rest })) := by
          simp only [tick, Proc.of_run, hs, hr, if_true]
        rw [ht, he]
        rfl
      · obtain ⟨m, hm, hm'⟩ := List.any_eq_true.mp hr
        have hx : (turn.all fun m => !m.isReset) = false := List.all_eq_false.mpr ⟨m, hm, by simp [hm']⟩
        simp [State.undisturbed, hs, hx]
    · left
      have hr' : turn.any EnvMove.isReset = false := by simpa using hr
      obtain ⟨e, he, hl⟩ := applyTurn_later turn (s.mapEnv fun e => { e with script := rest }) hr'
      exact ⟨e, by rw [tick_turn hs hr', he]; rfl, hl.openAt, hl.fifo, hl.script⟩

/-- A turn of an undisturbed environment changes the environment alone. -/
theorem tick_undisturbed {s : State} (h : s.undisturbed = true) :
    ∃ e, tick.run s = .ok () { s with env := e } ∧ e.openAt = s.env.openAt ∧ s.env.fifo.length ≤ e.fifo.length ∧
      e.script = s.env.script.tail ∧ State.undisturbed { s with env := e } = true := by
  rcases tick_cases s with ⟨e, he, ho, hf, hs⟩ | ⟨e, -, hd⟩
  · refine ⟨e, he, ho, hf, hs, ?_⟩
    unfold State.undisturbed at h ⊢
    simp only [hs]
    rw [List.all_eq_true] at h ⊢
    exact fun x hx => h x (List.mem_of_mem_tail hx)
  · simp [h] at hd

/-- While the environment has no turn to take, it makes no hardware reset. -/
theorem undisturbed_of_quiet {s : State} (h : s.env.script = []) : s.undisturbed = true := by
  simp [State.undisturbed, h]

/-! ## The primitives, while the environment has no turn to take -/

theorem now_quiet {s : State} (h : s.env.script = []) : now.run s = .ok s.env.now s := by
  rw [now, Proc.bind_ok (tick_quiet h)]; rfl

theorem chPresent_quiet {s : State} (h : s.env.script = []) : chPresent.run s = .ok s.env.present s := by
  rw [chPresent, Proc.bind_ok (tick_quiet h)]; rfl

theorem chAvail_quiet {s : State} (h : s.env.script = []) : chAvail.run s = .ok s.env.avail s := by
  rw [chAvail, Proc.bind_ok (tick_quiet h)]; rfl

theorem chOpen_quiet {s : State} (b : Word) (h : s.env.script = []) : (chOpen b).run s = .ok () (s.openChannel b) := by
  rw [chOpen, Proc.bind_ok (tick_quiet h)]; rfl

theorem chClose_quiet {s : State} (h : s.env.script = []) : chClose.run s = .ok () s.closeChannel := by
  rw [chClose, Proc.bind_ok (tick_quiet h)]; rfl

theorem popByte_run {s : State} {b : Byte} {rest : List Byte} (hf : s.env.fifo = b :: rest) :
    popByte.run s = .ok b (s.takeByte b rest) := by
  simp [popByte, hf]

theorem chRead_quiet {s : State} {b : Byte} {rest : List Byte} (h : s.env.script = []) (hf : s.env.fifo = b :: rest) :
    chRead.run s = .ok b (s.takeByte b rest) := by
  rw [chRead, Proc.bind_ok (tick_quiet h), popByte_run hf]

theorem chWrite_quiet {s : State} (b : Byte) (h : s.env.script = []) : (chWrite b).run s = .ok () (s.emit (.write b)) := by
  rw [chWrite, Proc.bind_ok (tick_quiet h)]; rfl

theorem ringWrite_quiet {s : State} (b : Byte) (h : s.env.script = []) : (ringWrite b).run s = .ok () (s.emit (.ring b)) := by
  rw [ringWrite, Proc.bind_ok (tick_quiet h)]; rfl

/-! ## The waits -/

theorem waitFor_ready {c : State → Bool} {h : Hold} {s : State} (n : Nat) (hc : c s = true) :
    (waitFor c h n).run s = .ok () s := by
  cases n <;> simp [waitFor, EStateM.run_bind, hc]

/-- A wait whose condition holds ends at once, and takes no turn. -/
theorem waitUntil_ready {c : State → Bool} {h : Hold} {s : State} (hc : c s = true) :
    (waitUntil c h).run s = .ok () s := by
  simp [waitUntil, EStateM.run_bind, waitFor_ready _ hc]

/-- A wait whose condition fails holds while the environment has no turn to take (R310). -/
theorem waitUntil_holds {c : State → Bool} {h : Hold} {s : State} (hq : s.env.script = []) (hc : c s = false) :
    (waitUntil c h).run s = .error .halted (s.setSeq (s.core.seq.waiting h)) := by
  simp [waitUntil, EStateM.run_bind, hq, waitFor, hc]

/-- Everything a wait can do: it ends where its condition holds, or holds where it fails, with only the environment
changed; or a hardware reset aborts it. -/
theorem waitFor_cases (c : State → Bool) (h : Hold) (n : Nat) (s : State) :
    (∃ e, (waitFor c h n).run s = .ok () { s with env := e } ∧ c { s with env := e } = true ∧ e.openAt = s.env.openAt ∧
      s.env.fifo.length ≤ e.fifo.length) ∨
    (∃ e, (waitFor c h n).run s = .error .halted (State.setSeq (s.core.seq.waiting h) { s with env := e }) ∧
      c { s with env := e } = false ∧ e.openAt = s.env.openAt ∧ s.env.fifo.length ≤ e.fifo.length) ∨
    (∃ e, (waitFor c h n).run s = .error .halted { s with core := Regs.reset, env := e } ∧ s.undisturbed = false) := by
  induction n generalizing s with
  | zero =>
    by_cases hc : c s = true
    · exact .inl ⟨s.env, waitFor_ready 0 hc, hc, rfl, Nat.le_refl _⟩
    · exact .inr (.inl ⟨s.env, by simp [waitFor, EStateM.run_bind, hc], by simpa using hc, rfl, Nat.le_refl _⟩)
  | succ n ih =>
    by_cases hc : c s = true
    · exact .inl ⟨s.env, waitFor_ready _ hc, hc, rfl, Nat.le_refl _⟩
    · have hw : (waitFor c h (n + 1)).run s = (tick >>= fun _ => waitFor c h n).run s := by
        simp [waitFor, EStateM.run_bind, hc]
      rw [hw]
      rcases tick_cases s with ⟨e, he, ho, hf, hs⟩ | ⟨e, he, hd⟩
      · rw [Proc.bind_ok he]
        rcases ih { s with env := e } with ⟨e', h1, h2, h3, h4⟩ | ⟨e', h1, h2, h3, h4⟩ | ⟨e', h1, h2⟩
        · exact .inl ⟨e', h1, h2, h3.trans ho, Nat.le_trans hf h4⟩
        · exact .inr (.inl ⟨e', h1, h2, h3.trans ho, Nat.le_trans hf h4⟩)
        · refine .inr (.inr ⟨e', h1, ?_⟩)
          unfold State.undisturbed at h2 ⊢
          obtain ⟨x, hx, hx'⟩ := List.all_eq_false.mp h2
          simp only [hs] at hx
          exact List.all_eq_false.mpr ⟨x, List.mem_of_mem_tail hx, hx'⟩
      · rw [Proc.bind_error he]
        exact .inr (.inr ⟨e, rfl, hd⟩)

theorem waitUntil_cases (c : State → Bool) (h : Hold) (s : State) :
    (∃ e, (waitUntil c h).run s = .ok () { s with env := e } ∧ c { s with env := e } = true ∧ e.openAt = s.env.openAt ∧
      s.env.fifo.length ≤ e.fifo.length) ∨
    (∃ e, (waitUntil c h).run s = .error .halted (State.setSeq (s.core.seq.waiting h) { s with env := e }) ∧
      c { s with env := e } = false ∧ e.openAt = s.env.openAt ∧ s.env.fifo.length ≤ e.fifo.length) ∨
    (∃ e, (waitUntil c h).run s = .error .halted { s with core := Regs.reset, env := e } ∧ s.undisturbed = false) := by
  have hw : (waitUntil c h).run s = (waitFor c h s.env.script.length).run s := by
    simp [waitUntil, EStateM.run_bind]
  rw [hw]
  exact waitFor_cases c h _ s

/-! ## The primitives in general -/

section
variable {α : Type}

/-- Everything a primitive of the form "a turn, then `k`" can do. -/
theorem tick_then_cases (k : Proc α) (s : State) :
    (∃ e, (tick >>= fun _ => k).run s = k.run { s with env := e } ∧ e.openAt = s.env.openAt ∧
      s.env.fifo.length ≤ e.fifo.length ∧ e.script = s.env.script.tail) ∨
    (∃ e, (tick >>= fun _ => k).run s = .error .halted { s with core := Regs.reset, env := e } ∧
      s.undisturbed = false) := by
  rcases tick_cases s with ⟨e, he, h⟩ | ⟨e, he, hd⟩
  · exact .inl ⟨e, Proc.bind_ok he, h⟩
  · exact .inr ⟨e, Proc.bind_error he, hd⟩

end

/-- `ChRead` with a byte buffered takes one, or is aborted by a hardware reset: it never faults (R15). -/
theorem chRead_cases (s : State) (h : s.env.fifo ≠ []) :
    (∃ e b rest, chRead.run s = .ok b (State.takeByte b rest { s with env := e }) ∧ e.openAt = s.env.openAt ∧
      e.fifo = b :: rest ∧ s.env.fifo.length ≤ rest.length + 1) ∨
    (∃ e, chRead.run s = .error .halted { s with core := Regs.reset, env := e } ∧ s.undisturbed = false) := by
  rcases tick_then_cases popByte s with ⟨e, he, ho, hf, -⟩ | ⟨e, he, hd⟩
  · left
    cases hq : e.fifo with
    | nil =>
      rw [hq] at hf
      exact absurd (List.length_eq_zero_iff.mp (Nat.le_zero.mp hf)) h
    | cons b rest =>
      exact ⟨e, b, rest, by rw [chRead, he, popByte_run hq], ho, hq, by simpa [hq] using hf⟩
  · exact .inr ⟨e, he, hd⟩

/-! ## How a step ends -/

theorem settle_ok (r : Reply) (s : State) : settle (.ok r s) = .next (s.respond r) := rfl
theorem settle_halted (s : State) : settle (.error .halted s) = .next s := rfl
theorem settleForm_ok (u : Unit) (s : State) : settleForm (.ok u s) = .next s := rfl
theorem settleForm_halted (s : State) : settleForm (.error .halted s) = .next s := rfl

/-- Everything a procedure with its response can do: its response after one more turn, a hardware reset in that turn, or the
procedure's own stop. -/
theorem answer_cases (p : Proc Reply) (s : State) :
    (∃ r u e, p.run s = .ok r u ∧ (answer p).run s = .ok r { u with env := e } ∧ e.openAt = u.env.openAt ∧
      u.env.fifo.length ≤ e.fifo.length ∧ e.script = u.env.script.tail) ∨
    (∃ r u e, p.run s = .ok r u ∧ (answer p).run s = .error .halted { u with core := Regs.reset, env := e } ∧
      u.undisturbed = false) ∨
    (∃ x u, p.run s = .error x u ∧ (answer p).run s = .error x u) := by
  cases hp : p.run s with
  | error x u => exact .inr (.inr ⟨x, u, rfl, by rw [answer, Proc.bind_error hp]⟩)
  | ok r u =>
    rcases tick_cases u with ⟨e, he, h1, h2, h3⟩ | ⟨e, he, hd⟩
    · refine .inl ⟨r, u, e, rfl, ?_, h1, h2, h3⟩
      rw [answer, Proc.bind_ok hp, Proc.bind_ok he]; rfl
    · refine .inr (.inl ⟨r, u, e, rfl, ?_, hd⟩)
      rw [answer, Proc.bind_ok hp, Proc.bind_error he]

/-- In a quiet environment the response follows at once. -/
theorem answer_quiet {p : Proc Reply} {s u : State} {r : Reply} (hp : p.run s = .ok r u) (h : u.env.script = []) :
    (answer p).run s = .ok r u := by
  rw [answer, Proc.bind_ok hp, Proc.bind_ok (tick_quiet h)]; rfl

/-- A procedure that ends in a quiet environment. -/
theorem runAs_quiet {v : Seq} {p : Proc Reply} {s u : State} {r : Reply} (hp : p.run (s.setSeq v) = .ok r u)
    (h : u.env.script = []) : runAs v p s = .next (u.respond r) := by
  rw [runAs, answer_quiet hp h]; rfl

/-- A command whose procedure ends in a quiet environment. -/
theorem runCommand_quiet {i : Instr} {p : Proc Reply} {s u : State} {r : Reply}
    (hp : p.run (s.setSeq (.busy i)) = .ok r u) (h : u.env.script = []) : runCommand i p s = .next (u.respond r) :=
  runAs_quiet hp h

/-- Everything the running of a procedure with its response can answer. -/
theorem runAs_cases (v : Seq) (p : Proc Reply) (s t : State) (h : runAs v p s = .next t) :
    (∃ r u, (answer p).run (s.setSeq v) = .ok r u ∧ t = u.respond r) ∨
      (answer p).run (s.setSeq v) = .error .halted t := by
  unfold runAs settle at h
  split at h
  · next r u hp => exact .inl ⟨r, u, hp, by simpa using h.symm⟩
  · next u hp => exact .inr (by simpa [hp] using h)
  · simp at h

/-- Everything the running of a command can answer. -/
theorem runCommand_cases (i : Instr) (p : Proc Reply) (s t : State) (h : runCommand i p s = .next t) :
    (∃ r u, (answer p).run (s.setSeq (.busy i)) = .ok r u ∧ t = u.respond r) ∨
      (answer p).run (s.setSeq (.busy i)) = .error .halted t :=
  runAs_cases (.busy i) p s t h

/-- While a command runs, the port is not filled: a command presented then has no effect (R57, R322). -/
theorem applyMove_port {m : EnvMove} {s : State} (h : s.core.seq ≠ .idle) (hm : m.isReset = false) :
    (applyMove m s).env.port = s.env.port ∧ (applyMove m s).core = s.core := by
  cases m with
  | issue cmd data => simp [applyMove, h]
  | arrive b lost =>
    simp only [applyMove, State.mapEnv, Env.receive]
    split
    · split <;> simp
    · simp
  | hwReset o q => simp [EnvMove.isReset] at hm
  | _ => simp [applyMove, State.mapEnv]

/-- The same for a whole turn. -/
theorem applyTurn_port {ms : List EnvMove} {s : State} (h : s.core.seq ≠ .idle) (hm : ms.any EnvMove.isReset = false) :
    (applyTurn ms s).env.port = s.env.port ∧ (applyTurn ms s).core = s.core := by
  induction ms generalizing s with
  | nil => exact ⟨rfl, rfl⟩
  | cons m ms ih =>
    simp only [List.any_cons, Bool.or_eq_false_iff] at hm
    obtain ⟨hp, hc⟩ := applyMove_port h hm.1
    obtain ⟨hp', hc'⟩ := ih (s := applyMove m s) (by rw [hc]; exact h) hm.2
    exact ⟨hp'.trans hp, hc'.trans hc⟩

/-- A turn with a hardware reset in it aborts whatever runs (R301). -/
theorem tick_reset {s : State} {turn : List EnvMove} {rest : List (List EnvMove)} (h : s.env.script = turn :: rest)
    (hr : turn.any EnvMove.isReset = true) :
    tick.run s = .error .halted (applyTurn turn (s.mapEnv fun e => { e with script := rest })) := by
  simp only [tick, Proc.of_run, h, hr, if_true]

end Sys2Proof.Machine
end

