-- ==== Sys2Proof/Laws/Codec.lean ====
section
/-! SUPPORT. The Byte Codec: what each receive class and each transmit form does, said once, and what `NextByte` leaves
alone. -/

namespace Sys2Proof.Machine

/-! ## The receive classes (R141 to R146) -/

/-- Order 1 of R110: a pending escape. -/
theorem codecRx_escaped {s : State} (r : Byte) (h : s.core.esc = true) :
    (codecRx r).run s = .ok (some (~~~r)) (s.mapCore fun c =>
      { c with esc := false, syncCount := sat8Succ c.syncCount, codecOut := some (~~~r) }) := by
  simp [codecRx, EStateM.run_bind, classifyRx, h, rxClass, rxEscaped]

/-- Order 2 of R110: the escape prefix. -/
theorem codecRx_esc {s : State} (h : s.core.esc = false) :
    (codecRx Config.escape).run s = .ok none (s.mapCore fun c =>
      { c with esc := true, syncCount := sat8Succ c.syncCount, codecOut := none }) := by
  simp [codecRx, EStateM.run_bind, classifyRx, h, rxClass, rxEsc]

theorem Config.preamble_ne_escape : Config.preamble ≠ Config.escape := by decide

/-- Order 3 of R110, with forwarding disabled. -/
theorem codecRx_sync_silent {s : State} (h : s.core.esc = false) (hn : s.core.syncCount = 0)
    (hr : s.core.ringFwdEn = false) :
    (codecRx Config.preamble).run s = .ok (some Config.preamble) (s.mapCore fun c =>
      { c with syncCount := 0, codecOut := some Config.preamble }) := by
  simp [codecRx, EStateM.run_bind, classifyRx, h, hn, hr, rxClass, rxSync, ringForward, Config.preamble_ne_escape]

/-- Order 3 of R110, with forwarding enabled, while the environment has no turn to take. -/
theorem codecRx_sync_quiet {s : State} (h : s.core.esc = false) (hn : s.core.syncCount = 0)
    (hr : s.core.ringFwdEn = true) (hq : s.env.script = []) :
    (codecRx Config.preamble).run s = .ok (some Config.preamble) ((s.emit (.ring Config.preamble)).mapCore fun c =>
      { c with syncCount := 0, codecOut := some Config.preamble }) := by
  simp [codecRx, EStateM.run_bind, classifyRx, h, hn, hr, rxClass, rxSync, ringForward, Config.preamble_ne_escape,
    ringWrite_quiet _ hq]

/-- Order 4 of R110. -/
theorem codecRx_aa {s : State} (h : s.core.esc = false) (hn : s.core.syncCount ≠ 0) :
    (codecRx Config.preamble).run s = .ok (some Config.preamble) (s.mapCore fun c =>
      { c with syncCount := 0, codecOut := some Config.preamble }) := by
  have hn' : ¬ s.core.syncCount = 0#8 := hn
  simp [codecRx, EStateM.run_bind, classifyRx, h, hn', rxClass, rxAa, Config.preamble_ne_escape]

/-- Order 5 of R110. -/
theorem codecRx_data {s : State} {r : Byte} (h : s.core.esc = false) (hr : Config.special r = false) :
    (codecRx r).run s = .ok (some r) (s.mapCore fun c =>
      { c with syncCount := sat8Succ c.syncCount, codecOut := some r }) := by
  simp only [Config.special, Bool.or_eq_false_iff, beq_eq_false_iff_ne] at hr
  simp [codecRx, EStateM.run_bind, classifyRx, h, hr.1, hr.2, rxClass, rxData]

/-! ## The transmit forms (R149, R150) -/

theorem txPre_quiet {s : State} (h : s.env.script = []) :
    txPre.run s = .ok () (s.emit (.write Config.preamble)) := chWrite_quiet _ h

theorem txLit_quiet {s : State} (b : Byte) (h : s.env.script = []) :
    (txLit b).run s = .ok () (s.emit (.write b)) := chWrite_quiet _ h

theorem txEscd_quiet {s : State} (b : Byte) (h : s.env.script = []) :
    (txEscd b).run s = .ok () ((s.emit (.write Config.escape)).emit (.write (~~~b))) := by
  rw [txEscd, Proc.bind_ok (chWrite_quiet _ h), chWrite_quiet]
  exact h

/-! ## What a procedure leaves alone -/

/-- Where the procedure ends with a result, `f` of the state is as it was. -/
def Proc.Keeps {α β : Type} (f : State → β) (p : Proc α) : Prop := ∀ s a s', p.run s = .ok a s' → f s' = f s

section
variable {α γ β : Type} {f : State → β}

theorem Proc.keeps_pure (a : α) : Proc.Keeps f (pure a : Proc α) := by
  intro s b s' h
  simp only [EStateM.run_pure, EStateM.Result.ok.injEq] at h
  rw [h.2]

theorem Proc.keeps_bind {p : Proc α} {k : α → Proc γ} (hp : Proc.Keeps f p) (hk : ∀ a, Proc.Keeps f (k a)) :
    Proc.Keeps f (p >>= k) := by
  intro s b s' h
  cases hps : p.run s with
  | ok a t =>
    rw [Proc.bind_ok hps] at h
    exact (hk a _ _ _ h).trans (hp _ _ _ hps)
  | error e t =>
    rw [Proc.bind_error hps] at h
    cases h

theorem Proc.keeps_of_read {p : Proc α} (h : ∀ s, ∃ a, p.run s = .ok a s) : Proc.Keeps f p := by
  intro s a s' hs
  obtain ⟨b, hb⟩ := h s
  rw [hb] at hs
  cases hs
  rfl

theorem Proc.keeps_change {g : State → State} (h : ∀ s, f (g s) = f s) : Proc.Keeps f (change g) := by
  intro s a s' hs
  simp only [change_run, EStateM.Result.ok.injEq] at hs
  rw [← hs.2]
  exact h s

theorem Proc.keeps_haltAt (h : Hold) : Proc.Keeps f (haltAt h : Proc α) := by
  intro s a s' hs
  simp at hs

theorem Proc.keeps_regs : Proc.Keeps f regs := Proc.keeps_of_read fun s => ⟨_, regs_run s⟩

theorem Proc.keeps_params : Proc.Keeps f params := Proc.keeps_of_read fun s => ⟨_, params_run s⟩

theorem Proc.keeps_tick (he : ∀ s e, f { s with env := e } = f s) : Proc.Keeps f tick := by
  intro s a s' hs
  rcases tick_cases s with ⟨e, h, -⟩ | ⟨e, h, -⟩
  · rw [h] at hs
    cases hs
    exact he s e
  · rw [h] at hs
    cases hs

theorem Proc.keeps_waitUntil (he : ∀ s e, f { s with env := e } = f s) (c : State → Bool) (h : Hold) :
    Proc.Keeps f (waitUntil c h) := by
  intro s a s' hs
  rcases waitUntil_cases c h s with ⟨e, hw, -⟩ | ⟨e, hw, -⟩ | ⟨e, hw, -⟩
  · rw [hw] at hs
    cases hs
    exact he s e
  all_goals rw [hw] at hs; cases hs

end

/-- `f` reads neither the environment, nor the trace, nor the codec's registers. -/
structure CodecBlind {β : Type} (f : State → β) : Prop where
  env : ∀ s e, f { s with env := e } = f s
  trace : ∀ s l, f { s with trace := l } = f s
  codec : ∀ s esc n o, f { s with core := { s.core with esc := esc, syncCount := n, codecOut := o } } = f s

section
variable {β : Type} {f : State → β}

theorem CodecBlind.keeps_ringWrite (h : CodecBlind f) (b : Byte) : Proc.Keeps f (ringWrite b) :=
  Proc.keeps_bind (Proc.keeps_tick h.env) fun _ => Proc.keeps_change fun s => h.trace s _

theorem CodecBlind.keeps_chAvail (h : CodecBlind f) : Proc.Keeps f chAvail :=
  Proc.keeps_bind (Proc.keeps_tick h.env) fun _ =>
    Proc.keeps_bind (Proc.keeps_of_read fun s => ⟨_, theState_run s⟩) fun _ => Proc.keeps_pure _

theorem CodecBlind.keeps_chRead (h : CodecBlind f) : Proc.Keeps f chRead := by
  refine Proc.keeps_bind (Proc.keeps_tick h.env) fun _ => ?_
  intro s a s' hs
  cases hq : s.env.fifo with
  | nil => simp [popByte, hq] at hs
  | cons b rest =>
    rw [popByte_run hq] at hs
    cases hs
    exact (h.trace _ _).trans (h.env s _)

theorem CodecBlind.keeps_rxClass (h : CodecBlind f) (i : Instr) : Proc.Keeps f (rxClass i) := by
  cases i
  case rxEscaped r => exact Proc.keeps_change fun s => h.codec s _ _ _
  case rxEsc => exact Proc.keeps_change fun s => h.codec s _ _ _
  case rxAa => exact Proc.keeps_change fun s => h.codec s _ _ _
  case rxData r => exact Proc.keeps_change fun s => h.codec s _ _ _
  case rxSync =>
    refine Proc.keeps_bind (Proc.keeps_bind Proc.keeps_regs fun c => ?_) fun _ =>
      Proc.keeps_change fun s => h.codec s _ _ _
    split
    · exact h.keeps_ringWrite _
    · exact Proc.keeps_pure _
  all_goals exact Proc.keeps_pure _

theorem CodecBlind.keeps_codecRx (h : CodecBlind f) (r : Byte) : Proc.Keeps f (codecRx r) :=
  Proc.keeps_bind Proc.keeps_regs fun _ => Proc.keeps_bind (h.keeps_rxClass _) fun _ =>
    Proc.keeps_bind Proc.keeps_regs fun _ => Proc.keeps_pure _

theorem CodecBlind.keeps_nextRaw (h : CodecBlind f) : Proc.Keeps f nextRaw :=
  Proc.keeps_bind (Proc.keeps_waitUntil h.env _ _) fun _ =>
    Proc.keeps_bind h.keeps_chRead fun r => h.keeps_codecRx r

theorem CodecBlind.keeps_nextByteIn (h : CodecBlind f) (n : Nat) : Proc.Keeps f (nextByteIn n) := by
  induction n with
  | zero => exact Proc.keeps_haltAt _
  | succ n ih =>
    refine Proc.keeps_bind h.keeps_nextRaw fun o => ?_
    cases o with
    | none => exact ih
    | some b => exact Proc.keeps_pure b

/-- `NextByte` leaves everything but the environment, the trace and the codec's registers alone (R148). -/
theorem CodecBlind.keeps_nextByte (h : CodecBlind f) : Proc.Keeps f nextByte := h.keeps_nextByteIn 2

end

end Sys2Proof.Machine
end

