-- ==== Sys2Proof/Laws/Assembler.lean ====
section
/-! SUPPORT. The Frame Assembler: what `FaAccept` can do, said once, and why 256 passes of the loop of `Assemble` are
enough. -/

namespace Sys2Proof.Machine

@[simp] theorem acceptByte_run (b : Byte) (s : State) :
    (acceptByte b).run s = .ok (faAccept s.params b s.core).1 (s.mapCore fun _ => (faAccept s.params b s.core).2) := by
  simp [acceptByte, EStateM.run_bind]

/-- When the assembler asks for more, it has advanced by one position, below 255 (R172 to R177). -/
theorem faAccept_cont {p : Params} {b : Byte} {c : Regs} (h : (faAccept p b c).1 = .cont) :
    (faAccept p b c).2.faPos.toNat = c.faPos.toNat + 1 := by
  unfold faAccept at h ⊢
  by_cases h0 : c.faPos = 0
  · by_cases hb : b = Config.preamble
    · simp [h0, hb]
    · simp [h0, hb] at h
  by_cases h1 : c.faPos = 1
  · simp [h1]
  by_cases h2 : c.faPos = 2
  · simp [h2]
  by_cases h3 : c.faPos = 3
  · simp [h3]
  by_cases h4 : c.faPos = 4
  · by_cases hl : badLength p b = true
    · simp [h4, hl] at h
    · simp [h4, hl]
  by_cases hp : c.faPos.toNat + 1 < c.work.totalLength.toNat
  · have hlt := c.work.totalLength.isLt
    have h1' : (1 : Byte).toNat = 1 := rfl
    simp only [h0, h1, h2, h3, h4, hp, if_false, if_true, BitVec.toNat_add, h1']
    omega
  · simp only [h0, h1, h2, h3, h4, hp, if_false] at h
    simp only [faComplete] at h
    split at h <;> simp at h

/-- The registers `FaAccept` may change: the work frame, the position and the RX frame (R184). -/
theorem faAccept_frame (p : Params) (b : Byte) (c : Regs) :
    ∃ w n r, (faAccept p b c).2 = { c with work := w, faPos := n, rx := r } := by
  unfold faAccept faComplete faClear
  split_ifs <;> exact ⟨_, _, _, rfl⟩

/-- The RX frame is written only on `DONE_OK`, and then with a checksum-valid frame (R180, R182 (a)). -/
theorem faAccept_rx (p : Params) (b : Byte) (c : Regs) :
    ((faAccept p b c).1 ≠ .doneOk ∧ (faAccept p b c).2.rx = c.rx) ∨
      ((faAccept p b c).1 = .doneOk ∧ (faAccept p b c).2.rx.valid = true ∧ (faAccept p b c).2.faPos = 0) := by
  unfold faAccept faComplete
  split_ifs with h0 hb h1 h2 h3 h4 hl hp hv
  all_goals first
    | exact .inl ⟨by simp, rfl⟩
    | exact .inr ⟨rfl, hv, rfl⟩

theorem faPos_codecBlind : CodecBlind (fun s => s.core.faPos) := ⟨fun _ _ => rfl, fun _ _ => rfl, fun _ _ _ _ => rfl⟩

/-- One more pass changes nothing once the passes left cover the positions left. -/
theorem assembleIn_stable (n : Nat) (s : State) (h : 256 ≤ n + s.core.faPos.toNat) :
    (assembleIn (n + 1)).run s = (assembleIn n).run s := by
  induction n generalizing s with
  | zero =>
    have := s.core.faPos.isLt
    omega
  | succ n ih =>
    rw [assembleIn, assembleIn.eq_2 n]
    simp only [EStateM.run_bind]
    cases ha : chAvail.run s with
    | error e s1 => rfl
    | ok a s1 =>
      have h1 : s1.core.faPos = s.core.faPos := faPos_codecBlind.keeps_chAvail _ _ _ ha
      simp only
      split
      case isFalse => rfl
      case isTrue =>
        simp only [EStateM.run_bind]
        cases hb : nextByte.run s1 with
        | error e s2 => rfl
        | ok b s2 =>
          have h2 : s2.core.faPos = s1.core.faPos := faPos_codecBlind.keeps_nextByte _ _ _ hb
          simp only [assembleByte, EStateM.run_bind, acceptByte_run]
          cases hc : (faAccept s2.params b s2.core).1 with
          | cont =>
            simp only
            apply ih
            have h3 := faAccept_cont hc
            simp only [State.mapCore_core, h3, h2, h1]
            omega
          | _ => rfl

/-- `Assemble` is its loop with any number of passes from 256 on: the model's bound cuts no run short (log 14). -/
theorem assemble_unbounded (n : Nat) (s : State) : (assembleIn (256 + n)).run s = assemble.run s := by
  induction n with
  | zero => rfl
  | succ n ih =>
    rw [← Nat.add_assoc, assembleIn_stable _ _ (by omega), ih]

end Sys2Proof.Machine
end

