-- ==== Sys2Proof/Laws/PerInstr.lean ====
section
/-! SUPPORT. A family of per-instruction facts about the syntax: the encoding of every well-formed instruction has the
fixed bits of its row in spec/opcode_table.json. -/

namespace Sys2Proof.Laws

/-- A row's mask and match. -/
structure Row where
  mask : Word
  value : Word
  deriving DecidableEq, Repr

/-- The masks and matches of the instruction's row. TX_ESCD has two values (R112: `b == 0xAA or b == 0xFF`). -/
def rowsOf : Instr → List Row
  | .beginAuto => [⟨0xFFFFFFFF, 0x00000001⟩]
  | .beginBaud _ => [⟨0xFFFFFFFF, 0x00000002⟩]
  | .poll => [⟨0xFFFFFFFF, 0x00000003⟩]
  | .reset => [⟨0xFFFFFFFF, 0x00000004⟩]
  | .setNoRestart _ => [⟨0xFFFFFEFF, 0x00000005⟩]
  | .send => [⟨0xFFFFFFFF, 0x00000006⟩]
  | .csrRead _ => [⟨0x0000FFFF, 0x00000007⟩]
  | .csrWrite _ _ => [⟨0x0000FFFF, 0x00000008⟩]
  | .rxEscaped _ => [⟨0x00, 0x00⟩]
  | .rxEsc => [⟨0xFF, 0xFF⟩]
  | .rxSync => [⟨0xFF, 0xAA⟩]
  | .rxAa => [⟨0xFF, 0xAA⟩]
  | .rxData _ => [⟨0x00, 0x00⟩]
  | .txPre => [⟨0xFF, 0xAA⟩]
  | .txLit _ => [⟨0x00, 0x00⟩]
  | .txEscd _ => [⟨0xFF, 0xAA⟩, ⟨0xFF, 0xFF⟩]

/-- The bits of an encoding that the table numbers: the command word, or the byte. -/
def tableBits : Encoded → Word
  | .command cmd _ => cmd
  | .rx raw => raw.setWidth 32
  | .tx b => b.setWidth 32

/-- The encoding of a well-formed instruction has the fixed bits of one of its row's values. -/
def FixedBits.Statement (i : Instr) : Prop :=
  i.wf = true → ∃ r ∈ rowsOf i, tableBits (encode i) &&& r.mask = r.value

theorem FixedBits.beginAuto : FixedBits.Statement .beginAuto := fun _ => ⟨_, List.mem_singleton.mpr rfl, by decide⟩
theorem FixedBits.beginBaud (baud : Word) : FixedBits.Statement (.beginBaud baud) :=
  fun _ => ⟨_, List.mem_singleton.mpr rfl, by simp [tableBits, encode]⟩
theorem FixedBits.poll : FixedBits.Statement .poll := fun _ => ⟨_, List.mem_singleton.mpr rfl, by decide⟩
theorem FixedBits.reset : FixedBits.Statement .reset := fun _ => ⟨_, List.mem_singleton.mpr rfl, by decide⟩
theorem FixedBits.setNoRestart (flag : Bool) : FixedBits.Statement (.setNoRestart flag) :=
  fun _ => ⟨_, List.mem_singleton.mpr rfl, by cases flag <;> decide⟩
theorem FixedBits.send : FixedBits.Statement .send := fun _ => ⟨_, List.mem_singleton.mpr rfl, by decide⟩

/-- The low half of a format A command word holds only the opcode (R103). -/
theorem formatA_low (addr : CsrAddr) (op : Byte) :
    (addr ++ 0#8 ++ op : Word) &&& 0x0000FFFF = op.setWidth 32 := by
  ext i hi
  simp only [BitVec.getElem_and, BitVec.getElem_append, BitVec.getElem_setWidth]
  have hm : ∀ j, j < 32 → (0x0000FFFF : Word).getLsbD j = decide (j < 16) := by decide
  rw [← BitVec.getLsbD_eq_getElem, hm i hi]
  by_cases h8 : i < 8
  · simp [h8, show i < 16 by omega]
  · by_cases h16 : i < 16
    · simp [h8, h16, show i - 8 < 8 by omega, BitVec.getLsbD_of_ge _ _ (by omega : 8 ≤ i)]
    · simp [h8, h16, BitVec.getLsbD_of_ge _ _ (by omega : 8 ≤ i)]

theorem FixedBits.csrRead (addr : CsrAddr) : FixedBits.Statement (.csrRead addr) :=
  fun _ => ⟨_, List.mem_singleton.mpr rfl, formatA_low addr 0x07⟩
theorem FixedBits.csrWrite (addr : CsrAddr) (data : Word) : FixedBits.Statement (.csrWrite addr data) :=
  fun _ => ⟨_, List.mem_singleton.mpr rfl, formatA_low addr 0x08⟩
theorem FixedBits.rxEscaped (raw : Byte) : FixedBits.Statement (.rxEscaped raw) :=
  fun _ => ⟨_, List.mem_singleton.mpr rfl, by simp⟩
theorem FixedBits.rxEsc : FixedBits.Statement .rxEsc := fun _ => ⟨_, List.mem_singleton.mpr rfl, by decide⟩
theorem FixedBits.rxSync : FixedBits.Statement .rxSync := fun _ => ⟨_, List.mem_singleton.mpr rfl, by decide⟩
theorem FixedBits.rxAa : FixedBits.Statement .rxAa := fun _ => ⟨_, List.mem_singleton.mpr rfl, by decide⟩
theorem FixedBits.rxData (raw : Byte) : FixedBits.Statement (.rxData raw) :=
  fun _ => ⟨_, List.mem_singleton.mpr rfl, by simp⟩
theorem FixedBits.txPre : FixedBits.Statement .txPre := fun _ => ⟨_, List.mem_singleton.mpr rfl, by decide⟩
theorem FixedBits.txLit (b : Byte) : FixedBits.Statement (.txLit b) :=
  fun _ => ⟨_, List.mem_singleton.mpr rfl, by simp⟩
theorem FixedBits.txEscd (b : Byte) : FixedBits.Statement (.txEscd b) := by
  intro h
  simp only [Instr.wf, Config.special, Bool.or_eq_true, beq_iff_eq] at h
  rcases h with h | h
  · subst h; exact ⟨⟨0xFF, 0xAA⟩, by decide, by decide⟩
  · subst h; exact ⟨⟨0xFF, 0xFF⟩, by decide, by decide⟩

end Sys2Proof.Laws
end

