-- ==== Sys2Proof/Laws/Session.lean ====
section
/-! SUPPORT. The procedures of the Baud Autodetector and the Bus Session, while the environment has no turn to take: what
they read, discard and write, said once. -/

namespace Sys2Proof.Machine

/-- The state after the bytes `bs` were read and `rest` is left buffered. -/
def State.afterReads (bs rest : List Byte) (s : State) : State :=
  { s with env := { s.env with fifo := rest }, trace := s.trace ++ bs.map Event.read }

@[simp] theorem State.afterReads_core (bs rest : List Byte) (s : State) : (s.afterReads bs rest).core = s.core := rfl
@[simp] theorem State.afterReads_env (bs rest : List Byte) (s : State) :
    (s.afterReads bs rest).env = { s.env with fifo := rest } := rfl
@[simp] theorem State.afterReads_trace (bs rest : List Byte) (s : State) :
    (s.afterReads bs rest).trace = s.trace ++ bs.map Event.read := rfl
@[simp] theorem State.afterReads_params (bs rest : List Byte) (s : State) : (s.afterReads bs rest).params = s.params := rfl

/-- `n` raw reads take the `n` oldest bytes (R203, R206). -/
theorem readMany_quiet (bs rest : List Byte) (s : State) (h : s.env.script = []) (hf : s.env.fifo = bs ++ rest) :
    (readMany bs.length).run s = .ok bs (s.afterReads bs rest) := by
  induction bs generalizing s with
  | nil =>
    obtain ⟨c, e, t, p⟩ := s
    simp only [List.nil_append] at hf
    simp [readMany, State.afterReads, ← hf]
  | cons b bs ih =>
    rw [List.length_cons, readMany, Proc.bind_ok (chRead_quiet (rest := bs ++ rest) h (by simpa using hf))]
    rw [Proc.bind_ok (ih _ (by simpa using h) rfl)]
    simp [State.afterReads, State.takeByte, State.emit, State.mapEnv]

/-- `ChDiscard` on an open channel drops everything buffered (R206). -/
theorem chDiscard_quiet (s : State) (h : s.env.script = []) (ho : s.env.openAt.isSome = true) :
    chDiscard.run s = .ok () (s.afterReads s.env.fifo []) := by
  have ha : s.env.avail = s.env.fifo.length := by simp [Env.avail, ho]
  rw [chDiscard, Proc.bind_ok (chAvail_quiet h), ha,
    Proc.bind_ok (readMany_quiet s.env.fifo [] s h (by simp))]
  rfl

/-- The state after the raw bytes `bs` were written. -/
def State.afterWrites (bs : List Byte) (s : State) : State := { s with trace := s.trace ++ bs.map Event.write }

@[simp] theorem State.afterWrites_core (bs : List Byte) (s : State) : (s.afterWrites bs).core = s.core := rfl
@[simp] theorem State.afterWrites_env (bs : List Byte) (s : State) : (s.afterWrites bs).env = s.env := rfl
@[simp] theorem State.afterWrites_trace (bs : List Byte) (s : State) :
    (s.afterWrites bs).trace = s.trace ++ bs.map Event.write := rfl
@[simp] theorem State.afterWrites_params (bs : List Byte) (s : State) : (s.afterWrites bs).params = s.params := rfl

/-- `CodecTx` writes the raw bytes of the byte's transmit form (R112, R150). -/
theorem codecTx_quiet (b : Byte) (s : State) (h : s.env.script = []) :
    (codecTx b).run s = .ok () (s.afterWrites (txRaw (classifyTx b))) := by
  unfold codecTx classifyTx
  split
  · rw [txForm, txEscd_quiet b h]
    simp [txRaw, State.afterWrites, State.emit]
  · rw [txForm, txLit_quiet b h]
    rfl

/-- `CodecTx` of each byte in turn. -/
theorem codecTxAll_quiet (bs : List Byte) (s : State) (h : s.env.script = []) :
    (codecTxAll bs).run s = .ok () (s.afterWrites (bs.flatMap fun b => txRaw (classifyTx b))) := by
  induction bs generalizing s with
  | nil => simp [codecTxAll, State.afterWrites]
  | cons b bs ih =>
    rw [codecTxAll, Proc.bind_ok (codecTx_quiet b s h), ih _ (by simpa using h)]
    simp [State.afterWrites]

/-! ## What a step does, by the state of the sequencer -/

/-- In a quiet environment a step is what the sequencer does. -/
theorem step_quiet {s : State} (h : s.quiet) : step s = sequence s := by
  rw [step, State.refill_quiet h]

theorem step_idle {s : State} (h : s.core.seq = .idle) (hp : s.env.port = none) : step s = runForm tick s.refill := by
  simp [step, sequence, h, hp]

theorem step_present {s : State} {cmd data : Word} (h : s.core.seq = .idle) (hp : s.env.port = some (cmd, data)) :
    step s = accept cmd data s.refill := by
  simp [step, sequence, h, hp]

theorem step_busy {s : State} {i : Instr} (h : s.core.seq = .busy i) : step s = exec i s.refill := by
  simp [step, sequence, h]

theorem step_busyIllegal {s : State} (h : s.core.seq = .busyIllegal) : step s = execIllegal s.refill := by
  simp [step, sequence, h]

theorem step_held {s : State} {i : Instr} {k : Hold} (h : s.core.seq = .held i k) : step s = resume i k s.refill := by
  simp [step, sequence, h]

end Sys2Proof.Machine
end

