-- ==== Sys2Proof/Tests/Slice0.lean ====
section
/-! SUPPORT. Our own tests. Expected values come from spec/30_encoding.md and from the vectors of spec/95_test_vectors.md,
named in each comment; the witnesses at the end show, for each statement with hypotheses, a concrete case that meets
them. -/

namespace Sys2Proof.Tests

open Sys2Proof.Machine

/-! ## Helpers -/

/-- Parameters with numbers for the two open ones. -/
def p0 : Params := { payloadCap := 250, syncN := 10, fifoDepth := 1024, tickUnit := 1 }

/-- The start state S0. -/
def s0 : State := State.resetAt p0

/-- S0+B(19200, t), with the receive buffer `fifo`, at time `now`. -/
def up (t now : Word) (fifo : List Byte) : State :=
  (s0.mapCore (Regs.begun 19200 t)).mapEnv fun e => { e with openAt := some 19200, fifo := fifo, now := now }

/-- The state with the environment's turns to come. -/
def withScript (script : List (List EnvMove)) (s : State) : State := s.mapEnv fun e => { e with script := script }

/-- The state with the turns that the environment takes again and again. -/
def withSupply (turns : List (List EnvMove)) (s : State) : State := s.mapEnv fun e => { e with supply := .again turns }

/-- The next state, or `d`. -/
def after (d : State) : Host.Outcome State Fault Refusal → State
  | .next t => t
  | .fault _ => d
  | .refused _ => d

/-- The outcome is a next state. -/
def goesOn : Host.Outcome State Fault Refusal → Bool
  | .next _ => true
  | .fault _ => false
  | .refused _ => false

/-- What an instruction leaves. -/
def run1 (i : Instr) (s : State) : State := after s (exec i s)

/-- What a list of commands leaves. -/
def runAll (is : List Instr) (s : State) : State := after s (execAll is s)

/-- `codec.esc`, `codec.syncCount`, the emitted byte and the events: a row of the table of vectors CR1 to CR13. -/
def codecRow (esc : Bool) (n : Byte) (fwd : Bool) (raw : Byte) : Bool × Byte × Option Byte × List Event :=
  let s := s0.mapCore fun c => { c with esc := esc, syncCount := n, ringFwdEn := fwd }
  let t := run1 (classifyRx esc n raw) s
  (t.core.esc, t.core.syncCount, t.core.codecOut, t.trace)

/-! ## Encodings, written out from R105, R110 and R112 -/

theorem test_word_beginAuto : decodeCommand 0x00000001 0 = .ok .beginAuto := by decide
theorem test_word_beginBaud : decodeCommand 0x00000002 0x00004B00 = .ok (.beginBaud 19200) := by decide
theorem test_word_poll : decodeCommand 0x00000003 0 = .ok .poll := by decide
theorem test_word_reset : decodeCommand 0x00000004 0 = .ok .reset := by decide
theorem test_word_setNoRestart : decodeCommand 0x00000105 0 = .ok (.setNoRestart true) := by decide
theorem test_word_send : decodeCommand 0x00000006 0 = .ok .send := by decide
theorem test_word_csrRead : decodeCommand 0x01F90007 0 = .ok (.csrRead 0x01F9) := by decide
theorem test_word_csrWrite : decodeCommand 0x00300008 0x03020100 = .ok (.csrWrite 0x0030 0x03020100) := by decide
theorem test_word_rxEscaped : decode ⟨true, 4, false⟩ (.rx 0xFF) = .ok (.rxEscaped 0xFF) := by decide
theorem test_word_rxEsc : decode ⟨false, 3, false⟩ (.rx 0xFF) = .ok .rxEsc := by decide
theorem test_word_rxSync : decode ⟨false, 0, false⟩ (.rx 0xAA) = .ok .rxSync := by decide
theorem test_word_rxAa : decode ⟨false, 7, false⟩ (.rx 0xAA) = .ok .rxAa := by decide
theorem test_word_rxData : decode ⟨false, 0, false⟩ (.rx 0x55) = .ok (.rxData 0x55) := by decide
theorem test_word_txPre : decode ⟨false, 0, true⟩ (.tx 0xAA) = .ok .txPre := by decide
theorem test_word_txLit : decode ⟨false, 0, false⟩ (.tx 0x01) = .ok (.txLit 0x01) := by decide
theorem test_word_txEscd : decode ⟨false, 0, false⟩ (.tx 0xFF) = .ok (.txEscd 0xFF) := by decide

/-- DE7, DE11, DE13 to DE17: illegal. -/
theorem test_word_illegal :
    decodeCommand 0x00000205 0 = .error (.mustBeZero 0x05) ∧ decodeCommand 0x00000207 0 = .error (.mustBeZero 0x07) ∧
    decodeCommand 0x00000103 0 = .error (.mustBeZero 0x03) ∧ decodeCommand 0 0 = .error (.illegalOpcode 0x00) ∧
    decodeCommand 0x00000009 0 = .error (.illegalOpcode 0x09) ∧ decodeCommand 0x000000FF 0 = .error (.illegalOpcode 0xFF) ∧
    decodeCommand 0x01000001 0 = .error (.mustBeZero 0x01) := by decide

theorem test_tableWord :
    decodeTableWord 32 0x00000003 = some .poll ∧ decodeTableWord 32 0x00020007 = some (.csrRead 0x0002) ∧
    decodeTableWord 8 0x55 = some (.rxData 0x55) ∧ decodeTableWord 8 0xFF = some .rxEsc := by decide

theorem test_withFetchWord_command :
    (after s0 (step (s0.withFetchWord 32 0x00020007))).trace = [.resp 0x00 0x0000C350] := by decide

theorem test_withFetchWord_byte :
    (after s0 (step (s0.withFetchWord 8 0x55))).trace = [.read 0x55, .resp 0x02 0] := by decide

/-! ## Well-formedness: each check refuses an ill-formed term -/

theorem test_wf_rxData : (Instr.rxData 0xAA).wf = false ∧ (Instr.rxData 0xFF).wf = false ∧ (Instr.rxData 0x00).wf = true := by
  decide
theorem test_wf_txLit : (Instr.txLit 0xAA).wf = false ∧ (Instr.txLit 0xFF).wf = false ∧ (Instr.txLit 0x01).wf = true := by
  decide
theorem test_wf_txEscd : (Instr.txEscd 0x01).wf = false ∧ (Instr.txEscd 0xAA).wf = true ∧ (Instr.txEscd 0xFF).wf = true := by
  decide

/-! ## The byte codec: vectors CR1 to CR13 -/

theorem test_rxSync_forwards : codecRow false 0 true 0xAA = (false, 0, some 0xAA, [.ring 0xAA]) := by decide
theorem test_rxSync_disabled : codecRow false 0 false 0xAA = (false, 0, some 0xAA, []) := by decide
theorem test_rxAa : codecRow false 7 true 0xAA = (false, 0, some 0xAA, []) := by decide
theorem test_rxData : codecRow false 0 true 0x01 = (false, 1, some 0x01, []) := by decide
theorem test_rxData_saturates : codecRow false 255 true 0x01 = (false, 255, some 0x01, []) := by decide
theorem test_rxEsc : codecRow false 3 true 0xFF = (true, 4, none, []) := by decide
theorem test_rxEsc_saturates : codecRow false 255 true 0xFF = (true, 255, none, []) := by decide
theorem test_rxEscaped : codecRow true 4 true 0x55 = (false, 5, some 0xAA, []) := by decide
theorem test_rxEscaped_sync : codecRow true 0 true 0xAA = (false, 1, some 0x55, []) := by decide

/-! ## Transmit forms (R149, R150) -/

theorem test_txPre : (run1 .txPre s0).trace = [.write 0xAA] := by decide
theorem test_txLit : (run1 (.txLit 0x55) s0).trace = [.write 0x55] := by decide
theorem test_txEscd_preamble : (run1 (.txEscd 0xAA) s0).trace = [.write 0xFF, .write 0x55] := by decide
theorem test_txEscd_escape : (run1 (.txEscd 0xFF) s0).trace = [.write 0xFF, .write 0x00] := by decide

/-! ## Commands -/

/-- R32, R322: an illegal command runs as BUSY, so a command presented before its response has no effect. -/
theorem test_illegal_busy :
    let t := after s0 (step (withScript [[.issue 3 0]] (s0.present 0x00000103 0)))
    t.trace = [.resp 0x0B 0] ∧ t.env.port = none ∧ t.core.seq = .idle := by decide

/-- SE1. -/
theorem test_beginBaud :
    let t := run1 (.beginBaud 19200) (s0.mapEnv fun e => { e with now := 100 })
    t.trace = [.closed, .opened 19200, .resp 0x00 0] ∧ statusWord t.core = 0x00000005 ∧ t.core.curBaud = 0x00004B00 ∧
      t.core.lastAct = 100 := by decide

/-- SE3. -/
theorem test_beginBaud_absent :
    let t := run1 (.beginBaud 9600) (s0.mapEnv fun e => { e with present := false })
    t.trace = [.resp 0x07 0] ∧ statusWord t.core = 0x00000002 := by decide

/-- DE1, AD6. -/
theorem test_beginAuto_empty : (run1 .beginAuto s0).trace = [.resp 0x08 0] := by decide

/-- AD5, with `SYNC_N = 2`: one byte stays buffered. -/
theorem test_beginAuto_adopts :
    let s := runAll (Pseudo.setBauds [9600]).expand (State.resetAt { p0 with syncN := 2 })
    let t := run1 .beginAuto (withScript [[], [], [], [], arrivals [0xAA, 0xAA, 0xAA]] s)
    t.trace.drop 2 = [.closed, .opened 9600, .read 0xAA, .read 0xAA, .resp 0x00 0] ∧ t.env.fifo = [0xAA] ∧
      t.core.curBaud = 9600 ∧ t.core.baudIndex = 0 := by decide

/-- AD3, with `SYNC_N = 2`: the core goes around the candidates, step after step, with no response. -/
theorem test_beginAuto_cycles :
    let s := runAll (Pseudo.setBauds [57600, 38400]).expand (State.resetAt { p0 with syncN := 2 })
    let t := after s (Host.Core.run Sys2Proof.core 4 ((withSupply [arrivals [0, 0]] s).present 0x00000001 0))
    t.trace.drop 3 = [.closed, .opened 57600, .read 0, .read 0, .closed, .opened 38400, .read 0, .read 0, .closed, .opened 57600,
      .read 0, .read 0, .closed, .opened 38400] ∧ t.core.seq = .held .beginAuto (.autodetect 1) ∧ t.core.adAttempts = 4 := by
  decide +kernel

/-- R11: the environment issues a command again and again, and each is answered. -/
theorem test_supply_again :
    (after s0 (Host.Core.run Sys2Proof.core 5 (withSupply [[.issue 0x00000004 0]] s0))).trace =
      [.closed, .resp 0x00 0, .closed, .resp 0x00 0] := by decide

/-- W1, program P1. -/
theorem test_poll_frame :
    let t := run1 .poll (up 100 150 [0xAA, 0x01, 0x02, 0x03, 0x06, 0xB6])
    t.trace = [.read 0xAA, .ring 0xAA, .read 0x01, .read 0x02, .read 0x03, .read 0x06, .read 0xB6, .resp 0x01 0] ∧
      csrValue t.core .rxHdr = 0x030201AA ∧ csrValue t.core .rxTail = 0x0000B606 ∧ statusWord t.core = 0x00050005 ∧
      t.core.lastAct = 150 := by decide

/-- PO7 and PO8: the clock wraps. -/
theorem test_poll_wrap :
    (run1 .poll (up 0xFFFFFF00 0x0000C000 [])).trace = [.resp 0x06 0] ∧
    (run1 .poll ((up 0xFFFFFF00 0x0000C351 []).mapCore fun c => { c with autoRestartDisabled := true })).trace
      = [.closed, .resp 0x04 0] := by decide

/-- SE5. -/
theorem test_reset :
    let t := run1 .reset (up 0 0 [])
    t.trace = [.closed, .resp 0x00 0] ∧ statusWord t.core = 0x00000000 := by decide

/-- SE6. -/
theorem test_setNoRestart :
    csrValue (run1 (.setNoRestart true) s0).core .config = 0x00000006 ∧
    csrValue (run1 (.setNoRestart false) s0).core .config = 0x00000004 := by decide

/-- P3, steps 3 to 6: TXFRAME 1, 2, 3, [0xFF], then SEND. -/
theorem test_send :
    let s := runAll (Pseudo.txFrame 1 2 3 [0xFF]).expand (up 0 0 [])
    csrValue s.core .txHdr = 0x030201AA ∧
    (run1 .send (withScript ((List.replicate 9 []) ++ [[.flushDone]]) s)).trace.drop 3 =
      [.write 0xAA, .write 0x01, .write 0x02, .write 0x03, .write 0x07, .write 0xFF, .write 0x00, .write 0xB6, .flush,
        .resp 0x00 0] := by decide +kernel

/-- EX3: the READY check comes first. -/
theorem test_send_down : (run1 .send s0).trace = [.resp 0x04 0] := by decide

/-- DE9, DE10, SE18. -/
theorem test_csrRead :
    (runAll [.csrRead 0x0000, .csrRead 0x0002, .csrRead 0x0030] s0).trace =
      [.resp 0x00 0, .resp 0x00 0x0000C350, .resp 0x00 0x000000AA] := by decide

/-- SE16, SE17: the edges of the map. -/
theorem test_csrRead_edges :
    (runAll [.csrRead 0x0018, .csrRead 0x0008, .csrRead 0x01FA, .csrRead 0xFFFF, .csrRead 0x0017, .csrRead 0x01F9,
      .csrRead 0x02F9] s0).trace =
      [.resp 0x0C 0, .resp 0x0C 0, .resp 0x0C 0, .resp 0x0C 0, .resp 0x00 0, .resp 0x00 0, .resp 0x00 0] := by decide

/-- SE8, SE10, SE11. -/
theorem test_csrWrite_refused :
    (runAll [.csrWrite 0x0000 1, .csrWrite 0x0005 9, .csrWrite 0x0005 0x18, .csrRead 0x0005] s0).trace =
      [.resp 0x0C 0, .resp 0x0C 0, .resp 0x00 0, .resp 0x00 8] := by decide

/-- SE12, SE13, SE14. -/
theorem test_csrWrite_fields :
    (runAll [.csrWrite 0x0030 0x12345678, .csrRead 0x0030, .csrWrite 0x0031 0x1FF, .csrRead 0x0031, .csrWrite 0x0200 0x1AB,
      .csrRead 0x0200] s0).trace =
      [.resp 0x00 0, .resp 0x00 0x123456AA, .resp 0x00 0, .resp 0x00 0xFF, .resp 0x00 0, .resp 0x00 0xAB] := by decide +kernel

/-- P6, and FA6: the hold inside an escape, and what lifts it. -/
theorem test_hold :
    let t := run1 .poll (up 0 0 [0xAA, 0x01, 0x02, 0x03, 0x07, 0xFF])
    t.core.seq = .held .poll .nextByte ∧ t.core.esc = true ∧ t.core.syncCount = 5 ∧ t.core.faPos = 5 ∧
      (after t (step (withScript [arrivals [0x00, 0xB6]] t))).trace.getLast? = some (.resp 0x01 0) := by decide +kernel

/-- P1, P2, P3: lines, with a comment and register names, as the words that the programs list. -/
theorem test_lines :
    (assembleLine "BEGIN.BAUD 19200".toList).map (·.map encode) = some [.command 0x00000002 0x00004B00] ∧
    (assembleLine "CSR.W BAUD_LIST[2], 19200 ; third".toList).map (·.map encode) = some [.command 0x00120008 0x00004B00] ∧
    (assembleLine "CSR.R RX_PAY[1]".toList).map (·.map encode) = some [.command 0x01010007 0] ∧
    (assembleLine "NORESTART 1".toList).map (·.map encode) = some [.command 0x00000105 0] ∧
    (assembleLine "TXFRAME 1, 2, 3, [0xFF]".toList).map (·.map encode) =
      some [.command 0x00300008 0x03020100, .command 0x00310008 7, .command 0x02000008 0xFF] ∧
    assembleLine "CSR.R 0x10000".toList = none := by decide +kernel

/-- P5: WAITFRAME over noise, a bad frame and a good frame. -/
theorem test_waitFrame :
    let t := after s0 (waitFrame 9 (up 0 10 [0x01, 0x02, 0xAA, 0x01, 0x02, 0x03, 0x06, 0x00, 0xAA, 0x05, 0x06, 0x07, 0x06, 0xC2]))
    t.responses = 4 ∧ csrValue t.core .rxHdr = 0x070605AA ∧ csrValue t.core .rxTail = 0x0000C206 := by decide +kernel

/-- R115, R301, log 23: a POLL that a hardware reset aborts ends WAITFRAME, whatever response came before it. -/
theorem test_waitFrame_aborted :
    let t := after s0 (waitFrame 9 (withScript [[.hwReset none []]] ((up 0 10 []).emit (.resp 0x01 0))))
    t.trace = [.resp 0x01 0] ∧ t.core.seq = .idle ∧ t.core.ready = false := by decide

/-- CS4, CS5. -/
theorem test_csum : csum [0xAA, 0xFF, 0xFF, 0xFF, 0x06] = 0xAD ∧ csum [0xAA, 0x00, 0x00, 0xFA, 0x06] = 0xAA := by decide

/-! ## Witnesses: for each statement with hypotheses, a case that meets them, and one for each of its clauses -/

/-- A state presenting a command. -/
def presenting (cmd data : Word) : State := s0.mapEnv fun e => { e with port := some (cmd, data) }

/-- A session waiting at the hold `h` of command `i`, with `SYNC_N = 2`, three candidates, and the raw bytes `fifo`. -/
def heldAt (i : Instr) (h : Hold) (fifo : List Byte) : State :=
  let s := ((up 0 0 fifo).mapEnv fun e => { e with flushPending := true }).mapCore fun c =>
    { c with seq := .held i h, baudCount := 3, adMaxAttempts := 4, adAttempts := 4 }
  { s with params := { p0 with syncN := 2 } }

/-- The registers with `fa.pos = pos` and a work frame of length `len`. -/
def atPos (pos len : Byte) : Regs :=
  { Regs.reset with work := { Frame.empty with preamble := 0xAA, totalLength := len }, faPos := pos }

/-- A script that moves, without a hardware reset. -/
def moves : List (List EnvMove) := [[.arrive 0xAA 0, .advance 7], [.setPresent false], [], [.issue 3 0]]

theorem witness_DecodeEncodeRoundTrip :
    (Instr.rxEscaped 0xFF).wf = true ∧ (Instr.rxEscaped 0xFF).admittedBy ⟨true, 4, false⟩ = true ∧
    (Instr.txEscd 0xAA).wf = true ∧ (Instr.txEscd 0xAA).admittedBy ⟨false, 0, false⟩ = true := by decide

theorem witness_DecodedCommandReencodes_CommandDecodeIsExact :
    decodeCommand 0x00310008 7 = .ok (.csrWrite 0x0031 7) ∧ decodeCommand 2 5 = .ok (.beginBaud 5) := by decide

theorem witness_StepRunsPresentedCommand :
    let s := presenting 0x00000003 9
    s.core.seq = .idle ∧ s.env.port = some (0x00000003, 9) ∧ decodeCommand 0x00000003 9 = .ok .poll := by decide

theorem witness_IllegalCommandResponds :
    let s := presenting 0x00000103 9
    s.core.seq = .idle ∧ s.env.port = some (0x00000103, 9) ∧ s.quiet ∧ decodeCommand 0x00000103 9 = .error (.mustBeZero 0x03) := by
  decide

/-- The clause where a byte is emitted (0x01) and the one where none is (0xFF). -/
theorem witness_StepRunsReceivedByte :
    (∀ r ∈ [(0x01 : Byte), 0xFF],
      let s := heldAt .poll .nextByte [r]
      s.core.seq = .held .poll .nextByte ∧ s.quiet ∧ s.env.openAt.isSome = true ∧ s.env.fifo = [r]) ∧
    (run1 (classifyRx false 0 0x01) (heldAt .poll .nextByte [0x01])).core.codecOut = some 0x01 ∧
    (run1 (classifyRx false 0 0xFF) (heldAt .poll .nextByte [0xFF])).core.codecOut = none := by decide

theorem witness_IdleCoreWaits :
    (let s := withScript moves s0
     s.core.seq = .idle ∧ s.env.port = none ∧ s.refill.undisturbed = true) ∧
    (let s := withSupply moves s0
     s.core.seq = .idle ∧ s.env.port = none ∧ s.refill.undisturbed = true) := by decide

theorem witness_ChecksumLaws : [(1 : Byte), 2, 3].Perm [3, 2, 1] := by decide

theorem witness_RawByteClasses_ReceiveClassesAct : (0x01 : Byte) ≠ 0 ∧ (0x55 : Byte) ≠ 0xAA ∧ (0x55 : Byte) ≠ 0xFF := by decide

theorem witness_SyncMarkerForwards :
    s0.core.ringFwdEn = true ∧ s0.env.script = [] ∧
    (s0.mapCore fun c => { c with ringFwdEn := false }).core.ringFwdEn = false := by decide

theorem witness_EscapePairsDecode : s0.core.esc = false ∧ (0x55 : Byte) ≠ 0xAA ∧ (0x55 : Byte) ≠ 0xFF := by decide

theorem witness_LogicalBytesIgnoreSyncState :
    let s := withScript moves s0
    let s' := s0.mapCore fun c => { c with syncCount := 9, ringFwdEn := false }
    s.undisturbed = true ∧ s'.undisturbed = true ∧ s.core.esc = s'.core.esc := by decide

theorem witness_SyncRunForwardsEachByte :
    s0.core.esc = false ∧ s0.core.syncCount = 0 ∧ s0.core.ringFwdEn = true ∧ s0.env.script = [] := by decide

theorem witness_TransmitFormsWrite :
    s0.env.script = [] ∧ ((0xAA : Byte) = 0xAA ∨ (0xAA : Byte) = 0xFF) ∧ (0x00 : Byte) ≠ 0xAA ∧ (0x00 : Byte) ≠ 0xFF := by
  decide

/-- SEND, and a form. -/
theorem witness_TransmitLeavesRegisters :
    (withScript moves (up 0 0 [1])).undisturbed = true ∧
    (∀ i ∈ [Instr.send, .txEscd 0xAA], goesOn (exec i (withScript moves (up 0 0 [1]))) = true) := by decide

theorem witness_HeaderPositions :
    (atPos 0 0).faPos = 0 ∧ (0x01 : Byte) ≠ 0xAA ∧ (atPos 1 0).faPos = 1 ∧ (atPos 2 0).faPos = 2 ∧ (atPos 3 0).faPos = 3 := by
  decide

/-- The lengths 5 and 6, and with `PAYLOAD_CAP = 4` the lengths 10 and 11. -/
theorem witness_LengthPosition :
    (s0.mapCore fun _ => atPos 4 0).core = atPos 4 0 ∧ s0.params = p0 ∧ (atPos 4 0).faPos = 4 ∧ (5 : Byte).toNat < 6 ∧
    6 ≤ (6 : Byte).toNat ∧ (6 : Byte).toNat - 6 ≤ p0.payloadCap.val ∧
    (let p : Params := { p0 with payloadCap := 4 }
     (10 : Byte).toNat - 6 ≤ p.payloadCap.val ∧ p.payloadCap.val < (11 : Byte).toNat - 6) := ⟨rfl, rfl, by decide⟩

/-- The first payload position, and the last of the longest frame. -/
theorem witness_PayloadPositions :
    (5 ≤ (atPos 5 7).faPos.toNat ∧ (atPos 5 7).faPos.toNat < (atPos 5 7).work.totalLength.toNat - 1) ∧
    (5 ≤ (atPos 253 255).faPos.toNat ∧ (atPos 253 255).faPos.toNat < (atPos 253 255).work.totalLength.toNat - 1) := by
  decide

/-- The shortest frame, with a checksum byte that agrees and one that does not. -/
theorem witness_ChecksumPositionCompletes :
    let c := atPos 5 6
    (s0.mapCore fun _ => c).core = c ∧ s0.params = p0 ∧ 5 ≤ c.faPos.toNat ∧ c.faPos.toNat = c.work.totalLength.toNat - 1 ∧
    csum ([c.work.preamble, c.work.nodeID, c.work.command, c.work.frameID, c.work.totalLength] ++
      c.work.payload.toList.take (c.work.totalLength.toNat - 6)) = 0xB0 ∧ (0xB0 : Byte) ≠ 0xB1 :=
  ⟨rfl, rfl, by decide +kernel⟩

/-- A framing error, a length error and a checksum mismatch. -/
theorem witness_ReceiveErrorsKeepSession :
    (faAccept p0 0x01 (atPos 0 0)).1 = .framing ∧ (faAccept p0 0x05 (atPos 4 0)).1 = .lenErr ∧
    (faAccept p0 0xB1 (atPos 5 6)).1 = .doneBad := by decide +kernel

theorem witness_BeginBaudOpens : s0.env.script = [] ∧ s0.core.fatal = false ∧ s0.env.present = true := by decide

theorem witness_BeginBaudDiscardsArrivals :
    let s := withScript [[], [], [], arrivals [0x12, 0x34]] s0
    s.env.script = [[], [], [], arrivals [0x12, 0x34]] ∧ s.core.fatal = false ∧ s.env.present = true ∧
      [(0x12 : Byte), 0x34].length ≤ s.params.fifoDepth.toNat := by decide

/-- The latch set; no channel; no candidate. -/
theorem witness_BeginChecks :
    (s0.mapCore fun c => { c with fatal := true }).core.fatal = true ∧
    (s0.mapEnv fun e => { e with present := false }).env.present = false ∧ s0.env.script = [] ∧ s0.core.fatal = false ∧
    s0.env.present = true ∧ s0.core.baudCount = 0 := by decide

theorem witness_BeginAutoAdoptsFirstCandidate :
    let s := withScript [[], [], [], [], arrivals (List.replicate p0.syncN 0xAA ++ [0x01])]
      (s0.mapCore fun c => { c with baudCount := 1 })
    s.env.script = List.replicate 4 [] ++ [arrivals (List.replicate s.params.syncN 0xAA ++ [0x01])] ∧ s.core.fatal = false ∧
      s.env.present = true ∧ s.core.baudCount ≠ 0 ∧ 0 < s.params.syncN ∧
      s.params.syncN + [(0x01 : Byte)].length ≤ s.params.fifoDepth.toNat := by decide

theorem witness_BeginAutoHoldsForSync :
    let s := s0.mapCore fun c => { c with baudCount := 1 }
    s.env.script = [] ∧ s.core.fatal = false ∧ s.env.present = true ∧ s.core.baudCount ≠ 0 ∧ 0 < s.params.syncN := by decide

theorem witness_AutodetectAccepts :
    let s := heldAt .poll (.autodetect 1) [0xAA, 0xAA, 0x07]
    s.core.seq = .held .poll (.autodetect 1) ∧ s.quiet ∧ s.env.openAt.isSome = true ∧ s.core.chOpen = true ∧
      s.env.fifo = List.replicate s.params.syncN 0xAA ++ [0x07] := by decide

/-- No attempt bound: the sync bytes arrive and end the autodetect, from either place, or too few arrive and it holds on. -/
theorem witness_AutodetectAccepts_unbounded :
    (∀ h ∈ [Hold.autodetect 1, .attempt 1],
      let s := withScript [[], [], [], [], arrivals [0xAA, 0xAA]]
        ((heldAt .beginAuto h []).mapCore fun c => { c with adMaxAttempts := 0 })
      s.core.seq = .held .beginAuto h ∧ s.core.adMaxAttempts = 0 ∧ s.refill.undisturbed = true ∧ goesOn (step s) = true ∧
        (after s (step s)).core.seq = .idle) ∧
    (let s := withSupply [arrivals [0xAA]] ((heldAt .beginAuto (.autodetect 1) []).mapCore fun c => { c with adMaxAttempts := 0 })
     s.refill.undisturbed = true ∧ goesOn (step s) = true ∧ (after s (step s)).core.seq = .held .beginAuto (.autodetect 1)) := by
  decide +kernel

/-- The last candidate is followed by candidate 0; and the bound is not reached, or there is none. -/
theorem witness_AutodetectTriesNextCandidate :
    let s := (heldAt .beginAuto (.autodetect 2) [0xAA, 0x55, 0x07]).mapCore fun c => { c with adAttempts := 3 }
    s.core.seq = .held .beginAuto (.autodetect 2) ∧ s.quiet ∧ s.env.openAt.isSome = true ∧
      s.env.fifo = [0xAA, 0x55] ++ [0x07] ∧ [(0xAA : Byte), 0x55].length = s.params.syncN ∧
      (∃ b ∈ [(0xAA : Byte), 0x55], b ≠ 0xAA) ∧ (s.core.adMaxAttempts = 0 ∨ s.core.adAttempts ≠ s.core.adMaxAttempts) ∧
      0 < s.core.baudCount.toNat ∧ s.core.baudCount.toNat ≤ 8 ∧
      (0 : BitVec 3).toNat = ((2 : BitVec 3).toNat + 1) % s.core.baudCount.toNat := by decide

/-- At the last candidate, and with a single one. -/
theorem witness_AutodetectTriesNextCandidate_forever : ∀ n ∈ [(3 : BitVec 4), 1],
    let s := withSupply [arrivals [0xAA, 0x55]] ((heldAt .beginAuto (.autodetect (n.setWidth 3 - 1)) []).mapCore fun c =>
      { c with adMaxAttempts := 0, baudCount := n, baudIndex := n.setWidth 3 - 1 })
    let s := s.mapEnv fun e => { e with openAt := some (baudAt s.core s.core.baudIndex) }
    s.core.seq = .held .beginAuto (.autodetect s.core.baudIndex) ∧ s.core.chOpen = true ∧
      s.env.openAt = some (baudAt s.core s.core.baudIndex) ∧ s.env.fifo = [] ∧ s.env.script = [] ∧
      s.env.supply = .again [arrivals [0xAA, 0x55]] ∧ [(0xAA : Byte), 0x55].length = s.params.syncN ∧
      [(0xAA : Byte), 0x55].length ≤ s.params.fifoDepth.toNat ∧ (∃ b ∈ [(0xAA : Byte), 0x55], b ≠ 0xAA) ∧
      s.core.adMaxAttempts = 0 ∧ s.core.baudIndex.toNat < s.core.baudCount.toNat ∧ s.core.baudCount.toNat ≤ 8 := by decide

theorem witness_AutodetectGivesUp :
    let s := heldAt .beginAuto (.autodetect 2) [0xAA, 0x55, 0x07]
    s.core.seq = .held .beginAuto (.autodetect 2) ∧ s.quiet ∧ s.env.openAt.isSome = true ∧
      s.env.fifo = [0xAA, 0x55] ++ [0x07] ∧ [(0xAA : Byte), 0x55].length = s.params.syncN ∧
      (∃ b ∈ [(0xAA : Byte), 0x55], b ≠ 0xAA) ∧ s.core.adMaxAttempts ≠ 0 ∧ s.core.adAttempts = s.core.adMaxAttempts := by
  decide

theorem witness_PollWhenDown : s0.env.script = [] ∧ s0.core.ready = false := by decide

theorem witness_SetNoRestartWritesFlag : s0.env.script = [] := by decide

/-- PO2: elapsed exactly the timeout, five bytes buffered. -/
theorem witness_PollWithinQuietPeriod :
    let s := up 1000 51000 [1, 2, 3, 4, 5]
    s.env.script = [] ∧ s.core.ready = true ∧ s.env.avail < 6 ∧
      (s.env.now.toNat + 2 ^ 32 - s.core.lastAct.toNat) % 2 ^ 32 ≤ s.core.quietTimeout.toNat := by decide

/-- PO4, P4 and EX4: elapsed one more than the timeout; the restart disabled, no candidate, no channel. -/
theorem witness_PollGoesDown :
    let s := up 1000 51001 [1, 2, 3, 4, 5]
    s.env.script = [] ∧ s.core.ready = true ∧ s.core.fatal = false ∧ s.env.avail < 6 ∧
      s.core.quietTimeout.toNat < (s.env.now.toNat + 2 ^ 32 - s.core.lastAct.toNat) % 2 ^ 32 ∧
      s.env.present = true ∧ s.core.baudCount = 0 ∧ s.core.autoRestartDisabled = false ∧
      (s.mapCore fun c => { c with autoRestartDisabled := true }).core.autoRestartDisabled = true ∧
      (s.mapEnv fun e => { e with present := false }).env.present = false := by decide

theorem witness_PollRestarts :
    let s := withScript [[], [], [], [], [], [], [], arrivals (List.replicate p0.syncN 0xAA)]
      ((up 1000 51001 []).mapCore fun c => { c with baudCount := 1 })
    s.env.script = List.replicate 7 [] ++ [arrivals (List.replicate s.params.syncN 0xAA)] ∧ s.core.ready = true ∧
      s.core.fatal = false ∧ s.env.avail < 6 ∧
      s.core.quietTimeout.toNat < (s.env.now.toNat + 2 ^ 32 - s.core.lastAct.toNat) % 2 ^ 32 ∧
      s.core.autoRestartDisabled = false ∧ s.env.present = true ∧ s.core.baudCount ≠ 0 ∧ 0 < s.params.syncN ∧
      s.params.syncN ≤ s.params.fifoDepth.toNat := by decide

theorem witness_PollTrafficWins :
    let s := up 0 60000 [1, 2, 3, 4, 5, 6]
    s.env.script = [] ∧ s.core.ready = true ∧ 6 ≤ s.env.avail ∧ goesOn (exec .poll s) = true := by decide

/-- TX2: the checksum byte is sent as an escape pair. -/
def tx2 : TxFrame := { nodeID := 0, command := 0, frameID := 0xFA, totalLength := 6, payload := Bank.zero }

theorem witness_SentFrameIsReceived :
    let s := up 0 0 (rawFrame tx2)
    s.core.work = Frame.empty ∧ s.env.fifo = rawFrame tx2 ∧ s.env.script = [] ∧ s.core.ready = true ∧ s.core.esc = false ∧
      s.core.faPos = 0 ∧ s.env.openAt.isSome = true ∧ 6 ≤ tx2.totalLength.toNat ∧
      tx2.totalLength.toNat - 6 ≤ s.params.payloadCap.val :=
  ⟨rfl, rfl, by decide⟩

theorem witness_ResetClosesChannel :
    (up 0 0 [1]).env.script = [] ∧ goesOn (exec .reset (up 0 0 [1])) = true ∧
    goesOn (exec .reset (run1 .reset (up 0 0 [1]))) = true := by decide

/-- Not ready; the lengths 5 and 6; with `PAYLOAD_CAP = 4`, the lengths 11 and 10. -/
theorem witness_SendTransmitsFrame :
    s0.core.ready = false ∧ s0.env.script = [] ∧ (5 : Byte).toNat < 6 ∧
    (let s := (up 0 0 []).mapCore fun c => { c with tx := tx2 }
     s.core.ready = true ∧ 6 ≤ s.core.tx.totalLength.toNat ∧ s.core.tx.totalLength.toNat - 6 ≤ s.params.payloadCap.val ∧
      s.env.script = []) ∧
    (let p : Params := { p0 with payloadCap := 4 }
     p.payloadCap.val < (11 : Byte).toNat - 6 ∧ (10 : Byte).toNat - 6 ≤ p.payloadCap.val) := by decide

theorem witness_SendCompletes :
    let s := withScript (List.replicate 8 [] ++ [[.flushDone]]) ((up 0 0 []).mapCore fun c => { c with tx := tx2 })
    s.core.ready = true ∧ 6 ≤ s.core.tx.totalLength.toNat ∧ s.core.tx.totalLength.toNat - 6 ≤ s.params.payloadCap.val ∧
      (rawFrame s.core.tx).length < 8 ∧ s.env.script = List.replicate 8 [] ++ [[.flushDone]] := by decide +kernel

theorem witness_RawFrameLength : 6 ≤ tx2.totalLength.toNat := by decide

theorem witness_CsrReadAnswers : s0.env.script = [] ∧ csrAt p0 0x01FA = none ∧ csrAt p0 0x01F9 = some (.rxPay 249) := by decide

/-- The ends of the three windows. -/
theorem witness_CsrMapIsExact :
    csrAt p0 0x0018 = none ∧ s0.params = p0 ∧ s0.env.script = [] ∧ (0x0017 : CsrAddr).toNat = 0x0010 + (7 : BitVec 3).toNat ∧ 249 < p0.payloadCap.val ∧
    (0x01F9 : CsrAddr).toNat = 0x0100 + 249 ∧ (0x02F9 : CsrAddr).toNat = 0x0200 + 249 := by decide

/-- Unmapped; read-only; BAUD_COUNT 9; BAUD_COUNT 8, another register that reads as before, and the first entry past the cap. -/
theorem witness_CsrWriteStores :
    s0.env.script = [] ∧ s0.params = p0 ∧ csrAt p0 0x0018 = none ∧ csrAt p0 0x0003 = some .curBaud ∧ Csr.curBaud.writable = none ∧
    csrAt p0 0x0005 = some .baudCount ∧ Csr.baudCount.illegalValue 9 = true ∧ Csr.baudCount.illegalValue 8 = false ∧
    Csr.baudCount.writable = some (0xF, 0) ∧ (0x0006 : CsrAddr) ≠ 0x0005 ∧ csrAt p0 0x0006 = some .baudIndex ∧
    p0.payloadCap.val ≤ 250 := by decide

theorem witness_TxFrameCommandsLoadFrame :
    [(0xFF : Byte)].length ≤ 249 ∧ [(0xFF : Byte)].length ≤ s0.params.payloadCap.val ∧ s0.env.script = [] := by decide

/-- The machine in a turn with a hardware reset: idle, presenting a command, and at each hold; and a BEGIN_BAUD that is aborted
in its third turn, after its Close event. -/
theorem witness_HardwareResetAbortsHold :
    let reset : List EnvMove := [.advance 1, .hwReset (some 9600) [1]]
    reset.any EnvMove.isReset = true ∧ (Instr.beginBaud 9600).isCommand = true ∧
    (withScript [reset, []] s0).refill.env.script = reset :: [[]] ∧ (withSupply [reset, []] s0).refill.env.script = reset :: [[]] ∧
    (withScript [reset, []] s0).env.script = reset :: [[]] ∧ (withScript [reset, []] s0).core.seq = .idle ∧
    (presenting 3 0).core.seq = .idle ∧ (heldAt .poll .nextByte []).core.seq = .held .poll .nextByte ∧
    (heldAt .beginAuto (.autodetect 1) [1]).core.seq = .held .beginAuto (.autodetect 1) ∧
    (heldAt .send .flush []).core.seq = .held .send .flush ∧
    (let s := withScript ([[], [.arrive 5 0]] ++ reset :: [[]]) s0
     goesOn (exec (.beginBaud 9600) s) = true ∧ (run1 (.beginBaud 9600) s).env.script.length ≤ [([] : List EnvMove)].length ∧
      (run1 (.beginBaud 9600) s).trace = [.closed] ∧ ∀ e ∈ [[], [EnvMove.arrive 5 0]], e.any EnvMove.isReset = false) := by decide

theorem witness_HoldsNeedTheEnvironment :
    (∀ h ∈ [Hold.nextByte, .autodetect 1, .flush],
      (heldAt .poll h []).core.seq = .held .poll h ∧ (heldAt .poll h []).quiet) ∧
    (heldAt .poll .nextByte []).env.avail = 0 ∧
    (heldAt .beginAuto (.autodetect 1) [1]).env.avail < (heldAt .beginAuto (.autodetect 1) [1]).params.syncN ∧
    (heldAt .send .flush []).env.flushPending = true := by decide

/-- Each of the four cases arises. -/
theorem witness_HoldsAreThree :
    (∀ i ∈ [Instr.reset, .poll, .beginAuto, .send], i.isCommand = true) ∧
    (run1 .reset s0).core.seq = .idle ∧
    (run1 .poll (up 0 0 [0xAA, 1, 2, 3, 7, 0xFF])).core.seq = .held .poll .nextByte ∧
    (run1 .beginAuto (s0.mapCore fun c => { c with baudCount := 1 })).core.seq = .held .beginAuto (.autodetect 0) ∧
    (run1 .send ((up 0 0 []).mapCore fun c => { c with tx := tx2 })).core.seq = .held .send .flush ∧
    (∀ h ∈ [Hold.nextByte, .autodetect 1, .attempt 1, .flush], goesOn (step (heldAt .poll h [])) = true) := by
  decide +kernel

/-- A command that responds, and one that holds. -/
theorem witness_OneResponsePerCommand :
    (withScript moves s0).undisturbed = true ∧ (Instr.csrRead 0x0002).isCommand = true ∧
    goesOn (exec (.csrRead 0x0002) (withScript moves s0)) = true ∧
    goesOn (exec .poll (up 0 0 [0xAA, 1, 2, 3, 7, 0xFF])) = true := by decide

/-- A held command that ends, one that holds on, and an illegal command with a second one presented meanwhile. -/
theorem witness_OneResponsePerCommand_steps :
    (∀ bs ∈ [[0x01], ([] : List Byte)],
      (heldAt .poll .nextByte bs).refill.undisturbed = true ∧ goesOn (step (heldAt .poll .nextByte bs)) = true) ∧
    Instr.poll.mayHold .nextByte = true ∧ (after s0 (step (heldAt .poll .nextByte [0x01]))).core.seq = .idle ∧
    (after s0 (step (heldAt .poll .nextByte []))).core.seq = .held .poll .nextByte ∧
    (let s := withScript [[.issue 3 0]] (presenting 0x00000103 9)
     s.refill.undisturbed = true ∧ s.env.port = some (0x00000103, 9) ∧ decodeCommand 0x00000103 9 = .error (.mustBeZero 0x03) ∧
      goesOn (step s) = true) := by decide

theorem witness_TraceOnlyGrows :
    goesOn (exec .reset (withScript [[.hwReset none []]] s0)) = true ∧ goesOn (step (presenting 4 0)) = true := by decide

/-- In the first step of BEGIN_BAUD, and where BEGIN_AUTO goes on from HOLD_AD. -/
theorem witness_OnlyBeginSetsReady :
    s0.core.ready = false ∧ (run1 (.beginBaud 9600) s0).core.ready = true ∧ goesOn (exec (.beginBaud 9600) s0) = true ∧
    (let s := (heldAt .beginAuto (.autodetect 1) [0xAA, 0xAA]).mapCore fun c => { c with ready := false }
     s.core.ready = false ∧ (after s (step s)).core.ready = true ∧ goesOn (step s) = true) := by decide

theorem witness_FatalLatchHolds :
    let s := (presenting 4 0).mapCore fun c => { c with fatal := true }
    s.undisturbed = true ∧ s.refill.undisturbed = true ∧ s.core.fatal = true ∧ goesOn (exec .reset s) = true ∧
      goesOn (step s) = true := by decide

theorem witness_ConfigurationIsTheCallers :
    (∀ f, Instr.poll ≠ .setNoRestart f) ∧ (∀ a v, Instr.poll ≠ .csrWrite a v) ∧
    (withScript moves s0).undisturbed = true ∧ goesOn (exec .poll (withScript moves s0)) = true ∧
    (withScript moves (heldAt .send .flush [])).refill.undisturbed = true ∧
    goesOn (step (withScript moves (heldAt .send .flush []))) = true :=
  ⟨nofun, nofun, by decide, by decide, by decide, by decide⟩

/-- W1 and FA6: the RX frame changes, in the first step of POLL and where it goes on from HOLD_NB, with FRAME_READY. -/
theorem witness_RxFrameOnlyOnFrameReady :
    (let s := up 0 0 [0xAA, 0x01, 0x02, 0x03, 0x06, 0xB6]
     s.undisturbed = true ∧ goesOn (exec .poll s) = true ∧ (run1 .poll s).core.rx.nodeID ≠ s.core.rx.nodeID ∧
      (run1 .poll s).core.seq = .idle ∧ (run1 .poll s).trace.getLast? = some (.resp 0x01 0)) ∧
    (let s := withScript [arrivals [0x00, 0xB6]] (run1 .poll (up 0 0 [0xAA, 0x01, 0x02, 0x03, 0x07, 0xFF]))
     s.refill.undisturbed = true ∧ s.core.seq = .held .poll .nextByte ∧ goesOn (step s) = true ∧
      (after s (step s)).core.rx.nodeID ≠ s.core.rx.nodeID ∧ (after s (step s)).core.seq = .idle ∧
      (after s (step s)).trace.getLast? = some (.resp 0x01 0)) := by decide +kernel

theorem witness_ModeIsIgnored :
    (∀ a, Instr.poll ≠ .csrRead a) ∧ (∀ a v, Instr.poll ≠ .csrWrite a v) ∧ (up 0 0 [1, 2, 3, 4, 5, 6]).undisturbed = true ∧
    goesOn (exec .poll (up 0 0 [1, 2, 3, 4, 5, 6])) = true ∧ (heldAt .poll .nextByte [1]).refill.undisturbed = true ∧
    goesOn (step (heldAt .poll .nextByte [1])) = true :=
  ⟨nofun, nofun, by decide, by decide, by decide, by decide⟩

/-- A ready session with bytes buffered and a POLL presented. -/
theorem witness_StepKeepsInvariants :
    let s := (up 0 0 [0xAA, 0x01, 0x02, 0x03, 0x06, 0xB6]).mapEnv fun e => { e with port := some (3, 0) }
    s.Inv ∧ goesOn (step s) = true := by
  refine ⟨?_, by decide +kernel⟩
  constructor
  case start_empty => exact fun _ => rfl
  case body => decide
  case work_tail =>
    intro i _
    show Bank.zero.get i = 0
    simp only [Bank.get, Bank.zero, Vector.getElem?_replicate]
    split <;> rfl
  case rx_valid => exact .inl rfl
  case escape_held => exact nofun
  case not_running => exact ⟨nofun, nofun⟩
  case held_by => exact nofun
  case scanning => rintro i idx (h | h) <;> exact absurd h nofun
  case attempt_open => exact nofun
  all_goals decide

end Sys2Proof.Tests
end

section
/-! PROOF of O58: CONFIG.MODE changes nothing in the core (spec/00_scope.md R19). Two states that differ in the mode bit alone
run in step: replacing the bit commutes with every turn of an undisturbed environment (a hardware reset would set the bit to its
reset value), hence with every primitive, and binding keeps it; so it commutes with every procedure that does not read the bit
itself, which only the register accesses do (R42). -/

namespace Sys2Proof.Machine

/-! ## Replacing the mode bit -/

/-- The registers with CONFIG.MODE replaced. -/
def Regs.withMode (m : Bool) (c : Regs) : Regs := { c with mode := m }

/-- The state with CONFIG.MODE replaced. -/
def State.withMode (m : Bool) (s : State) : State := s.mapCore (Regs.withMode m)

@[simp] theorem State.withMode_core (m : Bool) (s : State) : (s.withMode m).core = s.core.withMode m := rfl
@[simp] theorem State.withMode_env (m : Bool) (s : State) : (s.withMode m).env = s.env := rfl
@[simp] theorem State.withMode_trace (m : Bool) (s : State) : (s.withMode m).trace = s.trace := rfl
@[simp] theorem State.withMode_params (m : Bool) (s : State) : (s.withMode m).params = s.params := rfl

/-- Whether the environment is undisturbed stands in its script alone. -/
theorem State.undisturbed_of_script_eq {s t : State} (h : t.env.script = s.env.script) (hs : s.undisturbed = true) :
    t.undisturbed = true := by
  unfold State.undisturbed at hs ⊢
  rwa [h]

theorem State.refill_withMode (m : Bool) (s : State) : (s.withMode m).refill = s.refill.withMode m := by
  unfold State.refill
  rw [State.withMode_env]
  split <;> rfl

/-- A move other than a hardware reset neither reads nor writes the mode bit. -/
theorem applyMove_withMode {e : EnvMove} (m : Bool) (s : State) (h : e.isReset = false) :
    applyMove e (s.withMode m) = (applyMove e s).withMode m := by
  cases e with
  | hwReset o f => simp [EnvMove.isReset] at h
  | issue cmd data =>
    change (if s.core.seq = .idle ∧ s.env.port = none then _ else _) = State.withMode m (if _ then _ else _)
    split <;> rfl
  | _ => rfl

theorem applyTurn_withMode {ms : List EnvMove} (m : Bool) (s : State) (h : ms.any EnvMove.isReset = false) :
    applyTurn ms (s.withMode m) = (applyTurn ms s).withMode m := by
  induction ms generalizing s with
  | nil => rfl
  | cons e ms ih =>
    simp only [List.any_cons, Bool.or_eq_false_iff] at h
    obtain ⟨he, hms⟩ := h
    rw [applyTurn, applyTurn, applyMove_withMode m s he, ih _ hms]

/-! ## Procedures that do not see the mode bit -/

/-- A run's result with the mode bit of its last state replaced. -/
def Proc.resultWithMode {α : Type} (m : Bool) : EStateM.Result Stop State α → EStateM.Result Stop State α
  | .ok a s => .ok a (s.withMode m)
  | .error e s => .error e (s.withMode m)

/-- In an undisturbed environment, replacing the mode bit before the run is replacing it after the run; and where the run ends
with a result, the environment is still undisturbed. -/
def Proc.ModeBlind {α : Type} (p : Proc α) : Prop :=
  ∀ (m : Bool) (s : State), s.undisturbed = true →
    p.run (s.withMode m) = Proc.resultWithMode m (p.run s) ∧ ∀ a t, p.run s = .ok a t → t.undisturbed = true

section
variable {α β : Type}

theorem Proc.ModeBlind.bind {p : Proc α} {k : α → Proc β} (hp : p.ModeBlind) (hk : ∀ a, (k a).ModeBlind) :
    (p >>= k).ModeBlind := by
  intro m s hs
  obtain ⟨hrun, hnext⟩ := hp m s hs
  cases hps : p.run s with
  | ok a t =>
    rw [hps] at hrun
    rw [Proc.bind_ok hrun, Proc.bind_ok hps]
    exact hk a m t (hnext a t hps)
  | error e t =>
    rw [hps] at hrun
    rw [Proc.bind_error hrun, Proc.bind_error hps]
    exact ⟨rfl, fun _ _ h => by cases h⟩

/-- A procedure that ends with a result, leaves the script alone and changes the rest of the state without regard to the bit. -/
theorem Proc.ModeBlind.of_run {p : Proc α} {a : State → α} {g : State → State} (h : ∀ s, p.run s = .ok (a s) (g s))
    (ha : ∀ m s, a (s.withMode m) = a s) (hg : ∀ m s, g (s.withMode m) = (g s).withMode m)
    (hscript : ∀ s, (g s).env.script = s.env.script) : p.ModeBlind := by
  intro m s hs
  refine ⟨by rw [h, h, ha, hg]; rfl, fun b t ht => ?_⟩
  rw [h] at ht
  cases ht
  exact State.undisturbed_of_script_eq (hscript s) hs

theorem Proc.modeBlind_pure (a : α) : (pure a : Proc α).ModeBlind :=
  .of_run (fun _ => rfl) (fun _ _ => rfl) (fun _ _ => rfl) fun _ => rfl

theorem Proc.modeBlind_params : params.ModeBlind :=
  .of_run (fun _ => rfl) (fun _ _ => rfl) (fun _ _ => rfl) fun _ => rfl

theorem Proc.modeBlind_change {g : State → State} (hg : ∀ m s, g (s.withMode m) = (g s).withMode m)
    (hscript : ∀ s, (g s).env.script = s.env.script) : (change g).ModeBlind :=
  .of_run (change_run g) (fun _ _ => rfl) hg hscript

theorem Proc.modeBlind_update {g : Regs → Regs} (hg : ∀ m c, g (c.withMode m) = (g c).withMode m) : (update g).ModeBlind :=
  Proc.modeBlind_change (fun m s => congrArg (fun c => { s with core := c }) (hg m s.core)) fun _ => rfl

theorem Proc.modeBlind_update_bind {g : Regs → Regs} {k : Unit → Proc β} (hg : ∀ m c, g (c.withMode m) = (g c).withMode m)
    (hk : (k ()).ModeBlind) : (update g >>= k).ModeBlind :=
  (Proc.modeBlind_update hg).bind fun _ => hk

/-- What follows a read of the registers may use all of them but the bit. -/
theorem Proc.modeBlind_regs_bind {k : Regs → Proc β} (hread : ∀ m c, k (c.withMode m) = k c) (hk : ∀ c, (k c).ModeBlind) :
    (regs >>= k).ModeBlind := by
  intro m s hs
  rw [Proc.bind_ok (regs_run _), Proc.bind_ok (regs_run s), State.withMode_core, hread]
  exact hk s.core m s hs

/-- What follows a read of the whole state may use all of it but the bit. -/
theorem Proc.modeBlind_theState_bind {k : State → Proc β} (hread : ∀ m s, k (s.withMode m) = k s)
    (hk : ∀ s, (k s).ModeBlind) : (theState >>= k).ModeBlind := by
  intro m s hs
  rw [Proc.bind_ok (theState_run _), Proc.bind_ok (theState_run s), hread]
  exact hk s m s hs

theorem Proc.modeBlind_ite {b : Prop} [Decidable b] {p q : Proc α} (hp : p.ModeBlind) (hq : q.ModeBlind) :
    (if b then p else q).ModeBlind := by
  split
  · exact hp
  · exact hq

theorem modeBlind_haltAt (h : Hold) : (haltAt h : Proc α).ModeBlind :=
  fun _ _ _ => ⟨rfl, fun _ _ h => by cases h⟩

end

/-! ## The primitives of R15 -/

theorem modeBlind_tick : tick.ModeBlind := by
  intro m s hs
  obtain ⟨e, he, -, -, -, hu⟩ := tick_undisturbed hs
  refine ⟨?_, fun a t ht => ?_⟩
  · cases hq : s.env.script with
    | nil => rw [tick_quiet hq, tick_quiet (s := s.withMode m) hq]; rfl
    | cons turn rest =>
      have hr : turn.any EnvMove.isReset = false := by
        simp only [State.undisturbed, hq, List.all_cons, Bool.and_eq_true] at hs
        obtain ⟨hturn, -⟩ := hs
        simpa using hturn
      rw [tick_turn hq hr, tick_turn (s := s.withMode m) hq hr]
      exact congrArg (EStateM.Result.ok ()) (applyTurn_withMode m (s.mapEnv fun e => { e with script := rest }) hr)
  · rw [he] at ht
    cases ht
    exact hu

theorem modeBlind_waitFor {c : State → Bool} (hc : ∀ m s, c (s.withMode m) = c s) (h : Hold) (n : Nat) :
    (waitFor c h n).ModeBlind := by
  induction n with
  | zero =>
    exact Proc.modeBlind_theState_bind (fun m s => by rw [hc]) fun s =>
      Proc.modeBlind_ite (Proc.modeBlind_pure _) (modeBlind_haltAt h)
  | succ n ih =>
    exact Proc.modeBlind_theState_bind (fun m s => by rw [hc]) fun s =>
      Proc.modeBlind_ite (Proc.modeBlind_pure _) (modeBlind_tick.bind fun _ => ih)

theorem modeBlind_waitUntil {c : State → Bool} (hc : ∀ m s, c (s.withMode m) = c s) (h : Hold) :
    (waitUntil c h).ModeBlind :=
  Proc.modeBlind_theState_bind (fun _ _ => rfl) fun s => modeBlind_waitFor hc h s.env.script.length

/-- A sampled input or a look at the channel: a turn, then a read of the environment. -/
theorem modeBlind_tick_read {α : Type} {f : State → α} (hf : ∀ m s, f (s.withMode m) = f s) :
    (tick >>= fun _ => theState >>= fun s => pure (f s)).ModeBlind :=
  modeBlind_tick.bind fun _ => Proc.modeBlind_theState_bind (fun m s => by rw [hf]) fun _ => Proc.modeBlind_pure _

theorem modeBlind_now : now.ModeBlind := modeBlind_tick_read fun _ _ => rfl
theorem modeBlind_chPresent : chPresent.ModeBlind := modeBlind_tick_read fun _ _ => rfl
theorem modeBlind_chAvail : chAvail.ModeBlind := modeBlind_tick_read fun _ _ => rfl

theorem modeBlind_chOpen (b : Word) : (chOpen b).ModeBlind :=
  modeBlind_tick.bind fun _ => Proc.modeBlind_change (fun _ _ => rfl) fun _ => rfl

theorem modeBlind_chClose : chClose.ModeBlind :=
  modeBlind_tick.bind fun _ => Proc.modeBlind_change (fun _ _ => rfl) fun _ => rfl

theorem modeBlind_popByte : popByte.ModeBlind := by
  intro m s hs
  cases hf : s.env.fifo with
  | nil => simp [popByte, hf, Proc.resultWithMode]
  | cons b rest =>
    rw [popByte_run hf, popByte_run (s := s.withMode m) hf]
    refine ⟨rfl, fun a t ht => ?_⟩
    cases ht
    exact State.undisturbed_of_script_eq rfl hs

theorem modeBlind_chRead : chRead.ModeBlind := modeBlind_tick.bind fun _ => modeBlind_popByte

/-- `ChWrite` and `RingWrite`: a turn, then an event. -/
theorem modeBlind_tick_emit (e : Event) : (tick >>= fun _ => change (State.emit e)).ModeBlind :=
  modeBlind_tick.bind fun _ => Proc.modeBlind_change (fun _ _ => rfl) fun _ => rfl

theorem modeBlind_chWrite (b : Byte) : (chWrite b).ModeBlind := modeBlind_tick_emit (.write b)
theorem modeBlind_ringWrite (b : Byte) : (ringWrite b).ModeBlind := modeBlind_tick_emit (.ring b)

theorem modeBlind_waitFlush : waitFlush.ModeBlind := modeBlind_waitUntil (fun _ _ => rfl) .flush

theorem modeBlind_chFlush : chFlush.ModeBlind :=
  modeBlind_tick.bind fun _ => (Proc.modeBlind_change (g := State.requestFlush) (fun _ _ => rfl) fun _ => rfl).bind fun _ =>
    modeBlind_waitFlush

/-! ## The Byte Codec -/

theorem modeBlind_codecClear : codecClear.ModeBlind := Proc.modeBlind_update fun _ _ => rfl

theorem modeBlind_ringForward : ringForward.ModeBlind :=
  Proc.modeBlind_regs_bind (fun _ _ => rfl) fun _ =>
    Proc.modeBlind_ite (modeBlind_ringWrite _) (Proc.modeBlind_pure _)

theorem modeBlind_rxClass (i : Instr) : (rxClass i).ModeBlind := by
  cases i with
  | rxEscaped raw => exact Proc.modeBlind_update fun _ _ => rfl
  | rxEsc => exact Proc.modeBlind_update fun _ _ => rfl
  | rxSync => exact modeBlind_ringForward.bind fun _ => Proc.modeBlind_update fun _ _ => rfl
  | rxAa => exact Proc.modeBlind_update fun _ _ => rfl
  | rxData raw => exact Proc.modeBlind_update fun _ _ => rfl
  | _ => exact Proc.modeBlind_pure _

theorem modeBlind_codecRx (raw : Byte) : (codecRx raw).ModeBlind :=
  Proc.modeBlind_regs_bind (fun _ _ => rfl) fun _ => (modeBlind_rxClass _).bind fun _ =>
    Proc.modeBlind_regs_bind (fun _ _ => rfl) fun _ => Proc.modeBlind_pure _

theorem modeBlind_nextRaw : nextRaw.ModeBlind :=
  (modeBlind_waitUntil (fun _ _ => rfl) .nextByte).bind fun _ => modeBlind_chRead.bind modeBlind_codecRx

theorem modeBlind_nextByteIn (n : Nat) : (nextByteIn n).ModeBlind := by
  induction n with
  | zero => exact modeBlind_haltAt .nextByte
  | succ n ih =>
    refine modeBlind_nextRaw.bind fun o => ?_
    cases o with
    | some b => exact Proc.modeBlind_pure b
    | none => exact ih

theorem modeBlind_nextByte : nextByte.ModeBlind := modeBlind_nextByteIn 2

theorem modeBlind_txForm (i : Instr) : (txForm i).ModeBlind := by
  cases i with
  | txPre => exact modeBlind_chWrite _
  | txLit b => exact modeBlind_chWrite b
  | txEscd b => exact (modeBlind_chWrite _).bind fun _ => modeBlind_chWrite _
  | _ => exact Proc.modeBlind_pure _

theorem modeBlind_codecTxAll (bs : List Byte) : (codecTxAll bs).ModeBlind := by
  induction bs with
  | nil => exact Proc.modeBlind_pure ()
  | cons b bs ih => exact (modeBlind_txForm (classifyTx b)).bind fun _ => ih

/-! ## The Frame Assembler -/

/-- `FaAccept` neither reads nor writes the mode bit (R184). -/
theorem faAccept_withMode (p : Params) (b : Byte) (m : Bool) (c : Regs) :
    faAccept p b (c.withMode m) = Prod.map id (Regs.withMode m) (faAccept p b c) := by
  unfold faAccept faComplete
  simp only [apply_ite (Prod.map id (Regs.withMode m))]
  rfl

theorem modeBlind_acceptByte (b : Byte) : (acceptByte b).ModeBlind :=
  .of_run (a := fun s => (faAccept s.params b s.core).1) (g := fun s => s.mapCore fun _ => (faAccept s.params b s.core).2)
    (acceptByte_run b) (fun m s => by simp [faAccept_withMode])
    (fun m s => congrArg (fun r => { s with core := r.2 }) (faAccept_withMode s.params b m s.core)) fun _ => rfl

theorem modeBlind_assembleByte (b : Byte) {k : Proc Code} (hk : k.ModeBlind) : (assembleByte b k).ModeBlind := by
  refine (modeBlind_acceptByte b).bind fun r => ?_
  cases r with
  | cont => exact hk
  | _ => exact Proc.modeBlind_pure _

theorem modeBlind_assembleIn (n : Nat) : (assembleIn n).ModeBlind := by
  induction n with
  | zero => exact Proc.modeBlind_pure _
  | succ n ih =>
    exact modeBlind_chAvail.bind fun _ => Proc.modeBlind_ite
      (modeBlind_nextByte.bind fun b => modeBlind_assembleByte b ih) (Proc.modeBlind_pure _)

theorem modeBlind_assemble : assemble.ModeBlind := modeBlind_assembleIn 256

/-! ## The Baud Autodetector -/

theorem modeBlind_readMany (n : Nat) : (readMany n).ModeBlind := by
  induction n with
  | zero => exact Proc.modeBlind_pure []
  | succ n ih => exact modeBlind_chRead.bind fun _ => ih.bind fun _ => Proc.modeBlind_pure _

theorem modeBlind_chDiscard : chDiscard.ModeBlind :=
  modeBlind_chAvail.bind fun n => (modeBlind_readMany n).bind fun _ => Proc.modeBlind_pure ()

theorem modeBlind_attemptRead (idx : BitVec 3) : (attemptRead idx).ModeBlind :=
  Proc.modeBlind_params.bind fun _ => (modeBlind_waitUntil (fun _ _ => rfl) _).bind fun _ =>
    (modeBlind_readMany _).bind fun _ => Proc.modeBlind_pure _

theorem modeBlind_attempt (idx : BitVec 3) : (attempt idx).ModeBlind :=
  Proc.modeBlind_update_bind (fun _ _ => rfl) <| modeBlind_chClose.bind fun _ =>
    Proc.modeBlind_regs_bind (fun _ _ => rfl) fun _ => (modeBlind_chOpen _).bind fun _ =>
      modeBlind_chDiscard.bind fun _ => modeBlind_attemptRead idx

theorem modeBlind_acceptBaud (idx : BitVec 3) : (acceptBaud idx).ModeBlind :=
  Proc.modeBlind_update_bind (fun _ _ => rfl) <| Proc.modeBlind_pure _

theorem modeBlind_scan (n : Nat) (idx : BitVec 3) : (scan n idx).ModeBlind := by
  induction n generalizing idx with
  | zero => exact modeBlind_haltAt (.attempt idx)
  | succ n ih =>
    refine Proc.modeBlind_regs_bind (fun _ _ => rfl) fun _ => Proc.modeBlind_ite ?spent ?again
    case spent => exact modeBlind_chClose.bind fun _ => Proc.modeBlind_pure _
    case again =>
      exact Proc.modeBlind_update_bind (fun _ _ => rfl) <| (modeBlind_attempt idx).bind fun _ =>
        Proc.modeBlind_ite (modeBlind_acceptBaud idx) (Proc.modeBlind_regs_bind (fun _ _ => rfl) fun _ => ih _)

theorem modeBlind_scanFrom (idx : BitVec 3) : (scanFrom idx).ModeBlind :=
  Proc.modeBlind_theState_bind (fun _ _ => rfl) fun _ => modeBlind_scan _ idx

theorem modeBlind_autodetect : autodetect.ModeBlind :=
  Proc.modeBlind_update_bind (fun _ _ => rfl) <| modeBlind_scanFrom 0

theorem modeBlind_autodetectResume (idx : BitVec 3) : (autodetectResume idx).ModeBlind :=
  (modeBlind_attemptRead idx).bind fun _ => Proc.modeBlind_ite (modeBlind_acceptBaud idx)
    (Proc.modeBlind_regs_bind (fun _ _ => rfl) fun _ => modeBlind_scanFrom _)

/-! ## The Bus Session -/

theorem modeBlind_beginFinish : beginFinish.ModeBlind :=
  modeBlind_codecClear.bind fun _ => Proc.modeBlind_update_bind (fun _ _ => rfl) <| modeBlind_now.bind fun _ =>
    Proc.modeBlind_update_bind (fun _ _ => rfl) <| Proc.modeBlind_pure _

theorem modeBlind_beginAfterScan (r : Code) : (beginAfterScan r).ModeBlind :=
  Proc.modeBlind_ite modeBlind_beginFinish (Proc.modeBlind_pure r)

theorem modeBlind_begin (baud : Option Word) : (begin baud).ModeBlind := by
  refine Proc.modeBlind_regs_bind (fun _ _ => rfl) fun _ => Proc.modeBlind_ite (Proc.modeBlind_pure _)
    (modeBlind_chPresent.bind fun _ => Proc.modeBlind_ite ?absent ?present)
  case absent => exact Proc.modeBlind_update_bind (fun _ _ => rfl) <| Proc.modeBlind_pure _
  case present =>
    cases baud with
    | none =>
      exact Proc.modeBlind_ite (Proc.modeBlind_pure _) (Proc.modeBlind_update_bind (fun _ _ => rfl) <|
        modeBlind_autodetect.bind modeBlind_beginAfterScan)
    | some b =>
      exact Proc.modeBlind_update_bind (fun _ _ => rfl) <| modeBlind_chClose.bind fun _ =>
        (modeBlind_chOpen b).bind fun _ => modeBlind_chDiscard.bind fun _ =>
          Proc.modeBlind_update_bind (fun _ _ => rfl) <| modeBlind_beginFinish

theorem modeBlind_beginAutoProc : beginAutoProc.ModeBlind :=
  (modeBlind_begin none).bind fun _ => Proc.modeBlind_pure _

theorem modeBlind_beginBaudProc (baud : Word) : (beginBaudProc baud).ModeBlind :=
  (modeBlind_begin (some baud)).bind fun _ => Proc.modeBlind_pure _

theorem modeBlind_recover : recover.ModeBlind :=
  modeBlind_chClose.bind fun _ => Proc.modeBlind_update_bind (fun _ _ => rfl) <|
    Proc.modeBlind_regs_bind (fun _ _ => rfl) fun _ =>
      Proc.modeBlind_ite (Proc.modeBlind_pure _) ((modeBlind_begin none).bind fun _ => Proc.modeBlind_pure _)

theorem modeBlind_pollProc : pollProc.ModeBlind := by
  refine Proc.modeBlind_regs_bind (fun _ _ => rfl) fun _ => Proc.modeBlind_ite (Proc.modeBlind_pure _)
    (modeBlind_now.bind fun _ => modeBlind_chAvail.bind fun _ => Proc.modeBlind_ite ?traffic ?silent)
  case traffic =>
    exact Proc.modeBlind_update_bind (fun _ _ => rfl) <| modeBlind_assemble.bind fun _ => Proc.modeBlind_pure _
  case silent =>
    exact Proc.modeBlind_regs_bind (fun _ _ => rfl) fun _ =>
      Proc.modeBlind_ite (modeBlind_recover.bind fun _ => Proc.modeBlind_pure _) (Proc.modeBlind_pure _)

theorem modeBlind_resetProc : resetProc.ModeBlind :=
  modeBlind_chClose.bind fun _ => Proc.modeBlind_update_bind (fun _ _ => rfl) <| Proc.modeBlind_pure _

theorem modeBlind_setNoRestartProc (flag : Bool) : (setNoRestartProc flag).ModeBlind :=
  Proc.modeBlind_update_bind (fun _ _ => rfl) <| Proc.modeBlind_pure _

theorem modeBlind_sendProc : sendProc.ModeBlind :=
  Proc.modeBlind_regs_bind (fun _ _ => rfl) fun _ => Proc.modeBlind_params.bind fun _ =>
    Proc.modeBlind_ite (Proc.modeBlind_pure _) <| Proc.modeBlind_ite (Proc.modeBlind_pure _) <|
      (modeBlind_txForm .txPre).bind fun _ => (modeBlind_codecTxAll _).bind fun _ => modeBlind_chFlush.bind fun _ =>
        Proc.modeBlind_pure _

theorem modeBlind_resumeProc (i : Instr) (h : Hold) : (resumeProc i h).ModeBlind := by
  cases h with
  | nextByte =>
    have hresume : assembleResume.ModeBlind :=
      modeBlind_nextByte.bind fun b => modeBlind_assembleByte b modeBlind_assemble
    exact hresume.bind fun _ => Proc.modeBlind_pure _
  | autodetect idx =>
    exact (modeBlind_autodetectResume idx).bind fun r => (modeBlind_beginAfterScan r).bind fun _ => Proc.modeBlind_pure _
  | flush => exact modeBlind_waitFlush.bind fun _ => Proc.modeBlind_pure _
  | attempt idx =>
    exact (modeBlind_scanFrom idx).bind fun r => (modeBlind_beginAfterScan r).bind fun _ => Proc.modeBlind_pure _

/-! ## Instructions and steps -/

section
variable {s t : State}

/-- A command whose procedure does not see the mode bit, from two states that differ in it. -/
theorem runCommand_withMode {i : Instr} {p : Proc Reply} (hp : p.ModeBlind) (m : Bool) (hs : s.undisturbed = true)
    (h : runCommand i p s = .next t) : runCommand i p (s.withMode m) = .next (t.withMode m) := by
  have hanswer : (answer p).ModeBlind := hp.bind fun _ => modeBlind_tick.bind fun _ => Proc.modeBlind_pure _
  have hrun : runCommand i p (s.withMode m) = settle (Proc.resultWithMode m ((answer p).run (s.setSeq (.busy i)))) :=
    congrArg settle (hanswer m (s.setSeq (.busy i)) (State.undisturbed_of_script_eq rfl hs)).1
  rcases runCommand_cases i p s t h with ⟨r, u, hu, rfl⟩ | hu
  · rw [hrun, hu]; rfl
  · rw [hrun, hu]; rfl

/-- A receive class or a transmit form, from two states that differ in the mode bit. -/
theorem runForm_withMode {p : Proc Unit} (hp : p.ModeBlind) (m : Bool) (hs : s.undisturbed = true)
    (h : runForm p s = .next t) : runForm p (s.withMode m) = .next (t.withMode m) := by
  unfold runForm at h ⊢
  rw [(hp m s hs).1]
  cases hr : p.run s with
  | ok a u => rw [hr] at h; cases h; rfl
  | error e u =>
    rw [hr] at h
    cases e with
    | halted => cases h; rfl
    | fault f => cases h

/-- Every instruction but the register accesses commutes with replacing the mode bit. -/
theorem exec_withMode {i : Instr} (m : Bool) (hs : s.undisturbed = true) (hread : ∀ a, i ≠ .csrRead a)
    (hwrite : ∀ a v, i ≠ .csrWrite a v) (h : exec i s = .next t) : exec i (s.withMode m) = .next (t.withMode m) := by
  cases i with
  | beginAuto => exact runCommand_withMode modeBlind_beginAutoProc m hs h
  | beginBaud baud => exact runCommand_withMode (modeBlind_beginBaudProc baud) m hs h
  | poll => exact runCommand_withMode modeBlind_pollProc m hs h
  | reset => exact runCommand_withMode modeBlind_resetProc m hs h
  | setNoRestart flag => exact runCommand_withMode (modeBlind_setNoRestartProc flag) m hs h
  | send => exact runCommand_withMode modeBlind_sendProc m hs h
  | csrRead addr => exact absurd rfl (hread addr)
  | csrWrite addr data => exact absurd rfl (hwrite addr data)
  | rxEscaped raw => exact runForm_withMode (modeBlind_rxClass (.rxEscaped raw)) m hs h
  | rxEsc => exact runForm_withMode (modeBlind_rxClass .rxEsc) m hs h
  | rxSync => exact runForm_withMode (modeBlind_rxClass .rxSync) m hs h
  | rxAa => exact runForm_withMode (modeBlind_rxClass .rxAa) m hs h
  | rxData raw => exact runForm_withMode (modeBlind_rxClass (.rxData raw)) m hs h
  | txPre => exact runForm_withMode (modeBlind_txForm .txPre) m hs h
  | txLit b => exact runForm_withMode (modeBlind_txForm (.txLit b)) m hs h
  | txEscd b => exact runForm_withMode (modeBlind_txForm (.txEscd b)) m hs h

/-- Every step of a held command commutes with replacing the mode bit. -/
theorem step_held_withMode {i : Instr} {k : Hold} (m : Bool) (hs : s.refill.undisturbed = true)
    (hk : s.core.seq = .held i k) (h : step s = .next t) : step (s.withMode m) = .next (t.withMode m) := by
  rw [step_held hk] at h
  rw [step_held (s := s.withMode m) hk, State.refill_withMode]
  exact runCommand_withMode (modeBlind_resumeProc i k) m hs h

end

/-- Settles O58: the two runs commute with the replacement of the bit (`exec_withMode`, `step_held_withMode`). -/
theorem modeIsIgnored : Obligations.ModeIsIgnored := fun _ _ _ m =>
  ⟨exec_withMode m, fun _ hs hk h => step_held_withMode m hs hk h⟩

end Sys2Proof.Machine
end

section
/-! SUPPORT for O52, O54 to O57 and O60: a program logic for procedures. A run meets one postcondition in the states it ends in
with a result, and another in the states it stops in; a fault is left out, since a step that faults answers no next state. Each
procedure of the model is walked through once, over any predicate `I` on states that survives the elementary actions the procedure
takes; `H` is what holds where the step ends inside the procedure. -/

namespace Sys2Proof.Machine

/-! ## What a run meets -/

/-- From `s`, the run ends with a result only as `Q` says, and stops only as `H` says. -/
def Proc.Meets {α : Type} (p : Proc α) (Q : α → State → Prop) (H : State → Prop) (s : State) : Prop :=
  (∀ a t, p.run s = .ok a t → Q a t) ∧ ∀ t, p.run s = .error .halted t → H t

section
variable {α β : Type} {p q : Proc α} {k : α → Proc β} {Q R : α → State → Prop} {S : β → State → Prop} {H K : State → Prop}
  {s t : State}

theorem Proc.meets_of_ok {a : α} (h : p.run s = .ok a t) (hQ : Q a t) : p.Meets Q H s :=
  ⟨fun _ _ hr => by rw [h] at hr; cases hr; exact hQ, fun _ hr => by rw [h] at hr; cases hr⟩

theorem Proc.meets_of_halted (h : p.run s = .error .halted t) (hH : H t) : p.Meets Q H s :=
  ⟨fun _ _ hr => (nomatch h.symm.trans hr), fun _ hr => by rw [h] at hr; cases hr; exact hH⟩

theorem Proc.meets_of_fault {f : Fault} (h : p.run s = .error (.fault f) t) : p.Meets Q H s :=
  ⟨fun _ _ hr => (nomatch h.symm.trans hr), fun _ hr => (nomatch h.symm.trans hr)⟩

theorem Proc.meets_pure {a : α} (h : Q a s) : (pure a : Proc α).Meets Q H s := Proc.meets_of_ok rfl h

theorem Proc.meets_haltAt {h : Hold} (hH : H (s.setSeq (s.core.seq.waiting h))) : (haltAt h : Proc α).Meets Q H s :=
  Proc.meets_of_halted (haltAt_run h s) hH

theorem Proc.Meets.bind (hp : p.Meets R H s) (hk : ∀ a t, R a t → (k a).Meets S H t) : (p >>= k).Meets S H s := by
  obtain ⟨hok, hstop⟩ := hp
  cases hr : p.run s with
  | ok a t => unfold Proc.Meets; rw [Proc.bind_ok hr]; exact hk a t (hok a t hr)
  | error e t =>
    cases e with
    | halted => exact Proc.meets_of_halted (Proc.bind_error hr) (hstop t hr)
    | fault f => exact Proc.meets_of_fault (Proc.bind_error hr)

theorem Proc.Meets.mono (hp : p.Meets Q H s) (hQ : ∀ a t, Q a t → R a t) (hH : ∀ t, H t → K t) : p.Meets R K s :=
  ⟨fun a t h => hQ a t (hp.1 a t h), fun t h => hH t (hp.2 t h)⟩

theorem Proc.Meets.imp (hp : p.Meets Q H s) (hQ : ∀ a t, Q a t → R a t) : p.Meets R H s := hp.mono hQ fun _ h => h

theorem Proc.Meets.and (hp : p.Meets Q H s) (hp' : p.Meets R K s) :
    p.Meets (fun a t => Q a t ∧ R a t) (fun t => H t ∧ K t) s :=
  ⟨fun a t h => ⟨hp.1 a t h, hp'.1 a t h⟩, fun t h => ⟨hp.2 t h, hp'.2 t h⟩⟩

theorem Proc.meets_ite {b : Prop} [Decidable b] (hp : b → p.Meets Q H s) (hq : ¬ b → q.Meets Q H s) :
    (if b then p else q).Meets Q H s := by
  split
  case isTrue h => exact hp h
  case isFalse h => exact hq h

end

section
variable {β : Type} {S : β → State → Prop} {H : State → Prop} {s : State}

theorem Proc.meets_change_bind {g : State → State} {k : Unit → Proc β} (h : (k ()).Meets S H (g s)) :
    (change g >>= k).Meets S H s :=
  (Proc.meets_of_ok (Q := fun _ t => t = g s) (change_run g s) rfl).bind fun _ _ ht => ht ▸ h

theorem Proc.meets_update_bind {g : Regs → Regs} {k : Unit → Proc β} (h : (k ()).Meets S H (s.mapCore g)) :
    (update g >>= k).Meets S H s := Proc.meets_change_bind h

theorem Proc.meets_regs_bind {k : Regs → Proc β} (h : (k s.core).Meets S H s) : (regs >>= k).Meets S H s :=
  (Proc.meets_of_ok (Q := fun c t => c = s.core ∧ t = s) (regs_run s) ⟨rfl, rfl⟩).bind fun _ _ ht => by
    obtain ⟨rfl, rfl⟩ := ht; exact h

theorem Proc.meets_params_bind {k : Params → Proc β} (h : (k s.params).Meets S H s) : (params >>= k).Meets S H s :=
  (Proc.meets_of_ok (Q := fun c t => c = s.params ∧ t = s) (params_run s) ⟨rfl, rfl⟩).bind fun _ _ ht => by
    obtain ⟨rfl, rfl⟩ := ht; exact h

theorem Proc.meets_theState_bind {k : State → Proc β} (h : (k s).Meets S H s) : (theState >>= k).Meets S H s :=
  (Proc.meets_of_ok (Q := fun c t => c = s ∧ t = s) (theState_run s) ⟨rfl, rfl⟩).bind fun _ _ ht => by
    obtain ⟨rfl, rfl⟩ := ht; exact h

end

/-! ## The primitives of R15 -/

/-- `I` survives a turn of the environment, an event that is no response, and the taking of a buffered byte. -/
structure Steady (I H : State → Prop) : Prop where
  tick : ∀ {s}, I s → tick.Meets (fun _ => I) H s
  emit : ∀ {s} (e : Event), e.isResp = false → I s → I (s.emit e)
  take : ∀ {s} (b : Byte) (rest : List Byte), s.env.fifo = b :: rest → I s → I (s.takeByte b rest)

section
variable {I H : State → Prop} {s : State} (hI : Steady I H)
include hI

theorem Steady.now (h : I s) : now.Meets (fun _ => I) H s :=
  (hI.tick h).bind fun _ _ ht => Proc.meets_theState_bind (Proc.meets_pure ht)

theorem Steady.chPresent (h : I s) : chPresent.Meets (fun _ => I) H s :=
  (hI.tick h).bind fun _ _ ht => Proc.meets_theState_bind (Proc.meets_pure ht)

theorem Steady.chAvail (h : I s) : chAvail.Meets (fun _ => I) H s :=
  (hI.tick h).bind fun _ _ ht => Proc.meets_theState_bind (Proc.meets_pure ht)

/-- An action on the state, with the turn before it. -/
theorem Steady.act {J : State → Prop} {g : State → State} (hg : ∀ t, I t → J (g t)) (h : I s) :
    (Machine.tick >>= fun _ => change g).Meets (fun _ => J) H s :=
  (hI.tick h).bind fun _ t ht => Proc.meets_of_ok (change_run g t) (hg t ht)

theorem Steady.chWrite (b : Byte) (h : I s) : (chWrite b).Meets (fun _ => I) H s :=
  hI.act (fun _ => hI.emit (.write b) rfl) h

theorem Steady.ringWrite (b : Byte) (h : I s) : (ringWrite b).Meets (fun _ => I) H s :=
  hI.act (fun _ => hI.emit (.ring b) rfl) h

theorem Steady.chRead (h : I s) : chRead.Meets (fun _ => I) H s :=
  (hI.tick h).bind fun _ t ht => by
    cases hq : t.env.fifo with
    | nil => exact Proc.meets_of_fault (f := .readEmpty) (t := t) (by simp [popByte, hq])
    | cons b rest => exact Proc.meets_of_ok (popByte_run hq) (hI.take b rest hq ht)

theorem Steady.waitFor {c : State → Bool} {h : Hold} (hhold : ∀ {t}, I t → H (t.setSeq (t.core.seq.waiting h))) (n : Nat)
    (hs : I s) : (waitFor c h n).Meets (fun _ => I) H s := by
  induction n generalizing s with
  | zero =>
    exact Proc.meets_theState_bind <|
      Proc.meets_ite (fun _ => Proc.meets_pure hs) fun _ => Proc.meets_haltAt (hhold hs)
  | succ n ih =>
    exact Proc.meets_theState_bind <|
      Proc.meets_ite (fun _ => Proc.meets_pure hs) fun _ => (hI.tick hs).bind fun _ _ ht => ih ht

theorem Steady.waitUntil {c : State → Bool} {h : Hold} (hhold : ∀ {t}, I t → H (t.setSeq (t.core.seq.waiting h)))
    (hs : I s) : (waitUntil c h).Meets (fun _ => I) H s :=
  Proc.meets_theState_bind (hI.waitFor hhold _ hs)

/-! ## Transmission -/

theorem Steady.txForm (i : Instr) (h : I s) : (txForm i).Meets (fun _ => I) H s := by
  cases i with
  | txPre => exact hI.chWrite _ h
  | txLit b => exact hI.chWrite b h
  | txEscd b => exact (hI.chWrite _ h).bind fun _ _ ht => hI.chWrite _ ht
  | _ => exact Proc.meets_pure h

theorem Steady.codecTxAll (bs : List Byte) (h : I s) : (codecTxAll bs).Meets (fun _ => I) H s := by
  induction bs generalizing s with
  | nil => exact Proc.meets_pure h
  | cons b bs ih => exact (hI.txForm _ h).bind fun _ _ ht => ih ht

/-- SEND (R229), for an `I` that survives a flush request. -/
theorem Steady.sendProc (hflush : ∀ {t}, I t → I t.requestFlush)
    (hhold : ∀ {t}, I t → H (t.setSeq (t.core.seq.waiting .flush))) (h : I s) :
    sendProc.Meets (fun r t => I t ∧ r.rdata = 0 ∧ r.code ∈ Instr.send.codes) H s := by
  refine Proc.meets_regs_bind <| Proc.meets_params_bind <| Proc.meets_ite (fun _ => ?down) fun _ =>
    Proc.meets_ite (fun _ => ?length) fun _ => ?frame
  case down => exact Proc.meets_pure ⟨h, rfl, by decide⟩
  case length => exact Proc.meets_pure ⟨h, rfl, by decide⟩
  case frame =>
    have hchFlush : ∀ {t}, I t → chFlush.Meets (fun _ => I) H t := fun ht =>
      (hI.tick ht).bind fun _ _ hu => Proc.meets_change_bind (hI.waitUntil hhold (hflush hu))
    exact (hI.txForm .txPre h).bind fun _ _ h1 => (hI.codecTxAll _ h1).bind fun _ _ h2 =>
      (hchFlush h2).bind fun _ _ h3 => Proc.meets_pure ⟨h3, rfl, by decide⟩

/-! ## Raw reads -/

theorem Steady.readMany (n : Nat) (h : I s) : (readMany n).Meets (fun _ => I) H s := by
  induction n generalizing s with
  | zero => exact Proc.meets_pure h
  | succ n ih => exact (hI.chRead h).bind fun _ _ h1 => (ih h1).bind fun _ _ h2 => Proc.meets_pure h2

theorem Steady.chDiscard (h : I s) : chDiscard.Meets (fun _ => I) H s :=
  (hI.chAvail h).bind fun _ _ h1 => (hI.readMany _ h1).bind fun _ _ h2 => Proc.meets_pure h2

end

/-! ## Reception -/

/-- `I` survives besides what the receive classes do to the codec (R141 to R146), and a hold in `NextByte`. -/
structure Receiving (I H : State → Prop) : Prop extends Steady I H where
  codec : ∀ {s} (esc : Bool) (n : Byte) (o : Option Byte), I s →
    I (s.mapCore fun c => { c with esc := esc, syncCount := n, codecOut := o })
  hold : ∀ {s}, I s → H (s.setSeq (s.core.seq.waiting .nextByte))

section
variable {I H : State → Prop} {s : State} (hI : Receiving I H)
include hI

theorem Receiving.rxClass (i : Instr) (h : I s) : (rxClass i).Meets (fun _ => I) H s := by
  cases i with
  | rxEscaped raw => exact Proc.meets_of_ok (update_run _ s) (hI.codec _ _ _ h)
  | rxEsc => exact Proc.meets_of_ok (update_run _ s) (hI.codec _ _ _ h)
  | rxAa => exact Proc.meets_of_ok (update_run _ s) (hI.codec s.core.esc _ _ h)
  | rxData raw => exact Proc.meets_of_ok (update_run _ s) (hI.codec s.core.esc _ _ h)
  | rxSync =>
    have hring : ringForward.Meets (fun _ => I) H s :=
      Proc.meets_regs_bind <| Proc.meets_ite (fun _ => hI.ringWrite _ h) fun _ => Proc.meets_pure h
    exact hring.bind fun _ t ht => Proc.meets_of_ok (update_run _ t) (hI.codec t.core.esc _ _ ht)
  | _ => exact Proc.meets_pure h

theorem Receiving.codecRx (raw : Byte) (h : I s) : (codecRx raw).Meets (fun _ => I) H s :=
  Proc.meets_regs_bind <| (hI.rxClass _ h).bind fun _ _ ht => Proc.meets_regs_bind (Proc.meets_pure ht)

theorem Receiving.nextByteIn (n : Nat) (h : I s) : (nextByteIn n).Meets (fun _ => I) H s := by
  induction n generalizing s with
  | zero => exact Proc.meets_haltAt (hI.hold h)
  | succ n ih =>
    have hraw : nextRaw.Meets (fun _ => I) H s :=
      (hI.waitUntil hI.hold h).bind fun _ _ h1 => (hI.chRead h1).bind fun _ _ h2 => hI.codecRx _ h2
    refine hraw.bind fun o t ht => ?_
    cases o with
    | some b => exact Proc.meets_pure ht
    | none => exact ih ht

theorem Receiving.nextByte (h : I s) : nextByte.Meets (fun _ => I) H s := hI.nextByteIn 2 h

end

/-! ## Assembly -/

/-- What `Assemble` answers when `FaAccept` returned this; none where it takes the next byte (R181). -/
def Accept.answer : Accept → Option Code
  | .cont => none
  | .framing => some .pending
  | .lenErr => some .pending
  | .doneOk => some .frameReady
  | .doneBad => some .checksumFail

/-- The state after `FaAccept` of `b` (R179). -/
def State.accepting (b : Byte) (s : State) : State := s.mapCore fun c => (faAccept s.params b c).2

/-- `I` holds around the loop of `Assemble` (R181), and `Q` where it answers. -/
structure Assembling (I : State → Prop) (Q : Code → State → Prop) (H : State → Prop) : Prop where
  avail : ∀ {s}, I s → chAvail.Meets (fun _ => I) H s
  next : ∀ {s}, I s → nextByte.Meets (fun _ => I) H s
  idle : ∀ {s}, I s → Q .pending s
  more : ∀ {s} (b : Byte), (faAccept s.params b s.core).1.answer = none → I s → I (s.accepting b)
  done : ∀ {s} (b : Byte) (r : Code), (faAccept s.params b s.core).1.answer = some r → I s → Q r (s.accepting b)

section
variable {I H : State → Prop} {Q : Code → State → Prop} {s : State} (hA : Assembling I Q H)
include hA

theorem Assembling.assembleByte (b : Byte) {k : Proc Code} (hk : ∀ {t}, I t → k.Meets Q H t) (h : I s) :
    (assembleByte b k).Meets Q H s := by
  have haccept : (acceptByte b).Meets (fun r t => r = (faAccept s.params b s.core).1 ∧ t = s.accepting b) H s :=
    Proc.meets_of_ok (acceptByte_run b s) ⟨rfl, rfl⟩
  refine haccept.bind fun r t ht => ?_
  obtain ⟨hr, rfl⟩ := ht
  cases r with
  | cont => exact hk (hA.more b (by rw [← hr]; rfl) h)
  | _ => exact Proc.meets_pure (hA.done b _ (by rw [← hr]; rfl) h)

theorem Assembling.assembleIn (n : Nat) (h : I s) : (assembleIn n).Meets Q H s := by
  induction n generalizing s with
  | zero => exact Proc.meets_pure (hA.idle h)
  | succ n ih =>
    exact (hA.avail h).bind fun _ _ h1 => Proc.meets_ite
      (fun _ => (hA.next h1).bind fun b _ h2 => hA.assembleByte b ih h2) fun _ => Proc.meets_pure (hA.idle h1)

theorem Assembling.assemble (h : I s) : assemble.Meets Q H s := hA.assembleIn 256 h

theorem Assembling.assembleResume (h : I s) : assembleResume.Meets Q H s :=
  (hA.next h).bind fun b _ h1 => hA.assembleByte b hA.assemble h1

end

/-! ## The begin procedure -/

/-- `B` holds before and after the begin procedure, `I` while the session is taken down, `O` once the channel is open again
(R222); `B` survives the taking down of the session, too (R225, R227). -/
structure Opening (B I O H : State → Prop) : Prop where
  before : Steady B H
  alive : Steady (fun s => B s ∧ s.core.fatal = false) H
  between : Steady I H
  opened : Steady O H
  back : ∀ {s}, I s → B s
  still : ∀ {s}, O s → I s
  absent : ∀ {s}, B s → B (s.mapCore fun c => { c with fatal := true, ready := false })
  down : ∀ {s}, B s → s.core.fatal = false → I (s.mapCore fun c => { c with ready := false })
  closeDown : ∀ {s}, B s → B (s.closeChannel.mapCore fun c => { c with ready := false })
  close : ∀ {s}, I s → I s.closeChannel
  chOpen : ∀ {s} (b : Word), I s → O (s.openChannel b)
  rate : ∀ {s} (b : Word), O s → O (s.mapCore fun c => { c with curBaud := b })
  clearCodec : ∀ {s}, O s → O (s.mapCore fun c => { c with esc := false, syncCount := 0 })
  clearFrame : ∀ {s}, O s → O (s.mapCore faClear)
  up : ∀ {s} (t : Word), O s → B (s.mapCore fun c => { c with lastAct := t, ready := true })

/-- The autodetect besides changes its attempt count and its index, and holds at its two places (R203, R207). -/
structure Scanning (B I O H : State → Prop) : Prop extends Opening B I O H where
  attempts : ∀ {s} (n : Word), I s → I (s.mapCore fun c => { c with adAttempts := n })
  index : ∀ {s} (idx : BitVec 3), I s → I (s.mapCore fun c => { c with baudIndex := idx })
  holdRead : ∀ {s} (idx : BitVec 3), O s → H (s.setSeq (s.core.seq.waiting (.autodetect idx)))
  holdAttempt : ∀ {s} (idx : BitVec 3), I s → H (s.setSeq (s.core.seq.waiting (.attempt idx)))

/-- How the autodetect ends: at a rate, with the channel open, or at its bound (R202, R204). -/
def ScanEnd (I O : State → Prop) (r : Code) (s : State) : Prop := (r = .ok ∧ O s) ∨ (r = .autodetectExhausted ∧ I s)

/-- What `Begin` may answer (R222, R270). -/
def beginCodes : Option Word → List Code
  | none => Instr.beginAuto.codes
  | some b => (Instr.beginBaud b).codes

section
variable {B I O H : State → Prop} {s : State}

theorem Opening.chClose (hO : Opening B I O H) (h : I s) : chClose.Meets (fun _ => I) H s :=
  hO.between.act (fun _ => hO.close) h

theorem Opening.openAt (hO : Opening B I O H) (b : Word) (h : I s) : (Machine.chOpen b).Meets (fun _ => O) H s :=
  hO.between.act (fun _ => hO.chOpen b) h

/-- The channel is closed and the session down: RESET, and the start of the recovery (R225, R227). -/
theorem Opening.takeDown {α : Type} {Q : α → State → Prop} {k : Unit → Proc α} (hO : Opening B I O H)
    (hk : ∀ {t}, B t → (k ()).Meets Q H t) (h : B s) :
    (Machine.chClose >>= fun _ => update (fun c => { c with ready := false }) >>= k).Meets Q H s :=
  (hO.before.act (J := fun t => B (t.mapCore fun c => { c with ready := false })) (fun _ => hO.closeDown) h).bind
    fun _ _ h1 => Proc.meets_update_bind (hk h1)

theorem Opening.beginFinish (hO : Opening B I O H) (h : O s) : beginFinish.Meets (fun r t => B t ∧ r = .ok) H s :=
  Proc.meets_update_bind <| Proc.meets_update_bind <|
    (hO.opened.now (hO.clearFrame (hO.clearCodec h))).bind fun t _ h1 =>
      Proc.meets_update_bind (Proc.meets_pure ⟨hO.up t h1, rfl⟩)

theorem Opening.beginAfterScan (hO : Opening B I O H) {r : Code} (h : ScanEnd I O r s) :
    (beginAfterScan r).Meets (fun r' t => B t ∧ r' = r) H s := by
  rcases h with ⟨rfl, h⟩ | ⟨rfl, h⟩
  · exact hO.beginFinish h
  · exact Proc.meets_pure ⟨hO.back h, rfl⟩

theorem Opening.begin (hO : Opening B I O H) (baud : Option Word)
    (hscan : ∀ {t}, baud = none → I t → autodetect.Meets (ScanEnd I O) H t) (h : B s) :
    (begin baud).Meets (fun r t => B t ∧ r ∈ beginCodes baud) H s := by
  have hunavailable : Code.channelUnavailable ∈ beginCodes baud := by cases baud <;> simp [beginCodes, Instr.codes]
  have hok : Code.ok ∈ beginCodes baud := by cases baud <;> simp [beginCodes, Instr.codes]
  refine Proc.meets_regs_bind <| Proc.meets_ite (fun _ => Proc.meets_pure ⟨h, hunavailable⟩) fun hf =>
    (hO.alive.chPresent ⟨h, by simpa using hf⟩).bind fun there t ht => ?_
  obtain ⟨hB, hfatal⟩ := ht
  refine Proc.meets_ite (fun _ => ?absent) fun _ => ?present
  case absent => exact Proc.meets_update_bind (Proc.meets_pure ⟨hO.absent hB, hunavailable⟩)
  case present =>
    have hI := hO.down hB hfatal
    cases baud with
    | none =>
      refine Proc.meets_ite (fun _ => Proc.meets_pure ⟨hB, by decide⟩) fun _ =>
        Proc.meets_update_bind <| (hscan rfl hI).bind fun r u hr => (hO.beginAfterScan hr).imp ?_
      rintro _ v ⟨hv, rfl⟩
      exact ⟨hv, hr.elim (fun h => h.1 ▸ by decide) fun h => h.1 ▸ by decide⟩
    | some b =>
      exact Proc.meets_update_bind <| (hO.chClose hI).bind fun _ _ h1 => (hO.openAt b h1).bind fun _ _ h2 =>
        (hO.opened.chDiscard h2).bind fun _ _ h3 => Proc.meets_update_bind <|
          (hO.beginFinish (hO.rate b h3)).imp fun _ _ ⟨hv, hr⟩ => ⟨hv, hr ▸ hok⟩

theorem Opening.beginBaudProc (hO : Opening B I O H) (baud : Word) (h : B s) :
    (beginBaudProc baud).Meets (fun r t => B t ∧ r.rdata = 0 ∧ r.code ∈ (Instr.beginBaud baud).codes) H s :=
  (hO.begin (some baud) nofun h).bind fun _ _ ⟨h1, hr⟩ => Proc.meets_pure ⟨h1, rfl, hr⟩

theorem Opening.resetProc (hO : Opening B I O H) (h : B s) :
    resetProc.Meets (fun r t => B t ∧ r.rdata = 0 ∧ r.code ∈ Instr.reset.codes) H s :=
  hO.takeDown (fun h1 => Proc.meets_pure ⟨h1, rfl, by decide⟩) h

/-! ## The autodetect -/

theorem Scanning.attemptRead (hS : Scanning B I O H) (idx : BitVec 3) (h : O s) :
    (attemptRead idx).Meets (fun _ => O) H s :=
  Proc.meets_params_bind <| (hS.opened.waitUntil (hS.holdRead idx) h).bind fun _ _ h1 =>
    (hS.opened.readMany _ h1).bind fun _ _ h2 => Proc.meets_pure h2

theorem Scanning.attempt (hS : Scanning B I O H) (idx : BitVec 3) (h : I s) : (attempt idx).Meets (fun _ => O) H s :=
  Proc.meets_update_bind <| (hS.chClose (hS.index idx h)).bind fun _ _ h1 => Proc.meets_regs_bind <|
    (hS.openAt _ h1).bind fun _ _ h2 => (hS.opened.chDiscard h2).bind fun _ _ h3 => hS.attemptRead idx h3

theorem Scanning.acceptBaud (hS : Scanning B I O H) (idx : BitVec 3) (h : O s) :
    (acceptBaud idx).Meets (ScanEnd I O) H s :=
  Proc.meets_update_bind (Proc.meets_pure (.inl ⟨rfl, hS.rate (baudAt s.core idx) h⟩))

theorem Scanning.scan (hS : Scanning B I O H) (n : Nat) (idx : BitVec 3) (h : I s) :
    (scan n idx).Meets (ScanEnd I O) H s := by
  induction n generalizing s idx with
  | zero => exact Proc.meets_haltAt (hS.holdAttempt idx h)
  | succ n ih =>
    refine Proc.meets_regs_bind <| Proc.meets_ite (fun _ => ?spent) fun _ => ?again
    case spent => exact (hS.chClose h).bind fun _ _ h1 => Proc.meets_pure (.inr ⟨rfl, h1⟩)
    case again =>
      exact Proc.meets_update_bind <| (hS.attempt idx (hS.attempts _ h)).bind fun _ _ h1 =>
        Proc.meets_ite (fun _ => hS.acceptBaud idx h1) fun _ => Proc.meets_regs_bind (ih _ (hS.still h1))

theorem Scanning.scanFrom (hS : Scanning B I O H) (idx : BitVec 3) (h : I s) :
    (scanFrom idx).Meets (ScanEnd I O) H s :=
  Proc.meets_theState_bind (hS.scan _ idx h)

theorem Scanning.autodetect (hS : Scanning B I O H) (h : I s) : autodetect.Meets (ScanEnd I O) H s :=
  Proc.meets_update_bind (hS.scanFrom 0 (hS.attempts 0 h))

theorem Scanning.autodetectResume (hS : Scanning B I O H) (idx : BitVec 3) (h : O s) :
    (autodetectResume idx).Meets (ScanEnd I O) H s :=
  (hS.attemptRead idx h).bind fun _ _ h1 =>
    Proc.meets_ite (fun _ => hS.acceptBaud idx h1) fun _ => Proc.meets_regs_bind (hS.scanFrom _ (hS.still h1))

theorem Scanning.beginNone (hS : Scanning B I O H) (h : B s) :
    (Machine.begin none).Meets (fun r t => B t ∧ r ∈ Instr.beginAuto.codes) H s :=
  hS.begin none (fun _ => hS.autodetect) h

theorem Scanning.beginAutoProc (hS : Scanning B I O H) (h : B s) :
    beginAutoProc.Meets (fun r t => B t ∧ r.rdata = 0 ∧ r.code ∈ Instr.beginAuto.codes) H s :=
  (hS.beginNone h).bind fun _ _ ⟨h1, hr⟩ => Proc.meets_pure ⟨h1, rfl, hr⟩

/-- The end of a command that went on inside its autodetect (R310). -/
theorem Scanning.beginResumed (hS : Scanning B I O H) {p : Proc Code} (i : Instr) (hp : p.Meets (ScanEnd I O) H s) :
    (p >>= fun r => Machine.beginAfterScan r >>= fun r' => pure (Reply.plain (beginAnswer i r'))).Meets
      (fun r t => B t ∧ r.rdata = 0 ∧ ∃ c ∈ [Code.ok, .autodetectExhausted], r.code = beginAnswer i c) H s :=
  hp.bind fun r _ hr => (hS.beginAfterScan hr).bind fun r' _ ⟨h1, h2⟩ => by
    subst h2
    exact Proc.meets_pure ⟨h1, rfl, r', by rcases hr with ⟨rfl, -⟩ | ⟨rfl, -⟩ <;> decide, rfl⟩

/-! ## POLL -/

theorem recovered_mem (r : Code) : recovered r ∈ [Code.busReset, .busDown] := by
  unfold recovered; split <;> decide

theorem Scanning.recover (hS : Scanning B I O H) (h : B s) :
    recover.Meets (fun r t => B t ∧ r ∈ [Code.busReset, .busDown]) H s :=
  hS.takeDown (fun h1 => Proc.meets_regs_bind <|
    Proc.meets_ite (fun _ => Proc.meets_pure ⟨h1, by decide⟩) fun _ =>
      (hS.beginNone h1).bind fun r _ ⟨h2, _⟩ => Proc.meets_pure ⟨h2, recovered_mem r⟩) h

/-- POLL (R224) answers what its assembler answered, or found no frame's worth of bytes. -/
theorem Scanning.pollProc (hS : Scanning B I O H) {Q : Code → State → Prop} (hA : Assembling B Q H)
    (hact : ∀ {t} (n : Word), B t → B (t.mapCore fun c => { c with lastAct := n })) (h : B s) :
    pollProc.Meets (fun r t => r.rdata = 0 ∧
      (Q r.code t ∨ B t ∧ r.code ∈ [Code.busReset, .busDown, .noActivity])) H s := by
  refine Proc.meets_regs_bind <| Proc.meets_ite (fun _ => Proc.meets_pure ⟨rfl, .inr ⟨h, by decide⟩⟩) fun _ =>
    (hS.before.now h).bind fun n _ h1 => (hS.before.chAvail h1).bind fun _ _ h2 =>
      Proc.meets_ite (fun _ => ?traffic) fun _ => ?silent
  case traffic =>
    exact Proc.meets_update_bind <| (hA.assemble (hact n h2)).bind fun _ _ h3 => Proc.meets_pure ⟨rfl, .inl h3⟩
  case silent =>
    refine Proc.meets_regs_bind <| Proc.meets_ite (fun _ => (hS.recover h2).bind fun r _ ⟨h3, hr⟩ => ?_) fun _ =>
      Proc.meets_pure ⟨rfl, .inr ⟨h2, by decide⟩⟩
    have hmore : [Code.busReset, .busDown] ⊆ [Code.busReset, .busDown, .noActivity] := by decide
    exact Proc.meets_pure ⟨rfl, .inr ⟨h3, hmore hr⟩⟩

end

end Sys2Proof.Machine
end

section
/-! SUPPORT for O52 and O54 to O57: how a step that runs a procedure ends, and what the register accesses do. -/

namespace Sys2Proof.Machine

/-! ## How a step ends -/

section
variable {s t : State} {v : Seq} {p : Proc Reply} {Q : Reply → State → Prop} {H : State → Prop}

/-- A step that runs a procedure ends with the response, or inside the procedure. -/
theorem runAs_meets (hp : p.Meets Q H (s.setSeq v)) (hQ : ∀ r u, Q r u → tick.Meets (fun _ => Q r) H u)
    (h : runAs v p s = .next t) : (∃ r u, Q r u ∧ t = u.respond r) ∨ H t := by
  have hanswer : (answer p).Meets Q H (s.setSeq v) :=
    hp.bind fun r u hr => (hQ r u hr).bind fun _ _ hr' => Proc.meets_pure hr'
  obtain ⟨hok, hstop⟩ := hanswer
  rcases runAs_cases v p s t h with ⟨r, u, hu, rfl⟩ | hu
  · exact .inl ⟨r, u, hok r u hu, rfl⟩
  · exact .inr (hstop t hu)

/-- A step that runs a receive class, a transmit form or a turn. -/
theorem runForm_meets {I : State → Prop} {p : Proc Unit} (hp : p.Meets (fun _ => I) I s) (h : runForm p s = .next t) :
    I t := by
  obtain ⟨hok, hstop⟩ := hp
  unfold runForm at h
  cases hr : p.run s with
  | ok a u => rw [hr, settleForm_ok] at h; cases h; exact hok a _ hr
  | error e u =>
    rw [hr] at h
    cases e with
    | halted => cases h; exact hstop _ hr
    | fault f => cases h

end

/-! ## What an instruction's step runs -/

/-- The procedure of a command; the other rows are no command. -/
def commandProc : Instr → Proc Reply
  | .beginAuto => beginAutoProc
  | .beginBaud baud => beginBaudProc baud
  | .poll => pollProc
  | .reset => resetProc
  | .setNoRestart flag => setNoRestartProc flag
  | .send => sendProc
  | .csrRead addr => csrReadProc addr
  | .csrWrite addr data => csrWriteProc addr data
  | _ => illegalProc

theorem exec_command {i : Instr} (hi : i.isCommand = true) (s : State) :
    exec i s = runAs (.busy i) (commandProc i) s := by
  cases i with
  | beginAuto => rfl
  | beginBaud baud => rfl
  | poll => rfl
  | reset => rfl
  | setNoRestart flag => rfl
  | send => rfl
  | csrRead addr => rfl
  | csrWrite addr data => rfl
  | _ => cases hi

/-- The other rows run a receive class or a transmit form. -/
theorem exec_form {i : Instr} (hi : i.isCommand = false) (s : State) :
    exec i s = runForm (rxClass i) s ∨ exec i s = runForm (txForm i) s := by
  cases i with
  | rxEscaped raw => exact .inl rfl
  | rxEsc => exact .inl rfl
  | rxSync => exact .inl rfl
  | rxAa => exact .inl rfl
  | rxData raw => exact .inl rfl
  | txPre => exact .inr rfl
  | txLit b => exact .inr rfl
  | txEscd b => exact .inr rfl
  | _ => cases hi

/-- A row that is no command keeps what its receive class or transmit form keeps. -/
theorem exec_form_meets {I : State → Prop} {i : Instr} {s t : State} (hi : i.isCommand = false) (hI : Receiving I I)
    (hs : I s) (h : exec i s = .next t) : I t := by
  rcases exec_form hi s with he | he
  · exact runForm_meets (hI.rxClass i hs) (he ▸ h)
  · exact runForm_meets (hI.txForm i hs) (he ▸ h)

/-! ## The register accesses (R230, R231) -/

/-- What a CSR_WRITE can do to the registers: it sets those the caller may write, and a BAUD_COUNT within its bound (R46). -/
theorem csrStore_cases {c c' : Regs} {v : Word} {r : Csr} (h : csrStore c v r = some c') :
    ∃ mode disabled fwd quiet count bound list tx, c' = { c with
      mode := mode, autoRestartDisabled := disabled, ringFwdEn := fwd, quietTimeout := quiet, baudCount := count,
      adMaxAttempts := bound, baudList := list, tx := tx } ∧
      (c.baudCount.toNat ≤ Config.nbaudMax → count.toNat ≤ Config.nbaudMax) := by
  cases r with
  | baudCount =>
    simp only [csrStore] at h
    split at h
    case isTrue => cases h
    case isFalse hle => cases h; exact ⟨_, _, _, _, _, _, _, _, rfl, fun _ => Nat.le_of_not_lt hle⟩
  | config => cases h; exact ⟨_, _, _, _, _, _, _, _, rfl, id⟩
  | quietTimeout => cases h; exact ⟨_, _, _, _, _, _, _, _, rfl, id⟩
  | adMaxAttempts => cases h; exact ⟨_, _, _, _, _, _, _, _, rfl, id⟩
  | baudList i => cases h; exact ⟨_, _, _, _, _, _, _, _, rfl, id⟩
  | txHdr => cases h; exact ⟨_, _, _, _, _, _, _, _, rfl, id⟩
  | txTail => cases h; exact ⟨_, _, _, _, _, _, _, _, rfl, id⟩
  | txPay i => cases h; exact ⟨_, _, _, _, _, _, _, _, rfl, id⟩
  | _ => cases h

section
variable {I H : State → Prop} {s : State}

theorem csrReadProc_meets (a : CsrAddr) (h : I s) :
    (csrReadProc a).Meets (fun r t => I t ∧ r.code ∈ (Instr.csrRead a).codes) H s := by
  refine Proc.meets_regs_bind <| Proc.meets_params_bind ?_
  cases csrAt s.params a with
  | none => exact Proc.meets_pure ⟨h, by simp [Instr.codes, Reply.plain]⟩
  | some r => exact Proc.meets_pure ⟨h, by simp [Instr.codes]⟩

theorem csrWriteProc_meets (a : CsrAddr) (v : Word)
    (hstore : ∀ r c', csrStore s.core v r = some c' → I (s.mapCore fun _ => c')) (h : I s) :
    (csrWriteProc a v).Meets (fun r t => I t ∧ r.rdata = 0 ∧ r.code ∈ (Instr.csrWrite a v).codes) H s := by
  refine Proc.meets_regs_bind <| Proc.meets_params_bind ?_
  cases hr : (csrAt s.params a).bind (csrStore s.core v) with
  | none => exact Proc.meets_pure ⟨h, rfl, by simp [Instr.codes, Reply.plain]⟩
  | some c' =>
    obtain ⟨r, -, hc'⟩ := Option.bind_eq_some_iff.mp hr
    exact Proc.meets_update_bind (Proc.meets_pure ⟨hstore r c' hc', rfl, by simp [Instr.codes, Reply.plain]⟩)

theorem setNoRestartProc_meets (flag : Bool) (h : I (s.mapCore fun c => { c with autoRestartDisabled := flag })) :
    (setNoRestartProc flag).Meets (fun r t => I t ∧ r.rdata = 0 ∧ r.code ∈ (Instr.setNoRestart flag).codes) H s :=
  Proc.meets_update_bind (Proc.meets_pure ⟨h, rfl, by simp [Instr.codes, Reply.plain]⟩)

end

end Sys2Proof.Machine
end

section
/-! PROOF of O52, O55, O56 and O57: what a command can do in an undisturbed environment, said once (`exec_command_cases`,
`resume_cases`), for its first step and for a later one; the four statements read off it. -/

namespace Sys2Proof.Machine

/-! ## A command under way -/

/-- CONFIG, QUIET_TIMEOUT, BAUD_COUNT, AD_MAX_ATTEMPTS, BAUD_LIST and the TX frame: what the caller sets. -/
def Regs.settings (c : Regs) : Bool × Bool × Bool × Word × BitVec 4 × Word × Vector Word 8 × TxFrame :=
  (c.mode, c.autoRestartDisabled, c.ringFwdEn, c.quietTimeout, c.baudCount, c.adMaxAttempts, c.baudList, c.tx)

/-- Since `s₀` the environment has taken turns without a hardware reset and has filled no port, and no response was given. -/
structure Attends (s₀ : State) (e : Env) (l : List Event) : Prop where
  undisturbed : State.undisturbed { s₀ with env := e } = true
  port : e.port = s₀.env.port
  responses : l.countP Event.isResp = s₀.responses

/-- The sequencer is where it was, and the fatal latch is not cleared. -/
def Regs.Continues (c₀ c : Regs) : Prop := c.seq = c₀.seq ∧ (c₀.fatal = true → c.fatal = true)

/-- The command of `s₀` is under way, with the settings and the RX frame as they were. -/
def Underway (s₀ s : State) : Prop :=
  Attends s₀ s.env s.trace ∧ s₀.core.Continues s.core ∧ s.core.settings = s₀.core.settings ∧ s.core.rx = s₀.core.rx

/-- The command of `s₀` waits at a place that `A` allows. -/
def HeldIn (A : Hold → Prop) (s₀ t : State) : Prop :=
  ∃ h u, A h ∧ Underway s₀ u ∧ t = u.setSeq (u.core.seq.waiting h)

theorem Attends.start {s : State} (h : s.undisturbed = true) : Attends s s.env s.trace := ⟨h, rfl, rfl⟩

/-- A turn taken while a command runs: without a hardware reset it leaves the registers and the port alone (R57, R322). -/
theorem tick_running {s : State} (hu : s.undisturbed = true) (hs : s.core.seq ≠ .idle) :
    ∃ e, tick.run s = .ok () { s with env := e } ∧ State.undisturbed { s with env := e } = true ∧ e.port = s.env.port := by
  obtain ⟨e, he, -, -, -, hu'⟩ := tick_undisturbed hu
  refine ⟨e, he, hu', ?_⟩
  cases hq : s.env.script with
  | nil =>
    obtain ⟨-, hs'⟩ := EStateM.Result.ok.inj (he.symm.trans (tick_quiet hq))
    exact congrArg (fun u => u.env.port) hs'
  | cons turn rest =>
    have hr : turn.any EnvMove.isReset = false := by
      simp only [State.undisturbed, hq, List.all_cons, Bool.and_eq_true] at hu
      obtain ⟨hturn, -⟩ := hu
      simpa using hturn
    obtain ⟨-, hs'⟩ := EStateM.Result.ok.inj (he.symm.trans (tick_turn hq hr))
    obtain ⟨hport, -⟩ := applyTurn_port (s := s.mapEnv fun e => { e with script := rest }) hs hr
    exact (congrArg (fun u => u.env.port) hs').trans hport

theorem Attends.event {s₀ : State} {e e' : Env} {l : List Event} {x : Event} (h : Attends s₀ e l) (hx : x.isResp = false)
    (hscript : e'.script = e.script) (hport : e'.port = e.port) : Attends s₀ e' (l ++ [x]) :=
  ⟨State.undisturbed_of_script_eq (s := { s₀ with env := e }) hscript h.undisturbed, hport.trans h.port,
    by simpa [hx] using h.responses⟩

/-- A running command is attended: the environment's turns, the events and the reads leave any fact about the registers. -/
theorem attends_steady {s₀ : State} {C : Regs → Prop} {H : State → Prop} (hC : ∀ c, C c → c.seq ≠ .idle) :
    Steady (fun s => Attends s₀ s.env s.trace ∧ C s.core) H where
  tick := by
    rintro s ⟨⟨hu, hp, hr⟩, hs⟩
    obtain ⟨e, he, hu', hp'⟩ := tick_running (s := s) hu (hC _ hs)
    exact Proc.meets_of_ok he ⟨⟨hu', hp'.trans hp, hr⟩, hs⟩
  emit _ he := fun ⟨ha, hs⟩ => ⟨ha.event he rfl rfl, hs⟩
  take _ _ _ := fun ⟨ha, hs⟩ => ⟨ha.event rfl rfl rfl, hs⟩

section
variable {s₀ : State} {A : Hold → Prop} {H : State → Prop}

theorem Underway.hold {h : Hold} (hA : A h) {s : State} (hs : Underway s₀ s) :
    HeldIn A s₀ (s.setSeq (s.core.seq.waiting h)) := ⟨h, s, hA, hs, rfl⟩

variable (h₀ : s₀.core.seq ≠ .idle)
include h₀

theorem underway_steady : Steady (Underway s₀) H :=
  attends_steady (C := fun c => s₀.core.Continues c ∧ c.settings = s₀.core.settings ∧ c.rx = s₀.core.rx)
    fun _ ⟨⟨hseq, _⟩, _⟩ => hseq ▸ h₀

theorem underway_alive : Steady (fun s => Underway s₀ s ∧ s.core.fatal = false) H := by
  have h := attends_steady (s₀ := s₀) (H := H) (C := fun c => (s₀.core.Continues c ∧ c.settings = s₀.core.settings ∧
    c.rx = s₀.core.rx) ∧ c.fatal = false) fun _ ⟨⟨⟨hseq, _⟩, _⟩, _⟩ => hseq ▸ h₀
  simpa only [Underway, and_assoc] using h

theorem underway_receiving (hA : A .nextByte) : Receiving (Underway s₀) (HeldIn A s₀) where
  toSteady := underway_steady h₀
  codec _ _ _ hs := hs
  hold hs := hs.hold hA

theorem underway_opening : Opening (Underway s₀) (Underway s₀) (Underway s₀) H where
  before := underway_steady h₀
  alive := underway_alive h₀
  between := underway_steady h₀
  opened := underway_steady h₀
  back hs := hs
  still hs := hs
  absent := fun ⟨ha, ⟨hseq, _⟩, hc⟩ => ⟨ha, ⟨hseq, fun _ => rfl⟩, hc⟩
  down hs _ := hs
  closeDown := fun ⟨ha, hs⟩ => ⟨ha.event rfl rfl rfl, hs⟩
  close := fun ⟨ha, hs⟩ => ⟨ha.event rfl rfl rfl, hs⟩
  chOpen _ := fun ⟨ha, hs⟩ => ⟨ha.event rfl rfl rfl, hs⟩
  rate _ hs := hs
  clearCodec hs := hs
  clearFrame hs := hs
  up _ hs := hs

theorem underway_scanning (hread : ∀ idx, A (.autodetect idx)) (hattempt : ∀ idx, A (.attempt idx)) :
    Scanning (Underway s₀) (Underway s₀) (Underway s₀) (HeldIn A s₀) where
  toOpening := underway_opening h₀
  attempts _ hs := hs
  index _ hs := hs
  holdRead idx hs := hs.hold (hread idx)
  holdAttempt idx hs := hs.hold (hattempt idx)

end

/-! ## How a command ends -/

/-- The RX frame after the response `r`: a valid frame just delivered with FRAME_READY, and untouched otherwise (R180,
R182 (a)). -/
def RxAfter (r : Code) (c₀ c : Regs) : Prop :=
  (r = .frameReady ∧ c.rx.valid = true ∧ c.faPos = 0) ∨ (r ≠ .frameReady ∧ c.rx = c₀.rx)

/-- The command of `s₀` has come to its response `r`, a code of `L`. -/
def Answered (L : List Code) (s₀ : State) (r : Code) (s : State) : Prop :=
  Attends s₀ s.env s.trace ∧ s₀.core.Continues s.core ∧ r ∈ L ∧ RxAfter r s₀.core s.core

/-- The instruction writes what the caller sets (R228, R231). -/
def Instr.configures : Instr → Bool
  | .setNoRestart _ => true
  | .csrWrite _ _ => true
  | _ => false

/-- The command of `s₀`, its first step at `i`, has come to its reply `r`. -/
def Replied (i : Instr) (s₀ : State) (r : Reply) (s : State) : Prop :=
  Answered i.codes s₀ r.code s ∧ (r.rdata = 0 ∨ ∃ a, i = .csrRead a) ∧
    (Instr.configures i = false → s.core.settings = s₀.core.settings)

/-- The command of `s₀`, going on from a hold, has come to its reply `r`, a code of `L`. -/
def Resumed (L : List Code) (s₀ : State) (r : Reply) (s : State) : Prop :=
  Answered L s₀ r.code s ∧ r.rdata = 0 ∧ s.core.settings = s₀.core.settings

theorem Underway.settings {s₀ s : State} (hs : Underway s₀ s) : s.core.settings = s₀.core.settings :=
  let ⟨_, _, h, _⟩ := hs; h

theorem Underway.answered {L : List Code} {s₀ s : State} {r : Code} (hs : Underway s₀ s) (hr : r ∈ L)
    (hL : Code.frameReady ∉ L) : Answered L s₀ r s := by
  obtain ⟨ha, hc, -, hrx⟩ := hs
  exact ⟨ha, hc, hr, .inr ⟨fun he => hL (he ▸ hr), hrx⟩⟩

theorem Underway.replied {i : Instr} {s₀ s : State} {r : Reply} (hs : Underway s₀ s)
    (hr : r.rdata = 0 ∧ r.code ∈ i.codes) (hL : Code.frameReady ∉ i.codes) : Replied i s₀ r s :=
  ⟨hs.answered hr.2 hL, .inl hr.1, fun _ => hs.settings⟩

/-- A command that has come to its answer takes one more turn before its response (R88, log 1). -/
theorem answered_tick {L : List Code} {s₀ s : State} {r : Code} {P : Regs → Prop} {H : State → Prop}
    (h₀ : s₀.core.seq ≠ .idle) (hs : Answered L s₀ r s ∧ P s.core) :
    tick.Meets (fun _ t => Answered L s₀ r t ∧ P t.core) H s := by
  have h := attends_steady (s₀ := s₀) (H := H) (C := fun c => (s₀.core.Continues c ∧ r ∈ L ∧ RxAfter r s₀.core c) ∧ P c)
    fun _ ⟨⟨⟨hseq, _⟩, _⟩, _⟩ => hseq ▸ h₀
  simpa only [Answered, and_assoc] using h.tick (s := s) (by simpa only [Answered, and_assoc] using hs)

theorem Replied.tick {i : Instr} {s₀ s : State} {r : Reply} {H : State → Prop} (h₀ : s₀.core.seq ≠ .idle)
    (hs : Replied i s₀ r s) : Machine.tick.Meets (fun _ => Replied i s₀ r) H s :=
  answered_tick (P := fun c => (r.rdata = 0 ∨ ∃ a, i = .csrRead a) ∧
    (Instr.configures i = false → c.settings = s₀.core.settings)) h₀ hs

theorem Resumed.tick {L : List Code} {s₀ s : State} {r : Reply} {H : State → Prop} (h₀ : s₀.core.seq ≠ .idle)
    (hs : Resumed L s₀ r s) : Machine.tick.Meets (fun _ => Resumed L s₀ r) H s :=
  answered_tick (P := fun c => r.rdata = 0 ∧ c.settings = s₀.core.settings) h₀ hs

/-- What the loop of `Assemble` does to a running command (R181): only FRAME_READY comes with a new RX frame (R180). -/
theorem underway_assembling {s₀ : State} {A : Hold → Prop} (h₀ : s₀.core.seq ≠ .idle) (hA : A .nextByte) :
    Assembling (Underway s₀)
      (fun r s => Answered [.frameReady, .pending, .checksumFail] s₀ r s ∧ s.core.settings = s₀.core.settings)
      (HeldIn A s₀) where
  avail hs := (underway_steady h₀).chAvail hs
  next hs := (underway_receiving h₀ hA).nextByte hs
  idle := fun ⟨ha, hc, hset, hrx⟩ => ⟨⟨ha, hc, by decide, .inr ⟨by decide, hrx⟩⟩, hset⟩
  more {s} b hb := by
    rintro ⟨ha, hc, hset, hrx⟩
    obtain ⟨w, n, r, hf⟩ := faAccept_frame s.params b s.core
    rcases faAccept_rx s.params b s.core with ⟨-, hkeep⟩ | ⟨hdone, -⟩
    · refine ⟨ha, ?_, ?_, hkeep.trans hrx⟩
      · unfold State.accepting; rw [State.mapCore_core, hf]; exact hc
      · unfold State.accepting; rw [State.mapCore_core, hf]; exact hset
    · rw [hdone] at hb; cases hb
  done {s} b r hb := by
    rintro ⟨ha, hc, hset, hrx⟩
    obtain ⟨w, n, q, hf⟩ := faAccept_frame s.params b s.core
    have hregs : s₀.core.Continues (s.accepting b).core ∧ (s.accepting b).core.settings = s₀.core.settings := by
      unfold State.accepting; rw [State.mapCore_core, hf]; exact ⟨hc, hset⟩
    obtain ⟨hc', hset'⟩ := hregs
    rcases faAccept_rx s.params b s.core with ⟨hnot, hkeep⟩ | ⟨hdone, hvalid, hpos⟩
    · have hcode : r = .pending ∨ r = .checksumFail := by
        cases ha : (faAccept s.params b s.core).1 <;> simp_all [Accept.answer]
      have hrx' : (s.accepting b).core.rx = s₀.core.rx := hkeep.trans hrx
      rcases hcode with rfl | rfl
      · exact ⟨⟨ha, hc', by decide, .inr ⟨by decide, hrx'⟩⟩, hset'⟩
      · exact ⟨⟨ha, hc', by decide, .inr ⟨by decide, hrx'⟩⟩, hset'⟩
    · rw [hdone] at hb
      cases hb
      exact ⟨⟨ha, hc', by decide, .inl ⟨rfl, hvalid, hpos⟩⟩, hset'⟩

/-- The first step of a POLL. -/
theorem pollProc_replied {s₀ : State} (h₀ : s₀.core.seq ≠ .idle) (hu : Underway s₀ s₀) :
    pollProc.Meets (Replied .poll s₀) (HeldIn (fun h => Instr.poll.mayHold h = true) s₀) s₀ := by
  have hscan := underway_scanning (s₀ := s₀) (A := fun h => Instr.poll.mayHold h = true) h₀ (fun _ => rfl) fun _ => rfl
  refine (hscan.pollProc (underway_assembling h₀ rfl) (fun _ hs => hs) hu).imp ?_
  rintro r t ⟨hdata, ⟨⟨ha, hc, hr, hrx⟩, hset⟩ | ⟨ht, hr⟩⟩
  · have hsub : [Code.frameReady, .pending, .checksumFail] ⊆ Instr.poll.codes := by decide
    exact ⟨⟨ha, hc, hsub hr, hrx⟩, .inl hdata, fun _ => hset⟩
  · obtain ⟨ha, hc, hr', hrx⟩ := ht.answered hr (by decide)
    have hsub : [Code.busReset, .busDown, .noActivity] ⊆ Instr.poll.codes := by decide
    exact ⟨⟨ha, hc, hsub hr', hrx⟩, .inl hdata, fun _ => ht.settings⟩

/-- A command under way that may have written what the caller sets. -/
def Configuring (s₀ s : State) : Prop :=
  Attends s₀ s.env s.trace ∧ s₀.core.Continues s.core ∧ s.core.rx = s₀.core.rx

theorem Configuring.replied {i : Instr} {s₀ s : State} {r : Reply} (hs : Configuring s₀ s)
    (hr : r.rdata = 0 ∧ r.code ∈ i.codes) (hL : Code.frameReady ∉ i.codes) (hi : Instr.configures i = true) :
    Replied i s₀ r s := by
  obtain ⟨ha, hc, hrx⟩ := hs
  obtain ⟨hdata, hcode⟩ := hr
  exact ⟨⟨ha, hc, hcode, .inr ⟨fun he => hL (he ▸ hcode), hrx⟩⟩, .inl hdata, fun hn => absurd (hi.symm.trans hn) nofun⟩

theorem Configuring.store {s₀ s : State} {v : Word} {r : Csr} {c : Regs} (hs : Configuring s₀ s)
    (h : csrStore s.core v r = some c) : Configuring s₀ (s.mapCore fun _ => c) := by
  obtain ⟨_, _, _, _, _, _, _, _, rfl, -⟩ := csrStore_cases h
  exact hs

/-- A command's procedure, from its start. -/
theorem commandProc_replied {i : Instr} (hi : i.isCommand = true) {s₀ : State} (h₀ : s₀.core.seq ≠ .idle)
    (hu : s₀.undisturbed = true) :
    (commandProc i).Meets (Replied i s₀) (HeldIn (fun h => i.mayHold h = true) s₀) s₀ := by
  have hstart : Underway s₀ s₀ := ⟨Attends.start hu, ⟨rfl, id⟩, rfl, rfl⟩
  have hconf : Configuring s₀ s₀ := ⟨Attends.start hu, ⟨rfl, id⟩, rfl⟩
  cases i with
  | beginAuto =>
    have hscan := underway_scanning (s₀ := s₀) (A := fun h => Instr.beginAuto.mayHold h = true) h₀ (fun _ => rfl) fun _ => rfl
    exact (hscan.beginAutoProc hstart).imp fun r t ⟨ht, hr⟩ => ht.replied hr (by decide)
  | beginBaud baud =>
    exact ((underway_opening h₀).beginBaudProc baud hstart).imp fun r t ⟨ht, hr⟩ => ht.replied hr (by simp [Instr.codes])
  | poll => exact pollProc_replied h₀ hstart
  | reset => exact ((underway_opening h₀).resetProc hstart).imp fun r t ⟨ht, hr⟩ => ht.replied hr (by decide)
  | setNoRestart flag =>
    exact (setNoRestartProc_meets flag (I := Configuring s₀) hconf).imp fun r t ⟨ht, hr⟩ =>
      ht.replied hr (by simp [Instr.codes]) rfl
  | send =>
    have hhold : ∀ {t}, Underway s₀ t →
        HeldIn (fun h => Instr.send.mayHold h = true) s₀ (t.setSeq (t.core.seq.waiting .flush)) :=
      fun ht => ht.hold (A := fun h => Instr.send.mayHold h = true) rfl
    have hflush : ∀ {t}, Underway s₀ t → Underway s₀ t.requestFlush := fun ⟨ha, hs⟩ => ⟨ha.event rfl rfl rfl, hs⟩
    exact ((underway_steady h₀).sendProc hflush hhold hstart).imp fun r t ⟨ht, hr⟩ => ht.replied hr (by decide)
  | csrRead a =>
    refine (csrReadProc_meets a hstart).imp fun r t ⟨ht, hr⟩ => ?_
    exact ⟨ht.answered hr (by simp [Instr.codes]), .inr ⟨a, rfl⟩, fun _ => ht.settings⟩
  | csrWrite a v =>
    exact (csrWriteProc_meets (I := Configuring s₀) a v (fun _ _ => hconf.store) hconf).imp fun r t ⟨ht, hr⟩ =>
      ht.replied hr (by simp [Instr.codes]) rfl
  | _ => cases hi

/-- Everything the first step of a command can do in an undisturbed environment: it responds, or it holds where it may. -/
theorem exec_command_cases {i : Instr} {s t : State} (hi : i.isCommand = true) (hu : s.undisturbed = true)
    (h : exec i s = .next t) :
    (∃ r u, Replied i (s.setSeq (.busy i)) r u ∧ t = u.respond r) ∨
      HeldIn (fun h => i.mayHold h = true) (s.setSeq (.busy i)) t := by
  rw [exec_command hi] at h
  have h₀ : (s.setSeq (.busy i)).core.seq ≠ .idle := nofun
  exact runAs_meets (commandProc_replied hi h₀ hu) (fun _ _ => Replied.tick h₀) h

/-- The codes that the command `i` may give where it goes on from a hold. -/
def Hold.codes (i : Instr) : Hold → List Code
  | .nextByte => [.frameReady, .pending, .checksumFail]
  | .autodetect _ => [beginAnswer i .ok, beginAnswer i .autodetectExhausted]
  | .attempt _ => [beginAnswer i .ok, beginAnswer i .autodetectExhausted]
  | .flush => [.ok]

/-- After the autodetect of its begin, POLL answers as its recovery does, and any other command what the begin answered. -/
theorem beginAnswer_cases (i : Instr) :
    (i = .poll ∧ beginAnswer i .ok = .busReset ∧ beginAnswer i .autodetectExhausted = .busDown) ∨
      (beginAnswer i .ok = .ok ∧ beginAnswer i .autodetectExhausted = .autodetectExhausted) := by
  cases i with
  | poll => exact .inl ⟨rfl, rfl, rfl⟩
  | _ => exact .inr ⟨rfl, rfl⟩

/-- Only from HOLD_NB does a command come to FRAME_READY. -/
theorem frameReady_mem_holdCodes {i : Instr} {h : Hold} (hr : Code.frameReady ∈ h.codes i) : h = .nextByte := by
  have hscan : Code.frameReady ∉ [beginAnswer i .ok, beginAnswer i .autodetectExhausted] := by
    rcases beginAnswer_cases i with ⟨-, h1, h2⟩ | ⟨h1, h2⟩
    · rw [h1, h2]; decide
    · rw [h1, h2]; decide
  cases h with
  | nextByte => rfl
  | autodetect idx => exact absurd hr hscan
  | attempt idx => exact absurd hr hscan
  | flush => exact absurd hr (by simp [Hold.codes])

theorem beginAnswer_codes {i : Instr} (hi : i = .beginAuto ∨ i = .poll) :
    [beginAnswer i .ok, beginAnswer i .autodetectExhausted] ⊆ i.codes := by
  rcases hi with rfl | rfl
  · decide
  · decide

/-- A command that holds where R310 lets it comes to a code of its own (R270). -/
theorem holdCodes_subset {i : Instr} {h : Hold} (hh : i.mayHold h = true) : h.codes i ⊆ i.codes := by
  cases h with
  | nextByte =>
    obtain rfl : i = .poll := by simpa [Instr.mayHold] using hh
    decide
  | flush =>
    obtain rfl : i = .send := by simpa [Instr.mayHold] using hh
    decide
  | autodetect idx => exact beginAnswer_codes (by simpa [Instr.mayHold] using hh)
  | attempt idx => exact beginAnswer_codes (by simpa [Instr.mayHold] using hh)

/-- A command's procedure, from the hold `h` on; it holds again only at a place it may. -/
theorem resumeProc_resumed (i : Instr) (h : Hold) {s₀ : State} (h₀ : s₀.core.seq ≠ .idle) (hu : s₀.undisturbed = true) :
    (resumeProc i h).Meets (Resumed (h.codes i) s₀)
      (HeldIn (fun h' => i.mayHold h = true → i.mayHold h' = true) s₀) s₀ := by
  have hstart : Underway s₀ s₀ := ⟨Attends.start hu, ⟨rfl, id⟩, rfl, rfl⟩
  have hbegun : ∀ {t r}, Underway s₀ t ∧ r.rdata = 0 ∧ (∃ c ∈ [Code.ok, .autodetectExhausted], r.code = beginAnswer i c) →
      Resumed [beginAnswer i .ok, beginAnswer i .autodetectExhausted] s₀ r t := by
    rintro t r ⟨ht, hdata, c, hc, hr⟩
    refine ⟨ht.answered (hr ▸ List.mem_map_of_mem hc) fun hf => ?_, hdata, ht.settings⟩
    exact absurd (frameReady_mem_holdCodes (h := .autodetect 0) hf) nofun
  cases h with
  | nextByte =>
    refine ((underway_assembling h₀ id).assembleResume hstart).bind fun r t ⟨hr, hset⟩ => ?_
    exact Proc.meets_pure ⟨hr, rfl, hset⟩
  | flush =>
    exact ((underway_steady h₀).waitUntil (fun hs => hs.hold id) hstart).bind fun _ t ht =>
      Proc.meets_pure ⟨ht.answered (List.mem_singleton.mpr rfl) (by simp [Hold.codes]), rfl, ht.settings⟩
  | autodetect idx =>
    have hscan := underway_scanning (A := fun h' => i.mayHold (.autodetect idx) = true → i.mayHold h' = true) h₀
      (fun _ => id) fun _ => id
    exact (hscan.beginResumed i (hscan.autodetectResume idx hstart)).imp fun _ _ => hbegun
  | attempt idx =>
    have hscan := underway_scanning (A := fun h' => i.mayHold (.attempt idx) = true → i.mayHold h' = true) h₀
      (fun _ => id) fun _ => id
    exact (hscan.beginResumed i (hscan.scanFrom idx hstart)).imp fun _ _ => hbegun

/-- Everything a later step of a command can do in an undisturbed environment. -/
theorem resume_cases {i : Instr} {h : Hold} {s t : State} (hu : s.undisturbed = true) (ht : resume i h s = .next t) :
    (∃ r u, Resumed (h.codes i) (s.setSeq (.busy i)) r u ∧ t = u.respond r) ∨
      HeldIn (fun h' => i.mayHold h = true → i.mayHold h' = true) (s.setSeq (.busy i)) t := by
  have h₀ : (s.setSeq (.busy i)).core.seq ≠ .idle := nofun
  exact runAs_meets (resumeProc_resumed i h h₀ hu) (fun _ _ => Resumed.tick h₀) ht

/-- An illegal command, in an undisturbed environment: its response, and nothing else of the core (R232). -/
theorem execIllegal_core {s t : State} (hu : s.undisturbed = true) (h : execIllegal s = .next t) :
    t.env.port = s.env.port ∧ t.core = { s.core with seq := .idle } ∧ t.trace = s.trace ++ [.resp 0x0B 0] := by
  have hu' : State.undisturbed (s.setSeq .busyIllegal) = true := hu
  obtain ⟨e, he, -, hp⟩ := tick_running hu' nofun
  have hrun : (answer illegalProc).run (s.setSeq .busyIllegal) =
      .ok (.plain .illegalCommand) { s.setSeq .busyIllegal with env := e } := by
    rw [answer, illegalProc, pure_bind, Proc.bind_ok he]; rfl
  rw [execIllegal, runAs, hrun, settle_ok] at h
  cases h
  exact ⟨hp, rfl, rfl⟩

/-! ## One response per command (O52) -/

/-- A command's step in which it ended, and gave its one response, or held, and gave none (R57, R234, R270). -/
def OneResponse (i : Instr) (s t : State) : Prop :=
  t.env.port = s.env.port ∧
    ((t.core.seq = .idle ∧ t.responses = s.responses + 1 ∧ ∃ code rdata,
        t.trace.getLast? = some (.resp (Code.toByte code) rdata) ∧ code ∈ i.codes ∧ (rdata = 0 ∨ ∃ a, i = .csrRead a)) ∨
      ((∃ h, i.mayHold h = true ∧ t.core.seq = .held i h) ∧ t.responses = s.responses))

theorem Answered.oneResponse {i : Instr} {L : List Code} {s₀ s u : State} {r : Reply} (hu : Answered L s₀ r.code u)
    (hL : L ⊆ i.codes) (hdata : r.rdata = 0 ∨ ∃ a, i = .csrRead a) (hport : s₀.env.port = s.env.port)
    (hresp : s₀.responses = s.responses) : OneResponse i s (u.respond r) := by
  obtain ⟨ha, -, hr, -⟩ := hu
  refine ⟨ha.port.trans hport, .inl ⟨rfl, ?_, r.code, r.rdata, by simp, hL hr, hdata⟩⟩
  rw [State.responses, State.respond_trace, List.countP_append, ha.responses, hresp]
  rfl

theorem HeldIn.oneResponse {i : Instr} {A : Hold → Prop} {s₀ s t : State} (ht : HeldIn A s₀ t)
    (hA : ∀ h, A h → i.mayHold h = true) (hseq : s₀.core.seq = .busy i) (hport : s₀.env.port = s.env.port)
    (hresp : s₀.responses = s.responses) : OneResponse i s t := by
  obtain ⟨h, u, hh, ⟨ha, ⟨hu, -⟩, -, -⟩, rfl⟩ := ht
  refine ⟨ha.port.trans hport, .inr ⟨⟨h, hA h hh, ?_⟩, ha.responses.trans hresp⟩⟩
  simp [hu, hseq, Seq.waiting]

/-- Settles O52: a command ends with one response or holds (`exec_command_cases`, `resume_cases`), and so does an illegal one. -/
theorem oneResponsePerCommand : Obligations.OneResponsePerCommand := by
  refine ⟨fun i s t hi h => ?_, fun s t cmd data r hidle hport hr hu ht => ?_⟩
  · change OneResponse i s t
    rcases h with ⟨hu, ht⟩ | ⟨hu, h, hh, hseq, ht⟩
    · rcases exec_command_cases hi hu ht with ⟨r, u, ⟨hr, hdata, -⟩, rfl⟩ | hheld
      · exact hr.oneResponse (List.Subset.refl _) hdata rfl rfl
      · exact hheld.oneResponse (fun _ => id) rfl rfl rfl
    · rw [step_held hseq] at ht
      have hport : (s.refill.setSeq (.busy i)).env.port = s.env.port := by simp
      have hresp : (s.refill.setSeq (.busy i)).responses = s.responses := by simp [State.responses]
      rcases resume_cases hu ht with ⟨r, u, ⟨hr, hdata, -⟩, rfl⟩ | hheld
      · exact hr.oneResponse (holdCodes_subset hh) (.inl hdata) hport hresp
      · exact hheld.oneResponse (fun _ hA => hA hh) rfl hport hresp
  · rw [step_present hidle hport, accept, hr] at ht
    obtain ⟨hp, hc, hl⟩ := execIllegal_core (s := s.refill.mapEnv fun e => { e with port := none }) hu ht
    refine ⟨hp, ?_, by simpa using hl⟩
    rw [hc, ← hidle]
    simp

/-! ## The rows that are no commands -/

/-- The fatal latch is not cleared, and the settings and the RX frame are as they were. -/
def Regs.Spares (c₀ c : Regs) : Prop := (c₀.fatal = true → c.fatal = true) ∧ c.settings = c₀.settings ∧ c.rx = c₀.rx

/-- A turn, a receive class or a transmit form in an undisturbed environment. -/
theorem undisturbed_receiving (c₀ : Regs) :
    Receiving (fun s => s.undisturbed = true ∧ c₀.Spares s.core) (fun s => s.undisturbed = true ∧ c₀.Spares s.core) where
  tick := by
    rintro s ⟨hu, hs⟩
    obtain ⟨e, he, -, -, -, hu'⟩ := tick_undisturbed hu
    exact Proc.meets_of_ok he ⟨hu', hs⟩
  emit _ _ hs := hs
  take _ _ _ hs := hs
  codec _ _ _ hs := hs
  hold hs := hs

theorem exec_form_spares {i : Instr} {s t : State} (hi : i.isCommand = false) (hu : s.undisturbed = true)
    (h : exec i s = .next t) : s.core.Spares t.core :=
  (exec_form_meets hi (undisturbed_receiving s.core) ⟨hu, id, rfl, rfl⟩ h).2

/-! ## The fatal latch (O55) -/

section
variable {s₀ s t : State}

theorem HeldIn.fatal {A : Hold → Prop} (ht : HeldIn A s₀ t) (hf : s₀.core.fatal = true) : t.core.fatal = true := by
  obtain ⟨h, u, -, ⟨-, ⟨-, hfatal⟩, -⟩, rfl⟩ := ht
  exact hfatal hf

theorem Answered.fatal {L : List Code} {r : Reply} (hs : Answered L s₀ r.code s) (hf : s₀.core.fatal = true) :
    (s.respond r).core.fatal = true := by
  obtain ⟨-, ⟨-, hfatal⟩, -⟩ := hs
  exact hfatal hf

theorem exec_keeps_fatal {i : Instr} (hf : s.core.fatal = true) (hu : s.undisturbed = true) (h : exec i s = .next t) :
    t.core.fatal = true := by
  cases hi : i.isCommand with
  | true =>
    rcases exec_command_cases hi hu h with ⟨r, u, ⟨hr, -⟩, rfl⟩ | hheld
    · exact hr.fatal hf
    · exact hheld.fatal hf
  | false =>
    obtain ⟨hfatal, -⟩ := exec_form_spares hi hu h
    exact hfatal hf

theorem execIllegal_keeps_fatal (hf : s.core.fatal = true) (hu : s.undisturbed = true) (h : execIllegal s = .next t) :
    t.core.fatal = true := by
  obtain ⟨-, hc, -⟩ := execIllegal_core hu h
  rw [hc]
  exact hf

theorem sequence_keeps_fatal (hf : s.core.fatal = true) (hu : s.undisturbed = true) (h : sequence s = .next t) :
    t.core.fatal = true := by
  unfold sequence at h
  split at h
  case h_1 =>
    split at h
    case h_1 cmd data hport =>
      unfold accept at h
      split at h
      case h_1 => exact exec_keeps_fatal (s := s.mapEnv fun e => { e with port := none }) hf hu h
      case h_2 => exact execIllegal_keeps_fatal (s := s.mapEnv fun e => { e with port := none }) hf hu h
    case h_2 =>
      have hstart : s.undisturbed = true ∧ s.core.Spares s.core := ⟨hu, id, rfl, rfl⟩
      obtain ⟨-, hfatal, -⟩ := runForm_meets ((undisturbed_receiving s.core).tick hstart) h
      exact hfatal hf
  case h_2 => exact exec_keeps_fatal hf hu h
  case h_3 => exact execIllegal_keeps_fatal hf hu h
  case h_4 =>
    rcases resume_cases hu h with ⟨r, u, ⟨hr, -⟩, rfl⟩ | hheld
    · exact hr.fatal hf
    · exact hheld.fatal hf

end

/-- Settles O55: no instruction, no illegal command and no step from a hold clears the latch. -/
theorem fatalLatchHolds : Obligations.FatalLatchHolds := fun s _ hf =>
  ⟨fun _ => exec_keeps_fatal hf, sequence_keeps_fatal (s := s.refill) (by simpa using hf)⟩

/-! ## The configuration (O56) -/

theorem HeldIn.settings {A : Hold → Prop} {s₀ t : State} (ht : HeldIn A s₀ t) : t.core.settings = s₀.core.settings := by
  obtain ⟨h, u, -, hu, rfl⟩ := ht
  exact hu.settings

theorem configures_eq_false {i : Instr} (hset : ∀ f, i ≠ .setNoRestart f) (hwrite : ∀ a v, i ≠ .csrWrite a v) :
    Instr.configures i = false := by
  cases i with
  | setNoRestart f => exact absurd rfl (hset f)
  | csrWrite a v => exact absurd rfl (hwrite a v)
  | _ => rfl

theorem exec_keeps_settings {i : Instr} {s t : State} (hi : Instr.configures i = false) (hu : s.undisturbed = true)
    (h : exec i s = .next t) : t.core.settings = s.core.settings := by
  cases hc : i.isCommand with
  | true =>
    rcases exec_command_cases hc hu h with ⟨r, u, ⟨-, -, hset⟩, rfl⟩ | hheld
    · exact hset hi
    · exact hheld.settings
  | false =>
    obtain ⟨-, hset, -⟩ := exec_form_spares hc hu h
    exact hset

theorem step_held_keeps_settings {i : Instr} {h : Hold} {s t : State} (hu : s.refill.undisturbed = true)
    (hseq : s.core.seq = .held i h) (ht : step s = .next t) : t.core.settings = s.core.settings := by
  rw [step_held hseq] at ht
  rw [← State.refill_core s]
  rcases resume_cases hu ht with ⟨r, u, ⟨-, -, hset⟩, rfl⟩ | hheld
  · exact hset
  · exact hheld.settings

/-- Settles O56: the settings stand through every other instruction and every step of a held command. -/
theorem configurationIsTheCallers : Obligations.ConfigurationIsTheCallers := by
  intro i s t h
  have hset : t.core.settings = s.core.settings := by
    rcases h with ⟨hnr, hw, hu, ht⟩ | ⟨hu, h, hseq, ht⟩
    · exact exec_keeps_settings (configures_eq_false hnr hw) hu ht
    · exact step_held_keeps_settings hu hseq ht
  simpa [Regs.settings] using hset

/-! ## The RX frame (O57) -/

theorem HeldIn.rx {A : Hold → Prop} {s₀ t : State} (ht : HeldIn A s₀ t) : t.core.rx = s₀.core.rx := by
  obtain ⟨h, u, -, ⟨-, -, -, hrx⟩, rfl⟩ := ht
  exact hrx

theorem HeldIn.not_idle {A : Hold → Prop} {i : Instr} {s t : State} (ht : HeldIn A (s.setSeq (.busy i)) t) :
    t.core.seq ≠ .idle := by
  obtain ⟨h, u, -, ⟨-, ⟨hseq, -⟩, -⟩, rfl⟩ := ht
  simp [hseq, Seq.waiting]

theorem toByte_eq_frameReady {r : Code} (h : r.toByte = 0x01) : r = .frameReady := by
  cases r with
  | frameReady => rfl
  | _ => exact absurd h (by decide)

/-- A response changes the RX frame only as FRAME_READY, and FRAME_READY comes with a valid frame. -/
theorem Answered.rx {L : List Code} {s₀ s : State} {r : Reply} (hs : Answered L s₀ r.code s) (hdata : r.rdata = 0) :
    (s.respond r).core.rx = s₀.core.rx ∨ (Code.frameReady ∈ L ∧ (s.respond r).trace.getLast? = some (.resp 0x01 0) ∧
      (s.respond r).core.rx.valid = true ∧ (s.respond r).core.faPos = 0) := by
  obtain ⟨-, -, hL, ⟨hr, hvalid, hpos⟩ | ⟨-, hrx⟩⟩ := hs
  · exact .inr ⟨hr ▸ hL, by simp [hr, hdata, Code.toByte], hvalid, hpos⟩
  · exact .inl hrx

theorem Answered.frameReady {L : List Code} {s₀ s : State} {r : Reply} {d : Word} (hs : Answered L s₀ r.code s)
    (hlast : (s.respond r).trace.getLast? = some (.resp 0x01 d)) :
    (s.respond r).core.rx.valid = true ∧ (s.respond r).core.faPos = 0 := by
  have hcode : r.code = .frameReady := by
    simp only [State.respond_trace, List.getLast?_concat, Option.some.injEq, Event.resp.injEq] at hlast
    obtain ⟨hbyte, -⟩ := hlast
    exact toByte_eq_frameReady hbyte
  obtain ⟨-, -, -, ⟨-, hvalid, hpos⟩ | ⟨hnot, -⟩⟩ := hs
  · exact ⟨hvalid, hpos⟩
  · exact absurd hcode hnot

theorem frameReady_mem_codes {i : Instr} (h : Code.frameReady ∈ i.codes) : i = .poll := by
  cases i with
  | poll => rfl
  | _ => simp [Instr.codes] at h

theorem exec_rx {i : Instr} {s t : State} (hu : s.undisturbed = true) (h : exec i s = .next t) :
    t.core.rx = s.core.rx ∨ (i = .poll ∧ t.trace.getLast? = some (.resp 0x01 0) ∧ t.core.rx.valid = true ∧
      t.core.faPos = 0) := by
  cases hi : i.isCommand with
  | true =>
    rcases exec_command_cases hi hu h with ⟨r, u, ⟨hr, hdata, -⟩, rfl⟩ | hheld
    · rcases hdata with hdata | ⟨a, rfl⟩
      · exact (hr.rx hdata).imp id fun ⟨hL, hrest⟩ => ⟨frameReady_mem_codes hL, hrest⟩
      · obtain ⟨-, -, hL, ⟨hf, -⟩ | ⟨-, hrx⟩⟩ := hr
        · have hmem : Code.frameReady ∈ (Instr.csrRead a).codes := hf ▸ hL
          exact absurd (frameReady_mem_codes hmem) nofun
        · exact .inl hrx
    · exact .inl hheld.rx
  | false =>
    obtain ⟨-, -, hrx⟩ := exec_form_spares hi hu h
    exact .inl hrx

theorem resume_rx {i : Instr} {h : Hold} {s t : State} (hu : s.undisturbed = true) (ht : resume i h s = .next t) :
    t.core.rx = s.core.rx ∨ (h = .nextByte ∧ t.trace.getLast? = some (.resp 0x01 0) ∧ t.core.rx.valid = true ∧
      t.core.faPos = 0) := by
  rcases resume_cases hu ht with ⟨r, u, ⟨hr, hdata, -⟩, rfl⟩ | hheld
  · exact (hr.rx hdata).imp id fun ⟨hL, hrest⟩ => ⟨frameReady_mem_holdCodes hL, hrest⟩
  · exact .inl hheld.rx

/-- Settles O57: the RX frame at a POLL's response (`Answered.rx`, `Answered.frameReady`), and through everything else. -/
theorem rxFrameOnlyOnFrameReady : Obligations.RxFrameOnlyOnFrameReady := by
  refine fun i s t => ⟨exec_rx, fun h hu hseq ht => ?_, ?_⟩
  · rw [step_held hseq] at ht
    simpa using resume_rx hu ht
  · rintro (⟨hu, ht⟩ | ⟨hu, h, hseq, ht⟩) hidle rdata hlast
    · rcases exec_command_cases rfl hu ht with ⟨r, u, ⟨hr, -⟩, rfl⟩ | hheld
      · exact hr.frameReady hlast
      · exact absurd hidle hheld.not_idle
    · rw [step_held hseq] at ht
      rcases resume_cases hu ht with ⟨r, u, ⟨hr, -⟩, rfl⟩ | hheld
      · exact hr.frameReady hlast
      · exact absurd hidle hheld.not_idle

end Sys2Proof.Machine
end

section
/-! PROOF of O54: outside the begin procedure `st.ready` is never set, whatever the environment does; a hardware reset
clears it. -/

namespace Sys2Proof.Machine

/-- The session is down. -/
def Down (s : State) : Prop := s.core.ready = false

theorem down_receiving : Receiving Down Down where
  tick := by
    intro s hs
    rcases tick_cases s with ⟨e, he, -⟩ | ⟨e, he, -⟩
    · exact Proc.meets_of_ok he hs
    · exact Proc.meets_of_halted he rfl
  emit _ _ hs := hs
  take _ _ _ hs := hs
  codec _ _ _ hs := hs
  hold hs := hs

theorem Down.accepting {s : State} (b : Byte) (hs : Down s) : Down (s.accepting b) := by
  obtain ⟨w, n, r, hf⟩ := faAccept_frame s.params b s.core
  unfold State.accepting Down
  rw [State.mapCore_core, hf]
  exact hs

theorem down_assembling : Assembling Down (fun _ => Down) Down where
  avail := down_receiving.chAvail
  next := down_receiving.nextByte
  idle hs := hs
  more b _ := Down.accepting b
  done b _ _ := Down.accepting b

/-- Every command but the two begins leaves the session down; a POLL answers BUS_DOWN at once (R224). -/
theorem commandProc_down {i : Instr} {s : State} (hauto : i ≠ .beginAuto) (hbaud : ∀ b, i ≠ .beginBaud b) (hs : Down s) :
    (commandProc i).Meets (fun _ => Down) Down s := by
  cases i with
  | beginAuto => exact absurd rfl hauto
  | beginBaud b => exact absurd rfl (hbaud b)
  | poll =>
    exact Proc.meets_regs_bind <| Proc.meets_ite (fun _ => Proc.meets_pure hs) fun h => absurd hs (by simpa [Down] using h)
  | reset =>
    have hclose : chClose.Meets (fun _ => Down) Down s := down_receiving.act (fun _ ht => ht) hs
    exact hclose.bind fun _ t _ => Proc.meets_update_bind (Proc.meets_pure (show Down (t.mapCore _) from rfl))
  | setNoRestart flag => exact (setNoRestartProc_meets flag hs).imp fun _ _ ⟨ht, _⟩ => ht
  | send => exact (down_receiving.sendProc (fun ht => ht) (fun ht => ht) hs).imp fun _ _ ⟨ht, _⟩ => ht
  | csrRead a => exact (csrReadProc_meets a hs).imp fun _ _ ⟨ht, _⟩ => ht
  | csrWrite a v =>
    refine (csrWriteProc_meets (I := Down) a v (fun r c' hc' => ?_) hs).imp fun _ _ ⟨ht, _⟩ => ht
    obtain ⟨_, _, _, _, _, _, _, _, rfl, -⟩ := csrStore_cases hc'
    exact hs
  | _ => exact Proc.meets_pure hs

theorem runAs_down {v : Seq} {p : Proc Reply} {s t : State} (hp : p.Meets (fun _ => Down) Down (s.setSeq v))
    (h : runAs v p s = .next t) : Down t := by
  rcases runAs_meets hp (fun _ _ => down_receiving.tick) h with ⟨r, u, hu, rfl⟩ | ht
  · exact hu
  · exact ht

theorem exec_down {i : Instr} {s t : State} (hauto : i ≠ .beginAuto) (hbaud : ∀ b, i ≠ .beginBaud b) (hs : Down s)
    (h : exec i s = .next t) : Down t := by
  cases hi : i.isCommand with
  | true =>
    rw [exec_command hi] at h
    exact runAs_down (commandProc_down (s := s.setSeq (.busy i)) hauto hbaud hs) h
  | false => exact exec_form_meets hi down_receiving hs h

/-- From a hold outside the autodetect, a command leaves the session down. -/
theorem resume_down {i : Instr} {k : Hold} {s t : State} (hread : ∀ idx, k ≠ .autodetect idx)
    (hattempt : ∀ idx, k ≠ .attempt idx) (hs : Down s) (h : resume i k s = .next t) : Down t := by
  refine runAs_down (v := .busy i) (p := resumeProc i k) ?_ h
  have hs' : Down (s.setSeq (.busy i)) := hs
  cases k with
  | nextByte => exact (down_assembling.assembleResume hs').bind fun _ t ht => Proc.meets_pure (show Down t from ht)
  | flush =>
    exact (down_receiving.waitUntil (fun ht => ht) hs').bind fun _ t ht => Proc.meets_pure (show Down t from ht)
  | autodetect idx => exact absurd rfl (hread idx)
  | attempt idx => exact absurd rfl (hattempt idx)

/-- Settles O54: everything outside the begin procedure leaves a session that is down as it is (`exec_down`, `resume_down`). -/
theorem onlyBeginSetsReady : Obligations.OnlyBeginSetsReady := by
  refine fun s t hs ht => ⟨fun i h => ?_, fun i k hseq h => ?_⟩
  · by_contra hi
    obtain ⟨hauto, hbaud⟩ := not_or.mp hi
    have hdown := exec_down hauto (fun b hb => hbaud ⟨b, hb⟩) hs h
    exact absurd (ht.symm.trans hdown) nofun
  · by_contra hk
    rw [step_held hseq] at h
    have hdown := resume_down (fun idx hidx => hk ⟨idx, .inl hidx⟩) (fun idx hidx => hk ⟨idx, .inr hidx⟩)
      (show Down s.refill by simpa [Down] using hs) h
    exact absurd (ht.symm.trans hdown) nofun

end Sys2Proof.Machine
end

section
/-! PROOF of O59 and O60: the invariants of spec/10_state.md R61. The clauses that no command suspends (`State.Sound`) hold all
through a step; the others, which say where the sequencer stands, hold again where the step ends. -/

namespace Sys2Proof.Machine

/-! ## The clauses of the invariant -/

/-- The session bits (R61 (a), (b)). -/
structure SessionOk (ready fatal chOpen : Bool) : Prop where
  ready_open : ready = true → chOpen = true
  fatal_down : fatal = true → ready = false

/-- What a channel can be: closed and empty, or open and within its depth (R15, R93). -/
structure ChannelOk (depth : BitVec 16) (openAt : Option Word) (fifo : List Byte) : Prop where
  closed_empty : openAt = none → fifo = []
  within_depth : fifo.length ≤ depth.toNat

/-- The work frame with `pos` of its bytes accepted (R61 (c) to (e), R171 to R177). -/
structure WorkOk (p : Params) (pos : Byte) (w : Frame) : Prop where
  empty : pos = 0 → w = Frame.empty
  body : 5 ≤ pos.toNat → 6 ≤ w.totalLength.toNat ∧ w.totalLength.toNat - 6 ≤ p.payloadCap.val ∧
    pos.toNat + 1 ≤ w.totalLength.toNat
  preamble : pos ≠ 0 → w.preamble = Config.preamble
  tail : ∀ i, pos.toNat ≤ i + 5 → w.payload.get i = 0

/-- The RX frame is empty, or was delivered (R63). -/
def RxOk (p : Params) (f : Frame) : Prop :=
  f = Frame.empty ∨ (f.preamble = Config.preamble ∧ 6 ≤ f.totalLength.toNat ∧ f.totalLength.toNat - 6 ≤ p.payloadCap.val ∧
    f.valid = true ∧ ∀ i, f.totalLength.toNat ≤ i + 6 → f.payload.get i = 0)

/-- The clauses that hold all through a step. -/
def State.Sound (s : State) : Prop :=
  SessionOk s.core.ready s.core.fatal s.core.chOpen ∧ (s.core.chOpen = true → s.env.openAt.isSome = true) ∧
    ChannelOk s.params.fifoDepth s.env.openAt s.env.fifo ∧ s.core.baudCount.toNat ≤ Config.nbaudMax ∧
    WorkOk s.params s.core.faPos s.core.work ∧ RxOk s.params s.core.rx

/-- The clauses on where the sequencer stands between steps (R61 (f), R310). -/
structure Regs.AtRest (c : Regs) : Prop where
  escape_held : c.esc = true → ∃ i, c.seq = .held i .nextByte
  not_running : c.seq ≠ .busyIllegal ∧ ∀ i, c.seq ≠ .busy i
  held_by : ∀ i h, c.seq = .held i h → i.mayHold h = true
  scanning : ∀ i idx, (c.seq = .held i (.autodetect idx) ∨ c.seq = .held i (.attempt idx)) → c.ready = false ∧ c.fatal = false
  attempt_open : ∀ i idx, c.seq = .held i (.autodetect idx) → c.chOpen = true

theorem inv_iff {s : State} : s.Inv ↔ s.Sound ∧ s.core.AtRest := by
  constructor
  · intro h
    exact ⟨⟨⟨h.ready_open, h.fatal_down⟩, h.mirror, ⟨h.closed_empty, h.within_depth⟩, h.baud_count,
      ⟨h.start_empty, h.body, h.work_preamble, h.work_tail⟩, h.rx_valid⟩,
      ⟨h.escape_held, h.not_running, h.held_by, h.scanning, h.attempt_open⟩⟩
  · rintro ⟨⟨hs, hmirror, hc, hcount, hw, hrx⟩, hr⟩
    exact { ready_open := hs.ready_open, fatal_down := hs.fatal_down, start_empty := hw.empty, body := hw.body,
            escape_held := hr.escape_held, not_running := hr.not_running, held_by := hr.held_by, scanning := hr.scanning,
            attempt_open := hr.attempt_open, mirror := hmirror, closed_empty := hc.closed_empty,
            within_depth := hc.within_depth, baud_count := hcount, work_preamble := hw.preamble, work_tail := hw.tail,
            rx_valid := hrx }

theorem atRest_idle {c : Regs} (hseq : c.seq = .idle) (hesc : c.esc = false) : c.AtRest where
  escape_held h := absurd (h.symm.trans hesc) nofun
  not_running := by simp [hseq]
  held_by := by simp [hseq]
  scanning := by simp [hseq]
  attempt_open := by simp [hseq]

theorem Regs.AtRest.esc_clear {c : Regs} (h : c.AtRest) (hseq : ∀ i, c.seq ≠ .held i .nextByte) : c.esc = false := by
  by_contra he
  obtain ⟨i, hi⟩ := h.escape_held (by simpa using he)
  exact hseq i hi

/-- A command may hold: in `NextByte`, before an attempt, in an attempt, in a flush. -/
theorem atRest_held {c : Regs} {i : Instr} {h : Hold} (hseq : c.seq = .held i h) (hmay : i.mayHold h = true)
    (hesc : h ≠ .nextByte → c.esc = false)
    (hscan : ∀ idx, (h = .autodetect idx ∨ h = .attempt idx) → c.ready = false ∧ c.fatal = false)
    (hopen : ∀ idx, h = .autodetect idx → c.chOpen = true) : c.AtRest where
  escape_held he := by
    by_cases hh : h = .nextByte
    · exact ⟨i, hh ▸ hseq⟩
    · exact absurd (he.symm.trans (hesc hh)) nofun
  not_running := by simp [hseq]
  held_by j k hj := by
    obtain ⟨rfl, rfl⟩ := Seq.held.inj (hseq.symm.trans hj)
    exact hmay
  scanning j idx hj := hscan idx (hj.imp (fun e => (Seq.held.inj (hseq.symm.trans e)).2) fun e =>
    (Seq.held.inj (hseq.symm.trans e)).2)
  attempt_open j idx hj := hopen idx (Seq.held.inj (hseq.symm.trans hj)).2

/-! ## Reset (O59) -/

theorem workOk_empty (p : Params) : WorkOk p 0 Frame.empty where
  empty _ := rfl
  body h := absurd h (by decide)
  preamble h := absurd rfl h
  tail i _ := Bank.get_zero i

/-- Whatever the channel is at a hardware reset, the core meets the invariant after it (R300, R302). -/
theorem inv_of_reset {s : State} (hcore : s.core = Regs.reset)
    (hc : ChannelOk s.params.fifoDepth s.env.openAt s.env.fifo) : s.Inv := by
  rw [inv_iff]
  unfold State.Sound
  rw [hcore]
  exact ⟨⟨⟨nofun, nofun⟩, nofun, hc, by decide, workOk_empty _, .inl rfl⟩, atRest_idle rfl rfl⟩

/-- Settles O59: in the reset state the channel is closed and empty. -/
theorem invariantsAtReset : Obligations.InvariantsAtReset := fun p =>
  inv_of_reset (s := State.resetAt p) rfl ⟨fun _ => rfl, Nat.zero_le _⟩

/-! ## The environment's turns -/

/-- The channel of the state is what a channel can be. -/
def State.Channel (s : State) : Prop := ChannelOk s.params.fifoDepth s.env.openAt s.env.fifo

theorem receive_channelOk {d : BitVec 16} {e : Env} (b : Byte) (lost : Nat) (h : ChannelOk d e.openAt e.fifo) :
    ChannelOk d (e.receive d b lost).openAt (e.receive d b lost).fifo := by
  obtain ⟨hclosed, hdepth⟩ := h
  unfold Env.receive
  split
  case isFalse => exact ⟨hclosed, hdepth⟩
  case isTrue hopen =>
    have hnone : e.openAt ≠ none := fun hn => by simp [hn] at hopen
    split
    case isTrue hlt => exact ⟨fun hn => absurd hn hnone, by simpa using hlt⟩
    case isFalse =>
      have hlost : min lost e.fifo.length < (e.fifo ++ [b]).length := by simp
      exact ⟨fun hn => absurd hn hnone, by simpa [List.length_eraseIdx_of_lt hlost] using hdepth⟩

/-- Every move leaves the channel what a channel can be; overflow drops a byte, a hardware reset cuts it (log 5, log 7). -/
theorem applyMove_channel (m : EnvMove) {s : State} (h : s.Channel) : (applyMove m s).Channel := by
  cases m with
  | arrive b lost => exact receive_channelOk b lost h
  | issue cmd data =>
    simp only [applyMove]
    split
    · exact h
    · exact h
  | hwReset openAt fifo =>
    cases openAt with
    | none => exact ⟨fun _ => rfl, Nat.zero_le _⟩
    | some b => exact ⟨nofun, List.length_take_le _ _⟩
  | _ => exact h

theorem applyTurn_channel (ms : List EnvMove) {s : State} (h : s.Channel) : (applyTurn ms s).Channel := by
  induction ms generalizing s with
  | nil => exact h
  | cons m ms ih => exact ih (applyMove_channel m h)

theorem tick_channel {s : State} (h : s.Channel) : tick.Meets (fun _ => State.Channel) State.Channel s := by
  cases hq : s.env.script with
  | nil => exact Proc.meets_of_ok (tick_quiet hq) h
  | cons turn rest =>
    have hturn : (applyTurn turn (s.mapEnv fun e => { e with script := rest })).Channel := applyTurn_channel turn h
    cases hr : turn.any EnvMove.isReset with
    | true => exact Proc.meets_of_halted (tick_reset hq hr) hturn
    | false => exact Proc.meets_of_ok (tick_turn hq hr) hturn

/-- A turn leaves a sound state sound, with the registers as they were, or resets the machine. -/
theorem sound_steady (C : Regs → Prop) : Steady (fun s => s.Sound ∧ C s.core) State.Inv where
  tick := by
    rintro s ⟨⟨hs, hmirror, hc, hrest⟩, hC⟩
    obtain ⟨hok, hstop⟩ := tick_channel (s := s) hc
    rcases tick_cases s with ⟨e, he, hopen, -⟩ | ⟨e, he, -⟩
    · exact Proc.meets_of_ok he ⟨⟨hs, fun h => by rw [hopen]; exact hmirror h, hok _ _ he, hrest⟩, hC⟩
    · exact Proc.meets_of_halted he (inv_of_reset rfl (hstop _ he))
  emit _ _ hs := hs
  take := by
    rintro s b rest hq ⟨⟨hs, hmirror, ⟨hclosed, hdepth⟩, hrest⟩, hC⟩
    refine ⟨⟨hs, hmirror, ⟨fun hn => ?_, ?_⟩, hrest⟩, hC⟩
    · exact absurd (hq.symm.trans (hclosed hn)) nofun
    · rw [hq] at hdepth
      exact Nat.le_of_succ_le hdepth

/-! ## The assembler -/

/-- The work frame before its length byte (R172 to R175). -/
theorem workOk_header {p : Params} {n : Byte} {w : Frame} (hn : n ≠ 0) (hlt : n.toNat < 5)
    (hpre : w.preamble = Config.preamble) (htail : ∀ i, w.payload.get i = 0) : WorkOk p n w where
  empty h := absurd h hn
  body h := absurd hlt (Nat.not_lt.mpr h)
  preamble _ := hpre
  tail i _ := htail i

/-- The work frame with a length byte within its bounds (R176). -/
theorem workOk_length {p : Params} {w : Frame} {b : Byte} (hb : ¬ badLength p b = true) (hpre : w.preamble = Config.preamble)
    (htail : ∀ i, w.payload.get i = 0) : WorkOk p 5 { w with totalLength := b } := by
  simp only [badLength, Bool.or_eq_true, decide_eq_true_eq, not_or, Nat.not_lt] at hb
  obtain ⟨hmin, hcap⟩ := hb
  exact ⟨fun h => absurd h (by decide), fun _ => ⟨hmin, hcap, hmin⟩, fun _ => hpre, fun i _ => htail i⟩

/-- A payload position (R177): the entry behind the position is stored. -/
theorem workOk_payload {p : Params} {pos b : Byte} {w : Frame} (hw : WorkOk p pos w) (hpos : 5 ≤ pos.toNat)
    (hlt : pos.toNat + 1 < w.totalLength.toNat) :
    WorkOk p (pos + 1) { w with payload := w.payload.put (pos.toNat - Config.hdrLen) b } := by
  have hlen := w.totalLength.isLt
  have hsucc : (pos + 1).toNat = pos.toNat + 1 := by
    rw [BitVec.toNat_add, show (1 : Byte).toNat = 1 from rfl]
    omega
  have hne : ∀ {n : Byte}, 5 ≤ n.toNat → n ≠ 0 := fun hn h => absurd (h ▸ hn) (by decide)
  obtain ⟨hmin, hcap, -⟩ := hw.body hpos
  refine ⟨fun h => absurd h (hne (by omega)), fun _ => ⟨hmin, hcap, by rw [hsucc]; exact hlt⟩,
    fun _ => hw.preamble (hne hpos), fun i hi => ?_⟩
  have hi' : ¬ (pos.toNat - Config.hdrLen = i ∧ i < 256) := by simp only [Config.hdrLen]; omega
  rw [Bank.get_put, if_neg hi']
  exact hw.tail i (by omega)

/-- Completion (R178, R180): the frame delivered to the RX frame is valid, within bounds, and zero past its payload. -/
theorem faComplete_ok {p : Params} {c : Regs} (hpre : c.work.preamble = Config.preamble) (hmin : 6 ≤ c.work.totalLength.toNat)
    (hcap : c.work.totalLength.toNat - 6 ≤ p.payloadCap.val)
    (htail : ∀ i, c.work.totalLength.toNat ≤ i + 6 → c.work.payload.get i = 0) (hrx : RxOk p c.rx) :
    WorkOk p (faComplete c).2.faPos (faComplete c).2.work ∧ RxOk p (faComplete c).2.rx := by
  unfold faComplete
  split
  case isTrue hvalid => exact ⟨workOk_empty p, .inr ⟨hpre, hmin, hcap, hvalid, htail⟩⟩
  case isFalse => exact ⟨workOk_empty p, hrx⟩

/-- `FaAccept` keeps the work frame and the RX frame as R61 and R63 have them, position by position. -/
theorem faAccept_ok {p : Params} {c : Regs} (b : Byte) (hw : WorkOk p c.faPos c.work) (hrx : RxOk p c.rx) :
    WorkOk p (faAccept p b c).2.faPos (faAccept p b c).2.work ∧ RxOk p (faAccept p b c).2.rx := by
  have htail : ∀ n : Byte, n.toNat ≤ 5 → c.faPos = n → ∀ i, c.work.payload.get i = 0 :=
    fun n hn hpos i => hw.tail i (by rw [hpos]; omega)
  unfold faAccept
  split_ifs with h0 hb h1 h2 h3 h4 hl hp
  · exact ⟨workOk_header (n := 1) (by decide) (by decide) hb (htail 0 (by decide) h0), hrx⟩
  · exact ⟨hw, hrx⟩
  · exact ⟨workOk_header (n := 2) (by decide) (by decide) (hw.preamble h0) (htail 1 (by decide) h1), hrx⟩
  · exact ⟨workOk_header (n := 3) (by decide) (by decide) (hw.preamble h0) (htail 2 (by decide) h2), hrx⟩
  · exact ⟨workOk_header (n := 4) (by decide) (by decide) (hw.preamble h0) (htail 3 (by decide) h3), hrx⟩
  · exact ⟨workOk_empty p, hrx⟩
  · exact ⟨workOk_length hl (hw.preamble h0) (htail 4 (by decide) h4), hrx⟩
  all_goals
    have hpos : 5 ≤ c.faPos.toNat := by bv_omega
  · exact ⟨workOk_payload hw hpos hp, hrx⟩
  · obtain ⟨hmin, hcap, hle⟩ := hw.body hpos
    exact faComplete_ok (hw.preamble h0) hmin hcap (fun i hi => hw.tail i (show c.faPos.toNat ≤ i + 5 by
      have hi' : c.work.totalLength.toNat ≤ i + 6 := hi
      omega)) hrx

/-! ## A command between its start and its end -/

/-- The command `i` runs, outside `NextByte`. -/
def Running (i : Instr) (s : State) : Prop := s.Sound ∧ s.core.seq = .busy i ∧ s.core.esc = false

/-- The command `i` runs its begin procedure, with the session down and the latch clear (R222). -/
def Beginning (i : Instr) (s : State) : Prop :=
  s.Sound ∧ (s.core.seq = .busy i ∧ s.core.esc = false) ∧ s.core.ready = false ∧ s.core.fatal = false

/-- The same, with the channel open (R203, R221). -/
def Opened (i : Instr) (s : State) : Prop :=
  s.Sound ∧ ((s.core.seq = .busy i ∧ s.core.esc = false) ∧ s.core.ready = false ∧ s.core.fatal = false) ∧
    s.core.chOpen = true

/-- A POLL in `NextByte`, where an escape may be pending (R148). -/
def Listening (s : State) : Prop := s.Sound ∧ s.core.seq = .busy .poll

theorem running_steady (i : Instr) : Steady (Running i) State.Inv :=
  sound_steady fun c => c.seq = .busy i ∧ c.esc = false

/-- A sound state with the core idle and no escape pending meets the invariant. -/
theorem Running.respond {i : Instr} {s : State} (r : Reply) (hs : Running i s) : (s.respond r).Inv := by
  obtain ⟨hsound, -, hesc⟩ := hs
  exact inv_iff.mpr ⟨hsound, atRest_idle rfl hesc⟩

/-- The running command holds at `h`. -/
theorem inv_of_hold {i : Instr} {h : Hold} {s : State} (hsound : s.Sound) (hseq : s.core.seq = .busy i)
    (hmay : i.mayHold h = true) (hesc : h ≠ .nextByte → s.core.esc = false)
    (hscan : ∀ idx, (h = .autodetect idx ∨ h = .attempt idx) → s.core.ready = false ∧ s.core.fatal = false)
    (hopen : ∀ idx, h = .autodetect idx → s.core.chOpen = true) : (s.setSeq (s.core.seq.waiting h)).Inv := by
  rw [hseq]
  exact inv_iff.mpr ⟨hsound, atRest_held rfl hmay hesc hscan hopen⟩

theorem opening_inv (i : Instr) : Opening (Running i) (Beginning i) (Opened i) State.Inv where
  before := running_steady i
  alive := by
    have h := sound_steady fun c => (c.seq = .busy i ∧ c.esc = false) ∧ c.fatal = false
    simpa only [Running, and_assoc] using h
  between := sound_steady fun c => (c.seq = .busy i ∧ c.esc = false) ∧ c.ready = false ∧ c.fatal = false
  opened := sound_steady fun c => ((c.seq = .busy i ∧ c.esc = false) ∧ c.ready = false ∧ c.fatal = false) ∧ c.chOpen = true
  back := fun ⟨hs, hrun, _⟩ => ⟨hs, hrun⟩
  still := fun ⟨hs, hbegin, _⟩ => ⟨hs, hbegin⟩
  absent := fun ⟨⟨_, hrest⟩, hrun⟩ => ⟨⟨⟨nofun, fun _ => rfl⟩, hrest⟩, hrun⟩
  down := fun ⟨⟨_, hrest⟩, hrun⟩ hf => ⟨⟨⟨nofun, fun _ => rfl⟩, hrest⟩, hrun, rfl, hf⟩
  closeDown := fun ⟨⟨_, _, _, hrest⟩, hrun⟩ =>
    ⟨⟨⟨nofun, fun _ => rfl⟩, nofun, ⟨fun _ => rfl, Nat.zero_le _⟩, hrest⟩, hrun⟩
  close := fun ⟨⟨hses, _, _, hrest⟩, hrun, hready, hfatal⟩ =>
    ⟨⟨⟨fun h => absurd (h.symm.trans hready) nofun, hses.fatal_down⟩, nofun, ⟨fun _ => rfl, Nat.zero_le _⟩, hrest⟩,
      hrun, hready, hfatal⟩
  chOpen b := fun ⟨⟨hses, _, hc, hrest⟩, hbegin⟩ =>
    ⟨⟨⟨fun _ => rfl, hses.fatal_down⟩, fun _ => rfl, ⟨nofun, hc.within_depth⟩, hrest⟩, hbegin, rfl⟩
  rate _ hs := hs
  clearCodec := fun ⟨hs, ⟨⟨hseq, _⟩, hdown⟩, hopen⟩ => ⟨hs, ⟨⟨hseq, rfl⟩, hdown⟩, hopen⟩
  clearFrame := fun ⟨⟨hses, hmirror, hc, hcount, _, hrx⟩, hbegin⟩ =>
    ⟨⟨hses, hmirror, hc, hcount, workOk_empty _, hrx⟩, hbegin⟩
  up _ := fun ⟨⟨_, hrest⟩, ⟨hrun, _, hfatal⟩, hopen⟩ =>
    ⟨⟨⟨fun _ => hopen, fun h => absurd (h.symm.trans hfatal) nofun⟩, hrest⟩, hrun⟩

/-- BEGIN_AUTO and POLL may hold in the autodetect (R310). -/
theorem scanning_inv {i : Instr} (hread : ∀ idx, i.mayHold (.autodetect idx) = true)
    (hattempt : ∀ idx, i.mayHold (.attempt idx) = true) :
    Scanning (Running i) (Beginning i) (Opened i) State.Inv where
  toOpening := opening_inv i
  attempts _ hs := hs
  index _ hs := hs
  holdRead idx := fun ⟨hs, ⟨⟨hseq, hesc⟩, hdown⟩, hopen⟩ =>
    inv_of_hold hs hseq (hread idx) (fun _ => hesc) (fun _ _ => hdown) fun _ _ => hopen
  holdAttempt idx := fun ⟨hs, ⟨hseq, hesc⟩, hdown⟩ =>
    inv_of_hold hs hseq (hattempt idx) (fun _ => hesc) (fun _ _ => hdown) nofun

/-! ## Reception -/

theorem listening_receiving : Receiving Listening State.Inv where
  toSteady := sound_steady fun c => c.seq = .busy .poll
  codec _ _ _ hs := hs
  hold := fun ⟨hs, hseq⟩ => inv_of_hold hs hseq rfl (fun h => absurd rfl h)
    (fun _ h => h.elim nofun nofun) nofun

/-- Nothing is said of what the run does. -/
theorem Proc.meets_true {α : Type} {p : Proc α} {s : State} : p.Meets (fun _ _ => True) (fun _ => True) s :=
  ⟨fun _ _ _ => trivial, fun _ _ => trivial⟩

theorem esc_steady : Steady (fun s => s.core.esc = false) (fun _ => True) where
  tick := by
    intro s hs
    rcases tick_cases s with ⟨e, he, -⟩ | ⟨e, he, -⟩
    · exact Proc.meets_of_ok he hs
    · exact Proc.meets_of_halted he trivial
  emit _ _ hs := hs
  take _ _ _ hs := hs

/-- Where a receive class emits a byte, no escape is pending (R141 to R146). -/
theorem rxClass_esc {i : Instr} {s : State} (hs : (∃ r, i = .rxEscaped r) ∨ s.core.esc = false) :
    (rxClass i).Meets (fun _ t => t.core.codecOut.isSome = true → t.core.esc = false) (fun _ => True) s := by
  cases i with
  | rxEscaped r => exact Proc.meets_of_ok (update_run _ s) fun _ => rfl
  | rxEsc => exact Proc.meets_of_ok (update_run _ s) nofun
  | rxSync =>
    have hesc : s.core.esc = false := hs.resolve_left nofun
    have hring : ringForward.Meets (fun _ t => t.core.esc = false) (fun _ => True) s :=
      Proc.meets_regs_bind <| Proc.meets_ite (fun _ => esc_steady.ringWrite _ hesc) fun _ => Proc.meets_pure hesc
    exact hring.bind fun _ t ht => Proc.meets_of_ok (update_run _ t) fun _ => ht
  | rxAa => exact Proc.meets_of_ok (update_run _ s) fun _ => hs.resolve_left nofun
  | rxData r => exact Proc.meets_of_ok (update_run _ s) fun _ => hs.resolve_left nofun
  | _ => exact Proc.meets_pure fun _ => hs.resolve_left nofun

theorem codecRx_esc_clear (raw : Byte) (s : State) :
    (codecRx raw).Meets (fun o t => o.isSome = true → t.core.esc = false) (fun _ => True) s := by
  refine Proc.meets_regs_bind <| (rxClass_esc ?_).bind fun _ _ ht => Proc.meets_regs_bind (Proc.meets_pure ht)
  cases hesc : s.core.esc with
  | true => exact .inl ⟨raw, by simp [classifyRx]⟩
  | false => exact .inr rfl

/-- `NextByte` returns with no escape pending (R148). -/
theorem nextByteIn_esc_clear (n : Nat) (s : State) :
    (nextByteIn n).Meets (fun _ t => t.core.esc = false) (fun _ => True) s := by
  induction n generalizing s with
  | zero => exact Proc.meets_haltAt trivial
  | succ n ih =>
    have hraw : nextRaw.Meets (fun o t => o.isSome = true → t.core.esc = false) (fun _ => True) s :=
      Proc.meets_true.bind fun _ _ _ => Proc.meets_true.bind fun r t _ => codecRx_esc_clear r t
    refine hraw.bind fun o t ht => ?_
    cases o with
    | some b => exact Proc.meets_pure (ht rfl)
    | none => exact ih t

theorem nextByte_running {s : State} (hs : Listening s) : nextByte.Meets (fun _ => Running .poll) State.Inv s :=
  ((listening_receiving.nextByte hs).and (nextByteIn_esc_clear 2 s)).mono (fun _ _ ⟨⟨ht, hseq⟩, hesc⟩ => ⟨ht, hseq, hesc⟩)
    fun _ ⟨ht, _⟩ => ht

theorem Running.accepting {i : Instr} {s : State} (b : Byte) (hs : Running i s) : Running i (s.accepting b) := by
  obtain ⟨⟨hses, hmirror, hc, hcount, hw, hrx⟩, hrun⟩ := hs
  obtain ⟨hw', hrx'⟩ := faAccept_ok b hw hrx
  obtain ⟨w, n, r, hf⟩ := faAccept_frame s.params b s.core
  unfold Running State.accepting State.Sound
  simp only [State.mapCore_core, State.mapCore_env, State.mapCore_params]
  rw [hf] at hw' hrx' ⊢
  exact ⟨⟨hses, hmirror, hc, hcount, hw', hrx'⟩, hrun⟩

theorem running_assembling : Assembling (Running .poll) (fun _ => Running .poll) State.Inv where
  avail := (running_steady .poll).chAvail
  next := fun ⟨hs, hseq, _⟩ => nextByte_running ⟨hs, hseq⟩
  idle hs := hs
  more b _ := Running.accepting b
  done b _ _ := Running.accepting b

/-! ## Commands -/

theorem Running.flush {i : Instr} (hmay : i.mayHold .flush = true) {s : State} (hs : Running i s) :
    (s.setSeq (s.core.seq.waiting .flush)).Inv := by
  obtain ⟨hsound, hseq, hesc⟩ := hs
  exact inv_of_hold hsound hseq hmay (fun _ => hesc) (fun _ h => h.elim nofun nofun) nofun

/-- A register write keeps what R61 asks of the registers (R231, R46). -/
theorem Running.store {i : Instr} {s : State} {v : Word} {r : Csr} {c : Regs} (hs : Running i s)
    (h : csrStore s.core v r = some c) : Running i (s.mapCore fun _ => c) := by
  obtain ⟨⟨hses, hmirror, hc, hcount, hrest⟩, hrun⟩ := hs
  obtain ⟨_, _, _, _, _, _, _, _, rfl, hcount'⟩ := csrStore_cases h
  exact ⟨⟨hses, hmirror, hc, hcount' hcount, hrest⟩, hrun⟩

theorem commandProc_inv {i : Instr} {s : State} (hi : i.isCommand = true) (hs : Running i s) :
    (commandProc i).Meets (fun _ => Running i) State.Inv s := by
  cases i with
  | beginAuto =>
    exact ((scanning_inv (fun _ => rfl) fun _ => rfl).beginAutoProc hs).imp fun _ _ ⟨ht, _⟩ => ht
  | beginBaud b => exact ((opening_inv _).beginBaudProc b hs).imp fun _ _ ⟨ht, _⟩ => ht
  | poll =>
    exact ((scanning_inv (fun _ => rfl) fun _ => rfl).pollProc running_assembling (fun _ ht => ht) hs).imp
      fun _ _ ⟨_, ht⟩ => ht.elim id fun h => h.1
  | reset => exact ((opening_inv _).resetProc hs).imp fun _ _ ⟨ht, _⟩ => ht
  | setNoRestart flag => exact (setNoRestartProc_meets (I := Running (.setNoRestart flag)) flag hs).imp fun _ _ ⟨ht, _⟩ => ht
  | send =>
    exact ((running_steady .send).sendProc (fun ht => ht) (Running.flush rfl) hs).imp fun _ _ ⟨ht, _⟩ => ht
  | csrRead a => exact (csrReadProc_meets a hs).imp fun _ _ ⟨ht, _⟩ => ht
  | csrWrite a v => exact (csrWriteProc_meets a v (fun _ _ => hs.store) hs).imp fun _ _ ⟨ht, _⟩ => ht
  | _ => cases hi

/-- A step that runs a procedure of command `i`. -/
theorem runAs_inv {i : Instr} {p : Proc Reply} {s t : State}
    (hp : p.Meets (fun _ => Running i) State.Inv (s.setSeq (.busy i))) (h : runAs (.busy i) p s = .next t) : t.Inv := by
  rcases runAs_meets hp (fun _ _ => (running_steady i).tick) h with ⟨r, u, hu, rfl⟩ | ht
  · exact hu.respond r
  · exact ht

theorem exec_inv {i : Instr} {s t : State} (hi : i.isCommand = true) (hs : s.Sound) (hesc : s.core.esc = false)
    (h : exec i s = .next t) : t.Inv := by
  rw [exec_command hi] at h
  exact runAs_inv (commandProc_inv hi ⟨hs, rfl, hesc⟩) h

theorem execIllegal_inv {s t : State} (hs : s.Sound) (hesc : s.core.esc = false) (h : execIllegal s = .next t) :
    t.Inv := by
  have hsteady := sound_steady fun c => c.esc = false
  have hp : illegalProc.Meets (fun _ u => u.Sound ∧ u.core.esc = false) State.Inv (s.setSeq .busyIllegal) :=
    Proc.meets_pure ⟨hs, hesc⟩
  rcases runAs_meets hp (fun _ _ => hsteady.tick) h with ⟨r, u, ⟨hu, hesc'⟩, rfl⟩ | ht
  · exact inv_iff.mpr ⟨hu, atRest_idle rfl hesc'⟩
  · exact ht

/-- A held command goes on, from the hold that the invariant lets it stand at (R310). -/
theorem resume_inv {i : Instr} {h : Hold} {s t : State} (hs : s.Inv) (hseq : s.core.seq = .held i h)
    (ht : resume i h s = .next t) : t.Inv := by
  obtain ⟨hsound, hrest⟩ := inv_iff.mp hs
  have hmay := hrest.held_by i h hseq
  have hesc : h ≠ .nextByte → s.core.esc = false := fun hne =>
    hrest.esc_clear fun j hj => hne (Seq.held.inj (hseq.symm.trans hj)).2
  refine runAs_inv (p := resumeProc i h) ?_ ht
  cases h with
  | nextByte =>
    obtain rfl : i = .poll := by simpa [Instr.mayHold] using hmay
    have hresume : assembleResume.Meets (fun _ => Running .poll) State.Inv (s.setSeq (.busy .poll)) :=
      (nextByte_running (s := s.setSeq (.busy .poll)) ⟨hsound, rfl⟩).bind fun b _ h1 =>
        running_assembling.assembleByte b running_assembling.assemble h1
    exact hresume.bind fun _ _ h1 => Proc.meets_pure h1
  | flush =>
    have hstart : Running i (s.setSeq (.busy i)) := ⟨hsound, rfl, hesc nofun⟩
    exact ((running_steady i).waitUntil (Running.flush hmay) hstart).bind fun _ _ h1 => Proc.meets_pure h1
  | autodetect idx =>
    have hscan := scanning_inv (i := i) (fun _ => hmay) fun _ => hmay
    have hstart : Opened i (s.setSeq (.busy i)) :=
      ⟨hsound, ⟨⟨rfl, hesc nofun⟩, hrest.scanning i idx (.inl hseq)⟩, hrest.attempt_open i idx hseq⟩
    exact (hscan.beginResumed i (hscan.autodetectResume idx hstart)).imp fun _ _ ⟨h1, _⟩ => h1
  | attempt idx =>
    have hscan := scanning_inv (i := i) (fun _ => hmay) fun _ => hmay
    have hstart : Beginning i (s.setSeq (.busy i)) :=
      ⟨hsound, ⟨rfl, hesc nofun⟩, hrest.scanning i idx (.inr hseq)⟩
    exact (hscan.beginResumed i (hscan.scanFrom idx hstart)).imp fun _ _ ⟨h1, _⟩ => h1

/-! ## Steps (O60) -/

/-- The port gives only commands (R106). -/
theorem decodeCommand_isCommand {cmd data : Word} {i : Instr} (h : decodeCommand cmd data = .ok i) :
    i.isCommand = true := by
  have hN : ∀ j : Instr, decodeN cmd j = .ok i → i = j := fun j hj => by
    unfold decodeN at hj
    split at hj
    · exact (Except.ok.inj hj).symm
    · cases hj
  have hA : ∀ j : Instr, decodeA cmd j = .ok i → i = j := fun j hj => by
    unfold decodeA at hj
    split at hj
    · exact (Except.ok.inj hj).symm
    · cases hj
  unfold decodeCommand at h
  split_ifs at h
  · exact hN _ h ▸ rfl
  · exact hN _ h ▸ rfl
  · exact hN _ h ▸ rfl
  · exact hN _ h ▸ rfl
  · exact Except.ok.inj h ▸ rfl
  · exact hN _ h ▸ rfl
  · exact hA _ h ▸ rfl
  · exact hA _ h ▸ rfl

theorem accept_inv {cmd data : Word} {s t : State} (hs : s.Sound) (hesc : s.core.esc = false)
    (h : accept cmd data s = .next t) : t.Inv := by
  unfold accept at h
  split at h
  case h_1 i hi =>
    exact exec_inv (s := s.mapEnv fun e => { e with port := none }) (decodeCommand_isCommand hi) hs hesc h
  case h_2 => exact execIllegal_inv (s := s.mapEnv fun e => { e with port := none }) hs hesc h

theorem State.Inv.refill {s : State} (hs : s.Inv) : s.refill.Inv := by
  obtain ⟨sc, su, he⟩ := State.refill_cases s
  have hs' := inv_iff.mp hs
  rw [he]
  exact inv_iff.mpr hs'

/-- Settles O60, by where the sequencer stands: idle, or at a hold; the invariant has no other place. -/
theorem stepKeepsInvariants : Obligations.StepKeepsInvariants := by
  intro s t hs h
  have hs' := hs.refill
  obtain ⟨hsound, hrest⟩ := inv_iff.mp hs'
  obtain ⟨hillegal, hbusy⟩ := hrest.not_running
  cases hseq : s.core.seq with
  | idle =>
    have hesc : s.refill.core.esc = false := hrest.esc_clear fun j => by simp [hseq]
    cases hport : s.env.port with
    | some cd =>
      rw [step_present (cmd := cd.1) (data := cd.2) hseq hport] at h
      exact accept_inv hsound hesc h
    | none =>
      rw [step_idle hseq hport] at h
      have htick := (sound_steady Regs.AtRest).tick (s := s.refill) ⟨hsound, hrest⟩
      exact runForm_meets (htick.imp fun _ _ => inv_iff.mpr) h
  | busy i => exact absurd ((State.refill_core s).symm ▸ hseq) (hbusy i)
  | busyIllegal => exact absurd ((State.refill_core s).symm ▸ hseq) hillegal
  | held i k =>
    rw [step_held hseq] at h
    exact resume_inv hs' (by simpa using hseq) h

end Sys2Proof.Machine
end

section
/-! PROOF of O43, O44 and O47: the CSR map (spec/10_state.md R55, R56), the layouts of the registers (R41 to R54) and their values
after reset (R62). -/

namespace Sys2Proof.Machine

/-! ## Fields of a word, from the lowest up -/

section
variable {m n i k : Nat} {x : BitVec m} {y : BitVec n}

theorem field_self : y.extractLsb' 0 n = y := BitVec.extractLsb'_eq_self

theorem field_lowest : (x ++ y).extractLsb' 0 n = y := by
  ext j hj
  simp [BitVec.getElem_extractLsb', BitVec.getLsbD_append, hj]

/-- A field above the lowest one stands in the rest of the word. -/
theorem field_above {z : BitVec k} (h : x.extractLsb' (i - n) k = z) (hi : n ≤ i) : (x ++ y).extractLsb' i k = z := by
  rw [← h]
  ext j hj
  simp [BitVec.getElem_extractLsb', BitVec.getLsbD_append, show ¬ i + j < n by omega, show i + j - n = i - n + j by omega]

theorem bit_lowest {b : Bool} : (x ++ BitVec.ofBool b).getLsbD 0 = b := by
  rw [BitVec.getLsbD_append]
  simp

theorem bit_above {b c : Bool} (h : x.getLsbD i = c) : (x ++ BitVec.ofBool b).getLsbD (i + 1) = c := by
  simp [BitVec.getLsbD_append, h]

end

/-- The lowest four bytes of a word of four bytes. -/
theorem bytes_of_word (a b c d : Byte) :
    (a ++ b ++ c ++ d : Word).extractLsb' 0 8 = d ∧ (a ++ b ++ c ++ d : Word).extractLsb' 8 8 = c ∧
      (a ++ b ++ c ++ d : Word).extractLsb' 16 8 = b ∧ (a ++ b ++ c ++ d : Word).extractLsb' 24 8 = a :=
  ⟨field_lowest, field_above field_lowest (by decide), field_above (field_above field_lowest (by decide)) (by decide),
    field_above (field_above (field_above field_self (by decide)) (by decide)) (by decide)⟩

/-- STATUS (R41). -/
theorem statusWord_fields (c : Regs) :
    (statusWord c).getLsbD 0 = c.ready ∧ (statusWord c).getLsbD 1 = c.fatal ∧ (statusWord c).getLsbD 2 = c.chOpen ∧
      (statusWord c).getLsbD 3 = c.esc ∧ (statusWord c).extractLsb' 4 4 = 0 ∧ (statusWord c).extractLsb' 8 8 = c.faPos ∧
      (statusWord c).extractLsb' 16 8 = c.syncCount ∧ (statusWord c).extractLsb' 24 8 = 0 := by
  have hfields : ∀ {i k : Nat} {z : BitVec k}, 4 ≤ i →
      (0#8 ++ c.syncCount ++ c.faPos ++ 0#4).extractLsb' (i - 1 - 1 - 1 - 1) k = z → (statusWord c).extractLsb' i k = z :=
    fun hi h => field_above (field_above (field_above (field_above h (by omega)) (by omega)) (by omega)) (by omega)
  exact ⟨bit_lowest, bit_above bit_lowest, bit_above (bit_above bit_lowest), bit_above (bit_above (bit_above bit_lowest)),
    hfields (by decide) field_lowest, hfields (by decide) (field_above field_lowest (by decide)),
    hfields (by decide) (field_above (field_above field_lowest (by decide)) (by decide)),
    hfields (by decide) (field_above (field_above (field_above field_self (by decide)) (by decide)) (by decide))⟩

/-- CONFIG (R42). -/
theorem config_fields (c : Regs) :
    (csrValue c .config).getLsbD 0 = c.mode ∧ (csrValue c .config).getLsbD 1 = c.autoRestartDisabled ∧
      (csrValue c .config).getLsbD 2 = c.ringFwdEn ∧ (csrValue c .config).extractLsb' 3 29 = 0 :=
  ⟨bit_lowest, bit_above bit_lowest, bit_above (bit_above bit_lowest),
    field_above (field_above (field_above field_self (by decide)) (by decide)) (by decide)⟩

/-- A register with one field, its upper bits reserved. -/
theorem lone_field {m n : Nat} (y : BitVec n) :
    (0#m ++ y).extractLsb' 0 n = y ∧ (0#m ++ y).extractLsb' n m = 0 :=
  ⟨field_lowest, field_above (by rw [Nat.sub_self]; exact field_self) (Nat.le_refl n)⟩

/-- Settles O44, register by register. -/
theorem registerLayouts : Obligations.RegisterLayouts := fun c =>
  ⟨statusWord_fields c, config_fields c, bytes_of_word c.rx.frameID c.rx.command c.rx.nodeID c.rx.preamble,
    ⟨field_lowest, field_above field_lowest (by decide), field_above (field_above field_self (by decide)) (by decide)⟩,
    bytes_of_word c.tx.frameID c.tx.command c.tx.nodeID Config.preamble, lone_field _, ⟨rfl, rfl, rfl, rfl, fun _ => rfl⟩,
    lone_field _, lone_field _, fun _ => lone_field _, fun _ => lone_field _⟩

/-! ## Reset (O47) -/

theorem baudAt_reset (i : BitVec 3) : baudAt Regs.reset i = 0 := by
  simp [baudAt, Regs.reset]

theorem rxPay_reset (i : Nat) : csrValue Regs.reset (.rxPay i) = 0 := by
  have h : Regs.reset.rx.payload.get i = 0 := Bank.get_zero i
  simp [csrValue, h]

theorem txPay_reset (i : Nat) : csrValue Regs.reset (.txPay i) = 0 := by
  have h : Regs.reset.tx.payload.get i = 0 := Bank.get_zero i
  simp [csrValue, h]

/-- Settles O47; the windows read as 0 at every entry. -/
theorem resetRegisterValues : Obligations.ResetRegisterValues := by
  refine ⟨rfl, rfl, rfl, rfl, rfl, rfl, rfl, rfl, rfl, rfl, ?_⟩
  exact ⟨by decide, by decide, by decide, by decide, by decide, by decide, by decide, by decide, baudAt_reset, by decide,
    by decide, by decide, by decide, rxPay_reset, txPay_reset⟩

/-! ## The CSR map (O43) -/

section
variable {p : Params} {a : CsrAddr} {s : State}

theorem ite_some_eq_none {α : Type} {c : Prop} [Decidable c] {x : α} {r : Option α} :
    (if c then some x else r) = none ↔ ¬ c ∧ r = none := by
  split
  case isTrue h => simp [h]
  case isFalse h => simp [h]

/-- The unmapped addresses are the gaps between the mapped ones (R56). -/
theorem csrAt_eq_none_iff : csrAt p a = none ↔
    (0x0008 ≤ a.toNat ∧ a.toNat ≤ 0x000F) ∨ (0x0018 ≤ a.toNat ∧ a.toNat ≤ 0x001F) ∨
      (0x0022 ≤ a.toNat ∧ a.toNat ≤ 0x002F) ∨ (0x0032 ≤ a.toNat ∧ a.toNat ≤ 0x00FF) ∨
      (0x0100 + p.payloadCap.val ≤ a.toNat ∧ a.toNat ≤ 0x01FF) ∨
      (0x0200 + p.payloadCap.val ≤ a.toNat ∧ a.toNat ≤ 0x02FF) ∨ 0x0300 ≤ a.toNat := by
  have hcap := p.payloadCap.isLt
  simp only [csrAt, ite_some_eq_none, and_true]
  unfold Config.nbaudMax
  bv_omega

theorem ne_of_addr_lt {n : Nat} (h : n ≤ a.toNat) (k : CsrAddr) (hk : k.toNat < n) : ¬ a = k := by
  rintro rfl
  omega

/-- BAUD_LIST (R49). -/
theorem csrAt_baudList (i : BitVec 3) (h : a.toNat = 0x0010 + i.toNat) : csrAt p a = some (.baudList i) := by
  have hi := i.isLt
  have hne := ne_of_addr_lt (a := a) (n := 0x0010) (by omega)
  have hin : 0x0010 ≤ a.toNat ∧ a.toNat < 0x0010 + Config.nbaudMax := by unfold Config.nbaudMax; omega
  rw [csrAt, if_neg (hne _ (by decide)), if_neg (hne _ (by decide)), if_neg (hne _ (by decide)), if_neg (hne _ (by decide)),
    if_neg (hne _ (by decide)), if_neg (hne _ (by decide)), if_neg (hne _ (by decide)), if_neg (hne _ (by decide)), if_pos hin,
    h, Nat.add_sub_cancel_left, BitVec.ofNat_toNat, BitVec.setWidth_eq]

/-- From 0x0100 on there are the two payload windows. -/
theorem csrAt_payload (h : 0x0100 ≤ a.toNat) : csrAt p a =
    if 0x0100 ≤ a.toNat ∧ a.toNat < 0x0100 + p.payloadCap.val then some (.rxPay (a.toNat - 0x0100))
    else if 0x0200 ≤ a.toNat ∧ a.toNat < 0x0200 + p.payloadCap.val then some (.txPay (a.toNat - 0x0200)) else none := by
  have hne := ne_of_addr_lt h
  have hout : ¬ (0x0010 ≤ a.toNat ∧ a.toNat < 0x0010 + Config.nbaudMax) := by unfold Config.nbaudMax; omega
  rw [csrAt, if_neg (hne _ (by decide)), if_neg (hne _ (by decide)), if_neg (hne _ (by decide)), if_neg (hne _ (by decide)),
    if_neg (hne _ (by decide)), if_neg (hne _ (by decide)), if_neg (hne _ (by decide)), if_neg (hne _ (by decide)), if_neg hout,
    if_neg (hne _ (by decide)), if_neg (hne _ (by decide)), if_neg (hne _ (by decide)), if_neg (hne _ (by decide))]

theorem csrAt_rxPay {i : Nat} (hi : i < p.payloadCap.val) (h : a.toNat = 0x0100 + i) : csrAt p a = some (.rxPay i) := by
  have hin : 0x0100 ≤ a.toNat ∧ a.toNat < 0x0100 + p.payloadCap.val := by omega
  rw [csrAt_payload hin.1, if_pos hin, h, Nat.add_sub_cancel_left]

/-- The RX window ends below the TX window: it has at most 256 entries (log 3). -/
theorem csrAt_txPay {i : Nat} (hi : i < p.payloadCap.val) (h : a.toNat = 0x0200 + i) : csrAt p a = some (.txPay i) := by
  have hcap := p.payloadCap.isLt
  have hrx : ¬ (0x0100 ≤ a.toNat ∧ a.toNat < 0x0100 + p.payloadCap.val) := by omega
  have hin : 0x0200 ≤ a.toNat ∧ a.toNat < 0x0200 + p.payloadCap.val := by omega
  rw [csrAt_payload (by omega), if_neg hrx, if_pos hin, h, Nat.add_sub_cancel_left]

/-- A read of an unmapped address, and a write to one, answer BAD_CSR and change nothing (R56). -/
theorem csrReadProc_unmapped (h : csrAt s.params a = none) :
    (csrReadProc a).run s = .ok (.plain .badCsr) s := by
  rw [csrReadProc, Proc.bind_ok (regs_run s), Proc.bind_ok (params_run s), h]
  rfl

theorem csrWriteProc_unmapped (v : Word) (h : csrAt s.params a = none) :
    (csrWriteProc a v).run s = .ok (.plain .badCsr) s := by
  rw [csrWriteProc, Proc.bind_ok (regs_run s), Proc.bind_ok (params_run s), h]
  rfl

theorem exec_csr_unmapped (v : Word) (h : csrAt s.params a = none) (hq : s.env.script = []) :
    ∀ i ∈ [Instr.csrRead a, .csrWrite a v],
      exec i s = .next { s with core := { s.core with seq := .idle }, trace := s.trace ++ [.resp 0x0C 0] } := by
  intro i hi
  obtain rfl | rfl : i = .csrRead a ∨ i = .csrWrite a v := by simpa using hi
  · exact runCommand_quiet (csrReadProc_unmapped (s := s.setSeq (.busy (.csrRead a))) h) hq
  · exact runCommand_quiet (csrWriteProc_unmapped (s := s.setSeq (.busy (.csrWrite a v))) v h) hq

end

/-- Settles O43: the gaps, the registers with one address, and the three windows. -/
theorem csrMapIsExact : Obligations.CsrMapIsExact := by
  refine fun p a => ⟨fun h s v hp hq => exec_csr_unmapped v (hp ▸ h) hq, csrAt_eq_none_iff, ?_⟩
  refine ⟨rfl, rfl, rfl, rfl, rfl, rfl, rfl, rfl, rfl, rfl, rfl, rfl, csrAt_baudList, ?_⟩
  exact ⟨fun _ => csrAt_rxPay, fun _ => csrAt_txPay⟩

end Sys2Proof.Machine
end

section
/-! PROOF of O53: the trace is only ever appended to, and the parameters stay, whatever the environment does; a hardware reset
leaves both (R300). -/

namespace Sys2Proof.Machine

/-- The trace of `s` starts with that of `s₀`, at the same parameters. -/
def Extends (s₀ s : State) : Prop := s₀.trace <+: s.trace ∧ s.params = s₀.params

section
variable {s₀ s t : State}

theorem Extends.refl (s : State) : Extends s s := ⟨List.prefix_rfl, rfl⟩

theorem Extends.exists_trace_eq (h : Extends s t) : (∃ l, t.trace = s.trace ++ l) ∧ t.params = s.params := by
  obtain ⟨⟨l, hl⟩, hp⟩ := h
  exact ⟨⟨l, hl.symm⟩, hp⟩

/-- The one way in which the trace changes (R88). -/
theorem Extends.event {e : Event} (h : Extends s₀ s) (htrace : t.trace = s.trace ++ [e]) (hparams : t.params = s.params) :
    Extends s₀ t := by
  obtain ⟨htr, hp⟩ := h
  exact ⟨htrace ▸ htr.trans (List.prefix_append _ _), hparams.trans hp⟩

/-! ## Procedures -/

/-- The environment's turns, the events and the reads keep any fact about the registers besides, unless a hardware reset ends
the procedure. -/
theorem extends_steady_with (C : Regs → Prop) : Steady (fun s => Extends s₀ s ∧ C s.core) (Extends s₀) where
  tick := by
    rintro s ⟨hs, hc⟩
    rcases tick_cases s with ⟨e, he, -⟩ | ⟨e, he, -⟩
    · exact Proc.meets_of_ok he ⟨hs, hc⟩
    · exact Proc.meets_of_halted he hs
  emit _ _ := fun ⟨hs, hc⟩ => ⟨hs.event rfl rfl, hc⟩
  take _ _ _ := fun ⟨hs, hc⟩ => ⟨hs.event rfl rfl, hc⟩

theorem extends_steady : Steady (Extends s₀) (Extends s₀) := by
  simpa only [and_true] using extends_steady_with (s₀ := s₀) fun _ => True

theorem extends_receiving : Receiving (Extends s₀) (Extends s₀) where
  toSteady := extends_steady
  codec _ _ _ hs := hs
  hold hs := hs

theorem extends_assembling : Assembling (Extends s₀) (fun _ => Extends s₀) (Extends s₀) where
  avail := extends_steady.chAvail
  next := extends_receiving.nextByte
  idle hs := hs
  more _ _ hs := hs
  done _ _ _ hs := hs

theorem extends_scanning : Scanning (Extends s₀) (Extends s₀) (Extends s₀) (Extends s₀) where
  before := extends_steady
  alive := extends_steady_with fun c => c.fatal = false
  between := extends_steady
  opened := extends_steady
  back hs := hs
  still hs := hs
  absent hs := hs
  down hs _ := hs
  closeDown hs := hs.event rfl rfl
  close hs := hs.event rfl rfl
  chOpen _ hs := hs.event rfl rfl
  rate _ hs := hs
  clearCodec hs := hs
  clearFrame hs := hs
  up _ hs := hs
  attempts _ hs := hs
  index _ hs := hs
  holdRead _ hs := hs
  holdAttempt _ hs := hs

theorem commandProc_extends (i : Instr) (hs : Extends s₀ s) :
    (commandProc i).Meets (fun _ => Extends s₀) (Extends s₀) s := by
  cases i with
  | beginAuto => exact (extends_scanning.beginAutoProc hs).imp fun _ _ ⟨ht, _⟩ => ht
  | beginBaud b => exact (extends_scanning.beginBaudProc b hs).imp fun _ _ ⟨ht, _⟩ => ht
  | poll =>
    exact (extends_scanning.pollProc extends_assembling (fun _ ht => ht) hs).imp fun _ _ ⟨_, ht⟩ =>
      ht.elim id fun ⟨hb, _⟩ => hb
  | reset => exact (extends_scanning.resetProc hs).imp fun _ _ ⟨ht, _⟩ => ht
  | setNoRestart flag => exact (setNoRestartProc_meets (I := Extends s₀) flag hs).imp fun _ _ ⟨ht, _⟩ => ht
  | send => exact (extends_steady.sendProc (fun ht => ht.event rfl rfl) (fun ht => ht) hs).imp fun _ _ ⟨ht, _⟩ => ht
  | csrRead a => exact (csrReadProc_meets a hs).imp fun _ _ ⟨ht, _⟩ => ht
  | csrWrite a v => exact (csrWriteProc_meets (I := Extends s₀) a v (fun _ _ _ => hs) hs).imp fun _ _ ⟨ht, _⟩ => ht
  | _ => exact Proc.meets_pure hs

theorem resumeProc_extends (i : Instr) (h : Hold) (hs : Extends s₀ s) :
    (resumeProc i h).Meets (fun _ => Extends s₀) (Extends s₀) s := by
  cases h with
  | nextByte => exact (extends_assembling.assembleResume hs).bind fun _ _ ht => Proc.meets_pure ht
  | flush => exact (extends_steady.waitUntil (fun ht => ht) hs).bind fun _ _ ht => Proc.meets_pure ht
  | autodetect idx =>
    exact (extends_scanning.beginResumed i (extends_scanning.autodetectResume idx hs)).imp fun _ _ ⟨ht, _⟩ => ht
  | attempt idx =>
    exact (extends_scanning.beginResumed i (extends_scanning.scanFrom idx hs)).imp fun _ _ ⟨ht, _⟩ => ht

/-! ## Steps -/

/-- A step that runs a procedure appends the procedure's events, and its response if it comes to one (R234). -/
theorem runAs_extends {v : Seq} {p : Proc Reply} (hp : ∀ {u}, Extends s u → p.Meets (fun _ => Extends s) (Extends s) u)
    (h : runAs v p s = .next t) : Extends s t := by
  have hstart : Extends s (s.setSeq v) := Extends.refl s
  rcases runAs_meets (hp hstart) (fun _ _ => extends_steady.tick) h with ⟨r, u, hu, rfl⟩ | ht
  · exact hu.event rfl rfl
  · exact ht

theorem exec_extends {i : Instr} (h : exec i s = .next t) : Extends s t := by
  cases hi : i.isCommand with
  | true =>
    rw [exec_command hi] at h
    exact runAs_extends (commandProc_extends i) h
  | false => exact exec_form_meets hi extends_receiving (Extends.refl s) h

theorem execIllegal_extends (h : execIllegal s = .next t) : Extends s t :=
  runAs_extends (p := illegalProc) (fun hu => Proc.meets_pure hu) h

theorem accept_extends {cmd data : Word} (h : accept cmd data s = .next t) : Extends s t := by
  unfold accept at h
  split at h
  case h_1 => exact exec_extends (s := s.mapEnv fun e => { e with port := none }) h
  case h_2 => exact execIllegal_extends (s := s.mapEnv fun e => { e with port := none }) h

/-- The sequencer, at each of its places (R32). -/
theorem sequence_extends (h : sequence s = .next t) : Extends s t := by
  unfold sequence at h
  split at h
  case h_1 =>
    split at h
    case h_1 => exact accept_extends h
    case h_2 => exact runForm_meets (extends_steady.tick (Extends.refl s)) h
  case h_2 => exact exec_extends h
  case h_3 => exact execIllegal_extends h
  case h_4 i k _ => exact runAs_extends (resumeProc_extends i k) h

theorem step_extends (h : step s = .next t) : Extends s t := by
  obtain ⟨htrace, hparams⟩ := sequence_extends h
  exact ⟨State.refill_trace s ▸ htrace, hparams.trans (State.refill_params s)⟩

end

/-- Settles O53: every instruction and every step extends the machine it starts from (`exec_extends`, `step_extends`). -/
theorem traceOnlyGrows : Obligations.TraceOnlyGrows :=
  ⟨fun _ _ _ h => (exec_extends h).exists_trace_eq, fun _ _ h => (step_extends h).exists_trace_eq⟩

end Sys2Proof.Machine
end

section
/-! PROOF of O1 to O4, O10 and O41: command words (spec/30_encoding.md R100 to R106), the classes of raw bytes (R110), and the
transmit forms with the raw length of a frame (R112, R113). -/

namespace Sys2Proof

open Machine (field_self field_lowest field_above bit_lowest)

/-! ## Command words by their fields (R100 to R104) -/

section
variable (cmd : Word) (addr : CsrAddr) (op mid : Byte) (flag : Bool) (highF : BitVec 23) (highN : BitVec 24)

theorem fieldsN_append : (cmdHighN cmd ++ cmdOp cmd : Word) = cmd := by
  unfold cmdHighN cmdOp
  rw [BitVec.extractLsb'_append_extractLsb'_eq_extractLsb' (show 8 = 0 + 8 from rfl)]
  exact field_self

theorem fieldsA_append : (cmdAddr cmd ++ cmdMidA cmd ++ cmdOp cmd : Word) = cmd := by
  unfold cmdAddr cmdMidA cmdOp
  rw [BitVec.extractLsb'_append_extractLsb'_eq_extractLsb' (show 16 = 8 + 8 from rfl),
    BitVec.extractLsb'_append_extractLsb'_eq_extractLsb' (show 8 = 0 + 8 from rfl)]
  exact field_self

theorem ofBool_cmdFlag : BitVec.ofBool (cmdFlag cmd) = cmd.extractLsb' 8 1 := by
  ext i hi
  obtain rfl : i = 0 := by omega
  simp [cmdFlag]

theorem fieldsF_append : (cmdHighF cmd ++ BitVec.ofBool (cmdFlag cmd) ++ cmdOp cmd : Word) = cmd := by
  rw [ofBool_cmdFlag]
  unfold cmdHighF cmdOp
  rw [BitVec.extractLsb'_append_extractLsb'_eq_extractLsb' (show 9 = 8 + 1 from rfl),
    BitVec.extractLsb'_append_extractLsb'_eq_extractLsb' (show 8 = 0 + 8 from rfl)]
  exact field_self

@[simp] theorem cmdOp_fieldsN : cmdOp (highN ++ op : Word) = op := field_lowest
@[simp] theorem cmdHighN_fieldsN : cmdHighN (highN ++ op : Word) = highN := field_above field_self (by decide)

@[simp] theorem cmdOp_fieldsA : cmdOp (addr ++ mid ++ op : Word) = op := field_lowest
@[simp] theorem cmdMidA_fieldsA : cmdMidA (addr ++ mid ++ op : Word) = mid := field_above field_lowest (by decide)
@[simp] theorem cmdAddr_fieldsA : cmdAddr (addr ++ mid ++ op : Word) = addr :=
  field_above (field_above field_self (by decide)) (by decide)

@[simp] theorem cmdOp_fieldsF : cmdOp (highF ++ BitVec.ofBool flag ++ op : Word) = op := field_lowest
@[simp] theorem cmdHighF_fieldsF : cmdHighF (highF ++ BitVec.ofBool flag ++ op : Word) = highF :=
  field_above (field_above field_self (by decide)) (by decide)
@[simp] theorem cmdFlag_fieldsF : cmdFlag (highF ++ BitVec.ofBool flag ++ op : Word) = flag := by
  rw [cmdFlag, BitVec.getLsbD_append]
  exact bit_lowest

/-! ## The masks of the formats (R106) -/

/-- The mask of format F clears the flag alone. -/
theorem and_maskF : cmd &&& 0xFFFFFEFF = (cmdHighF cmd ++ BitVec.ofBool false ++ cmdOp cmd : Word) := by
  have hmask : (0xFFFFFEFF : Word) = BitVec.allOnes 23 ++ 0#1 ++ BitVec.allOnes 8 := by decide
  calc cmd &&& 0xFFFFFEFF
      = (cmdHighF cmd ++ BitVec.ofBool (cmdFlag cmd) ++ cmdOp cmd : Word) &&&
          (BitVec.allOnes 23 ++ 0#1 ++ BitVec.allOnes 8) := by rw [fieldsF_append, hmask]
    _ = _ := by simp only [BitVec.and_append, BitVec.and_allOnes, BitVec.and_zero]; rfl

/-- The mask of format A clears the address alone. -/
theorem and_maskA : cmd &&& 0x0000FFFF = (0#16 ++ cmdMidA cmd ++ cmdOp cmd : Word) := by
  have hmask : (0x0000FFFF : Word) = 0#16 ++ BitVec.allOnes 8 ++ BitVec.allOnes 8 := by decide
  calc cmd &&& 0x0000FFFF
      = (cmdAddr cmd ++ cmdMidA cmd ++ cmdOp cmd : Word) &&& (0#16 ++ BitVec.allOnes 8 ++ BitVec.allOnes 8) := by
        rw [fieldsA_append, hmask]
    _ = _ := by simp only [BitVec.and_append, BitVec.and_allOnes, BitVec.and_zero]

end

/-! ## Legal words of each format (R101 to R103) -/

section
variable {cmd : Word} {op : Byte}

theorem formatN_iff : cmdOp cmd = op ∧ cmdHighN cmd = 0 ↔ cmd = 0#24 ++ op := by
  constructor
  · rintro ⟨rfl, hmbz⟩
    exact (fieldsN_append cmd).symm.trans (by rw [hmbz]; rfl)
  · rintro rfl
    exact ⟨cmdOp_fieldsN op _, cmdHighN_fieldsN op _⟩

theorem formatF_iff : cmdOp cmd = op ∧ cmdHighF cmd = 0 ↔
    cmd &&& 0xFFFFFEFF = ((0 : BitVec 23) ++ BitVec.ofBool false ++ op : Word) := by
  rw [and_maskF]
  constructor
  · rintro ⟨rfl, hmbz⟩
    rw [hmbz]
  · intro h
    exact ⟨by simpa only [cmdOp_fieldsF] using congrArg cmdOp h,
      by simpa only [cmdHighF_fieldsF] using congrArg cmdHighF h⟩

theorem formatA_iff : cmdOp cmd = op ∧ cmdMidA cmd = 0 ↔ cmd &&& 0x0000FFFF = (0#16 ++ (0 : Byte) ++ op : Word) := by
  rw [and_maskA]
  constructor
  · rintro ⟨rfl, hmbz⟩
    rw [hmbz]
  · intro h
    exact ⟨by simpa only [cmdOp_fieldsA] using congrArg cmdOp h,
      by simpa only [cmdMidA_fieldsA] using congrArg cmdMidA h⟩

/-- A legal word of format F is made of its flag and its opcode. -/
theorem formatF_eq (hop : cmdOp cmd = op) (hmbz : cmdHighF cmd = 0) :
    ((0 : BitVec 23) ++ BitVec.ofBool (cmdFlag cmd) ++ op : Word) = cmd := by
  rw [← hop, ← hmbz, fieldsF_append]

/-- A legal word of format A is made of its address and its opcode. -/
theorem formatA_eq (hop : cmdOp cmd = op) (hmbz : cmdMidA cmd = 0) :
    (cmdAddr cmd ++ (0 : Byte) ++ op : Word) = cmd := by
  rw [← hop, ← hmbz, fieldsA_append]

end

/-! ## Decode of a command word (R106) -/

section
variable {cmd data d : Word} {i j : Instr}

theorem decodeN_eq_ok : decodeN cmd i = .ok j ↔ cmdHighN cmd = 0 ∧ j = i := by
  unfold decodeN
  split
  case isTrue h => simp [h, eq_comm]
  case isFalse h => exact iff_of_false nofun fun ⟨hmbz, _⟩ => h hmbz

theorem decodeA_eq_ok : decodeA cmd i = .ok j ↔ cmdMidA cmd = 0 ∧ j = i := by
  unfold decodeA
  split
  case isTrue h => simp [h, eq_comm]
  case isFalse h => exact iff_of_false nofun fun ⟨hmbz, _⟩ => h hmbz

/-- Which command a word decodes to, by its opcode and its format's must-be-zero field. -/
theorem decodeCommand_eq_ok : decodeCommand cmd data = .ok i ↔
    ((cmdOp cmd = 0x01 ∧ cmdHighN cmd = 0) ∧ i = .beginAuto) ∨
    ((cmdOp cmd = 0x02 ∧ cmdHighN cmd = 0) ∧ i = .beginBaud data) ∨
    ((cmdOp cmd = 0x03 ∧ cmdHighN cmd = 0) ∧ i = .poll) ∨
    ((cmdOp cmd = 0x04 ∧ cmdHighN cmd = 0) ∧ i = .reset) ∨
    ((cmdOp cmd = 0x05 ∧ cmdHighF cmd = 0) ∧ i = .setNoRestart (cmdFlag cmd)) ∨
    ((cmdOp cmd = 0x06 ∧ cmdHighN cmd = 0) ∧ i = .send) ∨
    ((cmdOp cmd = 0x07 ∧ cmdMidA cmd = 0) ∧ i = .csrRead (cmdAddr cmd)) ∨
    ((cmdOp cmd = 0x08 ∧ cmdMidA cmd = 0) ∧ i = .csrWrite (cmdAddr cmd) data) := by
  unfold decodeCommand
  split_ifs with h1 h2 h3 h4 h5 hmbz h6 h7 h8
  · simp [h1, decodeN_eq_ok]
  · simp [h2, decodeN_eq_ok]
  · simp [h3, decodeN_eq_ok]
  · simp [h4, decodeN_eq_ok]
  · simp [h5, hmbz, eq_comm]
  · simpa [h5] using fun hz => absurd hz hmbz
  · simp [h6, decodeN_eq_ok]
  · simp [h7, decodeA_eq_ok]
  · simp [h8, decodeA_eq_ok]
  · simp only [h1, h2, h3, h4, h5, h6, h7, h8, false_and, or_self]

/-- Settles O4: the opcode and the must-be-zero field of each format are the masked word of R106. -/
theorem commandDecodeIsExact : Obligations.CommandDecodeIsExact := fun cmd data i => by
  simp only [decodeCommand_eq_ok, formatN_iff, formatF_iff, formatA_iff]
  rfl

/-- The decoder reads back the encoding of a command (R104, R105). -/
theorem decodeCommand_of_encode (h : encode i = .command cmd d) : decodeCommand cmd d = .ok i := by
  cases i with
  | beginAuto => cases h; rfl
  | beginBaud baud => cases h; rfl
  | poll => cases h; rfl
  | reset => cases h; rfl
  | setNoRestart flag => cases h; simp [decodeCommand]
  | send => cases h; rfl
  | csrRead addr => cases h; simp [decodeCommand, decodeA]
  | csrWrite addr data => cases h; simp [decodeCommand, decodeA]
  | _ => cases h

/-- The encoder gives back the word that was decoded (R106). -/
theorem encode_of_decodeCommand (h : decodeCommand cmd data = .ok i) : ∃ d, encode i = .command cmd d := by
  rcases decodeCommand_eq_ok.mp h with ⟨hcmd, rfl⟩ | ⟨hcmd, rfl⟩ | ⟨hcmd, rfl⟩ | ⟨hcmd, rfl⟩ | ⟨⟨hop, hmbz⟩, rfl⟩ |
    ⟨hcmd, rfl⟩ | ⟨⟨hop, hmbz⟩, rfl⟩ | ⟨⟨hop, hmbz⟩, rfl⟩
  · exact ⟨0, congrArg (Encoded.command · 0) (formatN_iff.mp hcmd).symm⟩
  · exact ⟨data, congrArg (Encoded.command · data) (formatN_iff.mp hcmd).symm⟩
  · exact ⟨0, congrArg (Encoded.command · 0) (formatN_iff.mp hcmd).symm⟩
  · exact ⟨0, congrArg (Encoded.command · 0) (formatN_iff.mp hcmd).symm⟩
  · exact ⟨0, congrArg (Encoded.command · 0) (formatF_eq hop hmbz)⟩
  · exact ⟨0, congrArg (Encoded.command · 0) (formatN_iff.mp hcmd).symm⟩
  · exact ⟨0, congrArg (Encoded.command · 0) (formatA_eq hop hmbz)⟩
  · exact ⟨data, congrArg (Encoded.command · data) (formatA_eq hop hmbz)⟩

end

/-- Settles O3; the operand word goes to two commands, each of a row of its own. -/
theorem decodedCommandReencodes : Obligations.DecodedCommandReencodes := by
  intro cmd data i h
  obtain ⟨d, hd⟩ := encode_of_decodeCommand h
  refine ⟨⟨d, hd, decodeCommand_of_encode hd⟩, ?_, ?_⟩
  · rintro baud rfl
    have hrow : (cmdOp cmd = 0x02 ∧ cmdHighN cmd = 0) ∧ baud = data := by simpa using decodeCommand_eq_ok.mp h
    exact hrow.2
  · rintro a v rfl
    have hrow : (cmdOp cmd = 0x08 ∧ cmdMidA cmd = 0) ∧ a = cmdAddr cmd ∧ v = data := by
      simpa using decodeCommand_eq_ok.mp h
    exact hrow.2.2

/-! ## The classes of a raw byte (R110) -/

section
variable {n raw : Byte}

theorem classifyRx_escaped : classifyRx true n raw = .rxEscaped raw := rfl

theorem classifyRx_escape : classifyRx false n Config.escape = .rxEsc := rfl

theorem classifyRx_sync : classifyRx false 0 Config.preamble = .rxSync := rfl

theorem classifyRx_aa (hn : n ≠ 0) : classifyRx false n Config.preamble = .rxAa := if_neg hn

theorem classifyRx_data (hpreamble : raw ≠ Config.preamble) (hescape : raw ≠ Config.escape) :
    classifyRx false n raw = .rxData raw := by
  rw [classifyRx, if_neg Bool.false_ne_true, if_neg hescape, if_neg hpreamble]

theorem Config.special_eq_false : Config.special raw = false ↔ raw ≠ Config.preamble ∧ raw ≠ Config.escape := by
  simp [Config.special]

end

/-- Settles O10, row by row of R110. -/
theorem rawByteClasses : Obligations.RawByteClasses := fun _ _ =>
  ⟨classifyRx_escaped, classifyRx_escape, classifyRx_sync, classifyRx_aa, classifyRx_data⟩

/-! ## The transmit forms (R112) -/

section
variable {b : Byte}

theorem classifyTx_special (hb : Config.special b = true) : classifyTx b = .txEscd b := if_pos hb

theorem classifyTx_ordinary (hb : Config.special b = false) : classifyTx b = .txLit b := by
  rw [classifyTx, hb, if_neg Bool.false_ne_true]

end

/-! ## The round trip (R101 to R105, R110, R112) -/

/-- Settles O2, row by row: a command by `decodeCommand_of_encode`, a byte by its class or its form in the admitted context. -/
theorem decodeEncodeRoundTrip : Obligations.DecodeEncodeRoundTrip := by
  rintro ⟨esc, n, first⟩ i hwf hctx
  cases i with
  | rxEscaped raw =>
    obtain rfl : esc = true := hctx
    rfl
  | rxEsc =>
    obtain rfl : esc = false := by simpa [Instr.admittedBy] using hctx
    rfl
  | rxSync =>
    obtain ⟨rfl, rfl⟩ : esc = false ∧ n = 0 := by simpa [Instr.admittedBy] using hctx
    rfl
  | rxAa =>
    obtain ⟨rfl, hn⟩ : esc = false ∧ n ≠ 0 := by simpa [Instr.admittedBy] using hctx
    exact congrArg Except.ok (classifyRx_aa hn)
  | rxData raw =>
    obtain rfl : esc = false := by simpa [Instr.admittedBy] using hctx
    obtain ⟨hpreamble, hescape⟩ := Config.special_eq_false.mp (by simpa [Instr.wf] using hwf)
    exact congrArg Except.ok (classifyRx_data hpreamble hescape)
  | txPre =>
    obtain rfl : first = true := hctx
    rfl
  | txLit b =>
    obtain rfl : first = false := by simpa [Instr.admittedBy] using hctx
    exact congrArg Except.ok (classifyTx_ordinary (by simpa [Instr.wf] using hwf))
  | txEscd b =>
    obtain rfl : first = false := by simpa [Instr.admittedBy] using hctx
    exact congrArg Except.ok (classifyTx_special hwf)
  | _ => exact decodeCommand_of_encode rfl

/-- Settles O1: each word is the encoding of its row, in a context that the row admits. -/
theorem specWordsDecode : Obligations.SpecWordsDecode := by
  have hbyte := decodeEncodeRoundTrip
  refine ⟨decodeCommand_of_encode rfl, decodeCommand_of_encode rfl, decodeCommand_of_encode rfl, decodeCommand_of_encode rfl,
    decodeCommand_of_encode rfl, decodeCommand_of_encode rfl, decodeCommand_of_encode rfl, decodeCommand_of_encode rfl, ?_⟩
  exact ⟨hbyte _ (.rxEscaped 0x55) rfl rfl, hbyte _ .rxEsc rfl rfl, hbyte _ .rxSync rfl rfl, hbyte _ .rxAa rfl rfl,
    hbyte _ (.rxData 0x01) rfl rfl, hbyte _ .txPre rfl rfl, hbyte _ (.txLit 0x55) rfl rfl, hbyte _ (.txEscd 0xAA) rfl rfl⟩

end Sys2Proof

namespace Sys2Proof.Machine

/-! ## The raw length of a frame (R113) -/

theorem txRaw_classifyTx_length (b : Byte) : (txRaw (classifyTx b)).length = if Config.special b then 2 else 1 := by
  cases hb : Config.special b with
  | true => rw [classifyTx_special hb]; rfl
  | false => rw [classifyTx_ordinary hb]; rfl

/-- Each byte is sent as itself, or as the two bytes of an escape pair. -/
theorem txRaw_flatMap_length (bs : List Byte) :
    (bs.flatMap fun b => txRaw (classifyTx b)).length = bs.length + bs.countP Config.special := by
  induction bs with
  | nil => rfl
  | cons b bs ih =>
    rw [List.flatMap_cons, List.length_append, ih, txRaw_classifyTx_length, List.countP_cons, List.length_cons]
    split <;> omega

/-- The logical bytes after the preamble (R109, R131). -/
theorem txBody_length {f : TxFrame} (h : Config.minFrame ≤ f.totalLength.toNat) :
    (txBody f).length + 1 = f.totalLength.toNat := by
  have hlen := f.totalLength.isLt
  unfold Config.minFrame at h
  simp only [txBody, payloadBytes, Config.minFrame, List.length_append, List.length_cons, List.length_nil, List.length_take,
    Vector.length_toList]
  omega

/-- Settles O41; at the most, 254 bytes follow the preamble and each is escaped. -/
theorem rawFrameLength : Obligations.RawFrameLength := by
  intro f h
  have hbody := txBody_length h
  have hraw : (rawFrame f).length = f.totalLength.toNat + (txBody f).countP Config.special := by
    rw [rawFrame, List.length_cons, txRaw_flatMap_length]
    omega
  have hescaped : (txBody f).countP Config.special ≤ (txBody f).length := List.countP_le_length
  have hlen := f.totalLength.isLt
  exact ⟨hraw, by omega⟩

end Sys2Proof.Machine
end

section
/-! PROOF of O46: the commands of TXFRAME (spec/30_encoding.md R115) as writes of the TX frame registers
(spec/44_session_commands.md R231), one after the other in a machine that only these writes move (`State.withTx`). -/

namespace Sys2Proof.Machine

/-! ## Running commands in turn -/

theorem execAll_cons {i : Instr} {is : List Instr} {s t : State} (h : exec i s = .next t) :
    execAll (i :: is) s = execAll is t := by
  rw [execAll, h]

/-! ## A run of entries stored to a bank -/

/-- The bank with the bytes stored at entry `k` and on. -/
def Bank.putRun (b : Bank) (k : Nat) : List Byte → Bank
  | [] => b
  | v :: vs => (b.put k v).putRun (k + 1) vs

/-- What a bank reads as after a run of entries was stored. -/
theorem Bank.get_putRun (b : Bank) (k : Nat) (vs : List Byte) (hfit : k + vs.length ≤ 256) (i : Nat) :
    (b.putRun k vs).get i = if k ≤ i then vs[i - k]?.getD (b.get i) else b.get i := by
  induction vs generalizing b k with
  | nil => simp [Bank.putRun]
  | cons v vs ih =>
    rw [List.length_cons] at hfit
    rw [Bank.putRun, ih _ _ (by omega), Bank.get_put]
    rcases Nat.lt_trichotomy i k with hlt | rfl | hgt
    · rw [if_neg (by omega), if_neg (by omega), if_neg (by omega)]
    · simp [show i < 256 by omega]
    · rw [if_pos (by omega), if_neg (by omega), if_pos (by omega), show i - k = i - (k + 1) + 1 by omega,
        List.getElem?_cons_succ]

/-! ## Writes of the TX frame registers (R53, R54, R231) -/

/-- The idle machine with the TX frame `tx`, after `k` OK responses. -/
def State.withTx (tx : TxFrame) (k : Nat) (s : State) : State :=
  { s with
    core := { s.core with seq := .idle, tx := tx }
    trace := s.trace ++ List.replicate k (.resp Code.ok.toByte 0) }

@[simp] theorem State.withTx_core (tx : TxFrame) (k : Nat) (s : State) :
    (s.withTx tx k).core = { s.core with seq := .idle, tx := tx } := rfl
@[simp] theorem State.withTx_env (tx : TxFrame) (k : Nat) (s : State) : (s.withTx tx k).env = s.env := rfl
@[simp] theorem State.withTx_trace (tx : TxFrame) (k : Nat) (s : State) :
    (s.withTx tx k).trace = s.trace ++ List.replicate k (.resp Code.ok.toByte 0) := rfl
@[simp] theorem State.withTx_params (tx : TxFrame) (k : Nat) (s : State) : (s.withTx tx k).params = s.params := rfl

theorem State.withTx_withTx (tx tx' : TxFrame) (k m : Nat) (s : State) :
    (s.withTx tx k).withTx tx' m = s.withTx tx' (k + m) := by
  simp [State.withTx, ← List.replicate_append_replicate]

section
variable {s : State} {a : CsrAddr} {v : Word} {r : Csr}

/-- An accepted write (R231). -/
theorem csrWriteProc_stored {c : Regs} (hr : csrAt s.params a = some r) (hc : csrStore s.core v r = some c) :
    (csrWriteProc a v).run s = .ok (.plain .ok) (s.mapCore fun _ => c) := by
  have hstore : (csrAt s.params a).bind (csrStore s.core v) = some c := by rw [hr, Option.bind_some, hc]
  rw [csrWriteProc, Proc.bind_ok (regs_run s), Proc.bind_ok (params_run s), hstore]
  rfl

/-- A write to a register that holds a part of the TX frame. -/
theorem exec_csrWrite_tx {g : TxFrame → TxFrame} (hq : s.env.script = []) (hr : csrAt s.params a = some r)
    (hstore : ∀ c, csrStore c v r = some { c with tx := g c.tx }) :
    exec (.csrWrite a v) s = .next (s.withTx (g s.core.tx) 1) :=
  runCommand_quiet (csrWriteProc_stored (s := s.setSeq (.busy (.csrWrite a v))) hr (hstore _)) hq

/-- TX_HDR (R53). -/
theorem exec_csrWrite_txHdr (hq : s.env.script = []) (n c f : Byte) :
    exec (.csrWrite 0x0030 (f ++ c ++ n ++ 0#8)) s =
      .next (s.withTx { s.core.tx with nodeID := n, command := c, frameID := f } 1) := by
  obtain ⟨-, hnode, hcommand, hframe⟩ := bytes_of_word f c n 0#8
  refine exec_csrWrite_tx (r := .txHdr) (g := fun tx => { tx with nodeID := n, command := c, frameID := f }) hq rfl
    fun regs => ?_
  simp only [csrStore, byteOf, hnode, hcommand, hframe]

/-- The lowest byte of a word that holds a number. -/
theorem byteOf_ofNat_zero (l : Nat) : byteOf (BitVec.ofNat 32 l) 0 = BitVec.ofNat 8 l := by
  apply BitVec.eq_of_toNat_eq
  simp [byteOf]

theorem byteOf_setWidth_zero (b : Byte) : byteOf (b.setWidth 32) 0 = b := by
  apply BitVec.eq_of_toNat_eq
  simpa [byteOf] using b.isLt

/-- TX_TAIL (R53). -/
theorem exec_csrWrite_txTail (hq : s.env.script = []) (l : Nat) :
    exec (.csrWrite 0x0031 (BitVec.ofNat 32 l)) s =
      .next (s.withTx { s.core.tx with totalLength := BitVec.ofNat 8 l } 1) := by
  refine exec_csrWrite_tx (r := .txTail) (g := fun tx => { tx with totalLength := BitVec.ofNat 8 l }) hq rfl fun regs => ?_
  simp only [csrStore, byteOf_ofNat_zero]

/-- An entry of TX_PAY (R54). -/
theorem exec_csrWrite_txPay (hq : s.env.script = []) {k : Nat} (hk : k < s.params.payloadCap.val)
    (ha : a.toNat = 0x0200 + k) (b : Byte) :
    exec (.csrWrite a (b.setWidth 32)) s =
      .next (s.withTx { s.core.tx with payload := s.core.tx.payload.put k b } 1) := by
  refine exec_csrWrite_tx (g := fun tx => { tx with payload := tx.payload.put k b }) hq (csrAt_txPay hk ha) fun regs => ?_
  simp only [csrStore, byteOf_setWidth_zero]

end

/-! ## TXFRAME (R115) -/

/-- The writes of the payload, from entry `k` on. -/
theorem execAll_writeRun_txPay (s : State) (hq : s.env.script = []) (bs : List Byte) (a : CsrAddr) (k m : Nat) (tx : TxFrame)
    (hfit : k + bs.length ≤ s.params.payloadCap.val) (ha : a.toNat = 0x0200 + k) :
    execAll (writeRun a (bs.map fun b => b.setWidth 32)) (s.withTx tx m) =
      .next (s.withTx { tx with payload := tx.payload.putRun k bs } (m + bs.length)) := by
  induction bs generalizing a k m tx with
  | nil => rfl
  | cons b bs ih =>
    rw [List.length_cons] at hfit
    have hcap := s.params.payloadCap.isLt
    have hnext : (a + 1).toNat = 0x0200 + (k + 1) := by bv_omega
    have hwrite : exec (.csrWrite a (b.setWidth 32)) (s.withTx tx m) =
        .next (s.withTx { tx with payload := tx.payload.put k b } (m + 1)) := by
      rw [exec_csrWrite_txPay (s := s.withTx tx m) hq (by rw [State.withTx_params]; omega) ha, State.withTx_withTx]
      rfl
    rw [List.map_cons, writeRun, execAll_cons hwrite, ih _ (k + 1) _ _ (by omega) hnext, List.length_cons, Nat.add_assoc,
      Nat.add_comm 1]
    rfl

/-- The commands of TXFRAME, in order: the header, the length, the payload. -/
theorem execAll_txFrame (s : State) (hq : s.env.script = []) (n c f : Byte) (payload : List Byte)
    (hfit : payload.length ≤ s.params.payloadCap.val) :
    execAll (Pseudo.txFrame n c f payload).expand s =
      .next (s.withTx { nodeID := n, command := c, frameID := f, totalLength := BitVec.ofNat 8 (payload.length + 6),
                        payload := s.core.tx.payload.putRun 0 payload } (payload.length + 2)) := by
  rw [Pseudo.expand, List.cons_append, List.cons_append, List.nil_append, execAll_cons (exec_csrWrite_txHdr hq n c f),
    execAll_cons (exec_csrWrite_txTail (s := s.withTx _ 1) hq _), State.withTx_withTx,
    execAll_writeRun_txPay s hq payload 0x0200 0 _ _ (by omega) rfl, Nat.add_comm payload.length 2]
  rfl

/-- Settles O46: the run of `execAll_txFrame`, and what its payload bank reads as. -/
theorem txFrameCommandsLoadFrame : Obligations.TxFrameCommandsLoadFrame := by
  intro s n c f payload hlen hfit hq
  refine ⟨_, execAll_txFrame s hq n c f payload hfit, rfl, fun i => ?_, rfl, rfl, rfl⟩
  exact Bank.get_putRun _ 0 payload (by omega) i

end Sys2Proof.Machine
end

section
/-! PROOF of O9: the laws of the checksum (spec/40_checksum.md R133). Law (b), that `csum` is the unbounded sum mod 256, comes
by induction on the bytes; the laws of permutations and of concatenation are then those of the sum of numbers. -/

namespace Sys2Proof.Machine

/-! ## The checksum byte by byte (R130) -/

@[simp] theorem csum_nil : csum [] = 0 := rfl

@[simp] theorem csum_cons (b : Byte) (bs : List Byte) : csum (b :: bs) = b + csum bs := rfl

@[simp] theorem csum_singleton (b : Byte) : csum [b] = b := by
  rw [csum_cons, csum_nil]
  exact BitVec.add_zero b

/-! ## The laws (R133) -/

/-- A carry out of bit 7 is a multiple of 256, so discarding it at each byte is reducing once at the end. -/
theorem csum_toNat (l : List Byte) : (csum l).toNat = (l.map BitVec.toNat).sum % 256 := by
  induction l with
  | nil => rfl
  | cons b bs ih => rw [csum_cons, BitVec.toNat_add, ih, List.map_cons, List.sum_cons, Nat.add_mod_mod]

theorem csum_eq_of_perm {l l' : List Byte} (h : l.Perm l') : csum l = csum l' := by
  apply BitVec.eq_of_toNat_eq
  rw [csum_toNat, csum_toNat, (h.map BitVec.toNat).sum_nat]

theorem csum_append (l l' : List Byte) : csum (l ++ l') = csum l + csum l' := by
  apply BitVec.eq_of_toNat_eq
  rw [BitVec.toNat_add, csum_toNat, csum_toNat, csum_toNat, List.map_append, List.sum_append_nat, Nat.add_mod]

/-- The byte that law (e) appends is the negative of the checksum. -/
theorem ofNat_256_sub_toNat (b : Byte) : BitVec.ofNat 8 ((256 - b.toNat) % 256) = -b := by
  apply BitVec.eq_of_toNat_eq
  rw [BitVec.toNat_ofNat, BitVec.toNat_neg, Nat.mod_mod]

/-- Settles O9, law by law: (a) is the width of a byte, and (e) is (d) at the negative of the checksum. -/
theorem checksumLaws : Obligations.ChecksumLaws := by
  refine ⟨fun l => ?range, csum_toNat, fun _ _ => csum_eq_of_perm, csum_append, fun l => ?consequence⟩
  case range => exact Nat.le_of_lt_succ (csum l).isLt
  case consequence =>
    rw [csum_append, csum_singleton, ofNat_256_sub_toNat]
    exact BitVec.add_right_neg (csum l)

end Sys2Proof.Machine
end

section
/-! PROOF of O7 and O11 to O15: the receive side of the Byte Codec (spec/41_byte_codec.md). What a received raw byte emits, and
whether an escape is pending after it, are functions of the byte and the escape flag alone (`logicalByte`, `escapeAfter`);
`rxClass_received` ties the receive classes to them, for every undisturbed environment. -/

namespace Sys2Proof.Machine

/-! ## The four classes that take no turn (R141, R142, R144, R145) -/

/-- `sat8` on numbers (R13). -/
theorem sat8Succ_eq_min (v : Byte) : sat8Succ v = BitVec.ofNat 8 (min (v.toNat + 1) 255) := by
  unfold sat8Succ
  split
  case isTrue h => rw [h]; rfl
  case isFalse h =>
    have hlt : v.toNat < 255 := by bv_omega
    rw [Nat.min_eq_left hlt]
    bv_omega

/-- Settles O11: each class is one update of the registers, with its row of R110. -/
theorem receiveClassesAct : Obligations.ReceiveClassesAct := by
  intro s n r
  rw [← sat8Succ_eq_min]
  exact ⟨⟨classifyRx_escaped, rfl⟩, ⟨classifyRx_escape, rfl⟩, ⟨classifyRx_data, rfl⟩, ⟨classifyRx_aa, rfl⟩⟩

/-! ## RX_SYNC (R146) -/

section
variable {s : State}

theorem ringForward_disabled (h : s.core.ringFwdEn = false) : ringForward.run s = .ok () s := by
  rw [ringForward, Proc.bind_ok (regs_run s), h]
  rfl

theorem ringForward_enabled (h : s.core.ringFwdEn = true) : ringForward.run s = (ringWrite Config.preamble).run s := by
  rw [ringForward, Proc.bind_ok (regs_run s), if_pos h]

theorem rxSync_run {t : State} (h : ringForward.run s = .ok () t) :
    rxSync.run s = .ok () (t.mapCore fun c => { c with syncCount := 0, codecOut := some Config.preamble }) := by
  rw [rxSync, Proc.bind_ok h, update_run]

end

/-- Settles O12, by the setting of RING_FWD_EN. -/
theorem syncMarkerForwards : Obligations.SyncMarkerForwards := by
  refine fun s => ⟨fun hfwd hq => ?enabled, fun hfwd => ?disabled⟩
  case enabled =>
    have hring : ringForward.run s = .ok () (s.emit (.ring Config.preamble)) := by
      rw [ringForward_enabled hfwd, ringWrite_quiet _ hq]
    exact congrArg settleForm (rxSync_run hring)
  case disabled => exact congrArg settleForm (rxSync_run (ringForward_disabled hfwd))

/-! ## What a raw byte does in an undisturbed environment -/

/-- What `CodecRx` emits for a raw byte: with an escape pending the complement, for the escape byte nothing, and otherwise the
byte itself (R141 to R146). -/
def logicalByte (esc : Bool) (raw : Byte) : Option Byte :=
  if esc then some (~~~raw) else if raw = Config.escape then none else some raw

/-- Whether an escape is pending after a raw byte: only after an escape byte that was not escaped itself (R142). -/
def escapeAfter (esc : Bool) (raw : Byte) : Bool := !esc && raw == Config.escape

/-- A raw byte that emits nothing leaves an escape pending. -/
theorem escapeAfter_of_logicalByte_none {esc : Bool} {raw : Byte} (h : logicalByte esc raw = none) :
    escapeAfter esc raw = true := by
  cases esc with
  | true => cases h
  | false => simpa [logicalByte, escapeAfter] using h

/-- The codec took the raw byte: only its registers changed, the environment moved on, and the sync markers went to the ring
port. -/
structure Received (raw : Byte) (s t : State) : Prop where
  core : ∃ n, t.core = { s.core with
    esc := escapeAfter s.core.esc raw, syncCount := n, codecOut := logicalByte s.core.esc raw }
  ring : ∃ k, t.trace = s.trace ++ List.replicate k (.ring Config.preamble)
  undisturbed : t.undisturbed = true
  quiet : s.env.script = [] → t.env.script = []

section
variable {s t : State} {raw : Byte}

theorem Received.esc (h : Received raw s t) : t.core.esc = escapeAfter s.core.esc raw := by
  obtain ⟨n, hn⟩ := h.core
  rw [hn]

theorem Received.codecOut (h : Received raw s t) : t.core.codecOut = logicalByte s.core.esc raw := by
  obtain ⟨n, hn⟩ := h.core
  rw [hn]

theorem Received.seq (h : Received raw s t) : t.core.seq = s.core.seq := by
  obtain ⟨n, hn⟩ := h.core
  rw [hn]

/-- A class that only updates the codec's registers. -/
theorem received_update (hu : s.undisturbed = true) {c : Regs} {n : Byte} (hc : c = { s.core with
      esc := escapeAfter s.core.esc raw, syncCount := n, codecOut := logicalByte s.core.esc raw }) :
    Received raw s (s.mapCore fun _ => c) :=
  ⟨⟨n, hc⟩, ⟨0, by simp⟩, hu, id⟩

/-- Whether it forwards or not, the pass-through leaves the registers alone, and adds at most a ring event. -/
theorem ringForward_undisturbed (hu : s.undisturbed = true) :
    ∃ t k, ringForward.run s = .ok () t ∧ t.core = s.core ∧ t.trace = s.trace ++ List.replicate k (.ring Config.preamble) ∧
      t.undisturbed = true ∧ (s.env.script = [] → t.env.script = []) := by
  cases hfwd : s.core.ringFwdEn with
  | false => exact ⟨s, 0, ringForward_disabled hfwd, rfl, by simp, hu, id⟩
  | true =>
    obtain ⟨e, he, -, -, hscript, hu'⟩ := tick_undisturbed hu
    refine ⟨State.emit (.ring Config.preamble) { s with env := e }, 1, ?_, rfl, rfl, hu', fun hq => ?_⟩
    · rw [ringForward_enabled hfwd, ringWrite, Proc.bind_ok he, change_run]
    · rw [State.emit_env, hscript, hq, List.tail_nil]

theorem rxSync_received (hu : s.undisturbed = true) (hesc : s.core.esc = false) :
    ∃ t, rxSync.run s = .ok () t ∧ Received Config.preamble s t := by
  obtain ⟨u, k, hrun, hcore, htrace, hu', hquiet⟩ := ringForward_undisturbed hu
  refine ⟨_, rxSync_run hrun, ⟨0, ?_⟩, ⟨k, htrace⟩, hu', hquiet⟩
  rw [State.mapCore_core, hcore]
  simp [escapeAfter, logicalByte, hesc, Config.preamble_ne_escape]

/-- The class of a raw byte does to the codec what the byte and the escape flag say, by the rows of R110. -/
theorem rxClass_received (raw : Byte) (hu : s.undisturbed = true) :
    ∃ t, (rxClass (classifyRx s.core.esc s.core.syncCount raw)).run s = .ok () t ∧ Received raw s t := by
  cases hesc : s.core.esc with
  | true =>
    exact ⟨_, update_run _ s, received_update hu (n := sat8Succ s.core.syncCount) (by simp [escapeAfter, logicalByte, hesc])⟩
  | false =>
    by_cases hescape : raw = Config.escape
    · subst hescape
      rw [classifyRx_escape]
      exact ⟨_, update_run _ s,
        received_update hu (n := sat8Succ s.core.syncCount) (by simp [escapeAfter, logicalByte, hesc])⟩
    by_cases hpreamble : raw = Config.preamble
    · subst hpreamble
      by_cases hn : s.core.syncCount = 0
      · rw [hn, classifyRx_sync]
        exact rxSync_received hu hesc
      · rw [classifyRx_aa hn]
        exact ⟨_, update_run _ s, received_update hu (n := 0) (by simp [escapeAfter, logicalByte, hesc, hescape])⟩
    · rw [classifyRx_data hpreamble hescape]
      exact ⟨_, update_run _ s,
        received_update hu (n := sat8Succ s.core.syncCount) (by simp [escapeAfter, logicalByte, hesc, hescape])⟩

/-- `CodecRx` gives what the class of the byte emits (R147). -/
theorem codecRx_of_rxClass (h : (rxClass (classifyRx s.core.esc s.core.syncCount raw)).run s = .ok () t) :
    (codecRx raw).run s = .ok t.core.codecOut t := by
  rw [codecRx, Proc.bind_ok (regs_run s), Proc.bind_ok h]
  rfl

theorem codecRx_received (raw : Byte) (hu : s.undisturbed = true) :
    ∃ t, (codecRx raw).run s = .ok (logicalByte s.core.esc raw) t ∧ Received raw s t := by
  obtain ⟨t, hrun, ht⟩ := rxClass_received raw hu
  exact ⟨t, ht.codecOut ▸ codecRx_of_rxClass hrun, ht⟩

end

/-! ## Runs of raw bytes (R146, R152, R153) -/

theorem codecRxAll_cons {s t u : State} {r : Byte} {rs : List Byte} {o : Option Byte} {os : List (Option Byte)}
    (h : (codecRx r).run s = .ok o t) (hs : (codecRxAll rs).run t = .ok os u) :
    (codecRxAll (r :: rs)).run s = .ok (o :: os) u := by
  rw [codecRxAll, Proc.bind_ok h, Proc.bind_ok hs]
  rfl

/-- The second byte of an escape pair gives back the byte that the pair stands for (R141, R152). -/
theorem codecRx_complement {s : State} (b : Byte) (h : s.core.esc = true) :
    (codecRx (~~~b)).run s = .ok (some b) (s.mapCore fun c =>
      { c with esc := false, syncCount := sat8Succ c.syncCount, codecOut := some b }) := by
  rw [codecRx_escaped (~~~b) h, BitVec.not_not]

/-- Settles O13: the escape byte leaves an escape pending, and the complement of `~b` is `b`. -/
theorem escapePairsDecode : Obligations.EscapePairsDecode := fun _ b hesc =>
  ⟨⟨_, _, codecRx_esc hesc, codecRx_complement b rfl, rfl⟩, fun hpreamble hescape =>
    ⟨_, codecRx_data hesc (Config.special_eq_false.mpr ⟨hpreamble, hescape⟩)⟩⟩

/-- What `CodecRx` emits for each of the raw bytes in turn. -/
def logicalBytes : Bool → List Byte → List (Option Byte)
  | _, [] => []
  | esc, r :: rs => logicalByte esc r :: logicalBytes (escapeAfter esc r) rs

/-- The codec is the automaton of `logicalByte` and `escapeAfter` (R153). -/
theorem codecRxAll_undisturbed (bs : List Byte) (s : State) (hu : s.undisturbed = true) :
    ∃ t, (codecRxAll bs).run s = .ok (logicalBytes s.core.esc bs) t ∧ t.core.esc = bs.foldl escapeAfter s.core.esc ∧
      ∃ k, t.trace = s.trace ++ List.replicate k (.ring Config.preamble) := by
  induction bs generalizing s with
  | nil => exact ⟨s, rfl, rfl, 0, by simp⟩
  | cons r rs ih =>
    obtain ⟨t, hrun, ht⟩ := codecRx_received r hu
    obtain ⟨u, hrest, hesc, k', hu'⟩ := ih t ht.undisturbed
    obtain ⟨k, hk⟩ := ht.ring
    rw [ht.esc] at hrest hesc
    exact ⟨u, codecRxAll_cons hrun hrest, hesc, k + k', by
      rw [hu', hk, List.append_assoc, List.replicate_append_replicate]⟩

/-- Settles O14: both runs emit what the automaton gives from the escape flag they share. -/
theorem logicalBytesIgnoreSyncState : Obligations.LogicalBytesIgnoreSyncState := by
  intro bs s s' hu hu' hesc
  obtain ⟨t, hrun, hend, hring⟩ := codecRxAll_undisturbed bs s hu
  obtain ⟨t', hrun', hend', hring'⟩ := codecRxAll_undisturbed bs s' hu'
  rw [hesc] at hrun hend
  exact ⟨_, t, t', hrun, hrun', hend.trans hend'.symm, hring, hring'⟩

/-- Settles O15, by induction on the length of the run: each marker leaves the counter at 0 for the next. -/
theorem syncRunForwardsEachByte : Obligations.SyncRunForwardsEachByte := by
  intro k
  induction k with
  | zero => exact fun s hesc hn _ _ => ⟨s, rfl, by simp, hn, hesc, rfl⟩
  | succ k ih =>
    intro s hesc hn hfwd hq
    obtain ⟨t, hrun, htrace, hn', hesc', henv⟩ := ih ((s.emit (.ring Config.preamble)).mapCore fun c =>
      { c with syncCount := 0, codecOut := some Config.preamble }) hesc rfl hfwd hq
    refine ⟨t, codecRxAll_cons (codecRx_sync_quiet hesc hn hfwd hq) hrun, ?_, hn', hesc', henv⟩
    rw [htrace, State.mapCore_trace, State.emit_trace, List.append_assoc, List.replicate_succ]
    rfl

/-! ## A step that receives a byte (R148, R181) -/

theorem exec_classifyRx (esc : Bool) (n raw : Byte) (s : State) :
    exec (classifyRx esc n raw) s = runForm (rxClass (classifyRx esc n raw)) s := by
  unfold classifyRx
  split_ifs <;> rfl

section
variable {i : Instr} {s t : State}

/-- Where the class of a raw byte answers `t`, it ran to its end in `t`. -/
theorem received_of_exec {raw : Byte} (hu : s.undisturbed = true)
    (h : exec (classifyRx s.core.esc s.core.syncCount raw) s = .next t) :
    (codecRx raw).run s = .ok t.core.codecOut t ∧ Received raw s t := by
  obtain ⟨u, hrun, hrec⟩ := rxClass_received raw hu
  rw [exec_classifyRx, runForm, hrun, settleForm_ok] at h
  cases h
  exact ⟨codecRx_of_rxClass hrun, hrec⟩

/-- With a byte buffered, a pass of the loop of `NextByte` takes it to the codec (R148). -/
theorem nextRaw_buffered {raw : Byte} {rest : List Byte} (hq : s.env.script = []) (ho : s.env.openAt.isSome = true)
    (hf : s.env.fifo = raw :: rest) : nextRaw.run s = (codecRx raw).run (s.takeByte raw rest) := by
  have hready : decide (0 < s.env.avail) = true := by simp [Env.avail, ho, hf]
  rw [nextRaw, Proc.bind_ok (waitUntil_ready hready), Proc.bind_ok (chRead_quiet hq hf)]

theorem nextByteIn_of_some {b : Byte} (h : nextRaw.run s = .ok (some b) t) (n : Nat) :
    (nextByteIn (n + 1)).run s = .ok b t := by
  rw [nextByteIn, Proc.bind_ok h]
  rfl

theorem nextByteIn_of_none (h : nextRaw.run s = .ok none t) (n : Nat) :
    (nextByteIn (n + 1)).run s = (nextByteIn n).run t := by
  rw [nextByteIn, Proc.bind_ok h]

theorem nextByteIn_of_error {e : Stop} (h : nextRaw.run s = .error e t) (n : Nat) :
    (nextByteIn (n + 1)).run s = .error e t := by
  rw [nextByteIn, Proc.bind_error h]

/-- With an escape pending the next raw byte is the last one `NextByte` needs, so more passes change nothing (R141, R148). -/
theorem nextByteIn_escaped (hq : s.env.script = []) (hesc : s.core.esc = true) (n : Nat) :
    (nextByteIn (n + 1)).run s = (nextByteIn 1).run s := by
  cases ha : decide (0 < s.env.avail) with
  | false =>
    have hraw : nextRaw.run s = .error .halted (s.setSeq (s.core.seq.waiting .nextByte)) := by
      rw [nextRaw, Proc.bind_error (waitUntil_holds hq ha)]
    rw [nextByteIn_of_error hraw n, nextByteIn_of_error hraw 0]
  | true =>
    have ho : s.env.openAt.isSome = true := by
      by_contra ho
      simp [Env.avail, ho] at ha
    cases hf : s.env.fifo with
    | nil => simp [Env.avail, hf] at ha
    | cons raw rest =>
      have hraw := nextRaw_buffered hq ho hf
      rw [codecRx_escaped (s := s.takeByte raw rest) raw hesc] at hraw
      rw [nextByteIn_of_some hraw n, nextByteIn_of_some hraw 0]

/-- A command's step depends on what its procedure does alone. -/
theorem runCommand_congr {p q : Proc Reply} (h : p.run (s.setSeq (.busy i)) = q.run (t.setSeq (.busy i))) :
    runCommand i p s = runCommand i q t := by
  rw [runCommand, runCommand, runAs, runAs, answer, answer, EStateM.run_bind, EStateM.run_bind, h]

theorem State.setSeq_self {v : Seq} (h : s.core.seq = v) : s.setSeq v = s := by
  subst h
  rfl

end

/-- Settles O7: the first pass of `NextByte` is the class of the byte, and what follows is the same from there; where the class
emits nothing an escape is pending (`nextByteIn_escaped`). -/
theorem stepRunsReceivedByte : Obligations.StepRunsReceivedByte := by
  intro s t i r rest hseq hquiet ho hf hexec
  have hq : s.env.script = [] := hquiet.1
  obtain ⟨hcodec, hrec⟩ := received_of_exec (s := (s.setSeq (.busy i)).takeByte r rest) (undisturbed_of_quiet hq) hexec
  have hraw : nextRaw.run (s.setSeq (.busy i)) = .ok t.core.codecOut t :=
    (nextRaw_buffered (s := s.setSeq (.busy i)) hq ho hf).trans hcodec
  have ht : t.setSeq (.busy i) = t := State.setSeq_self hrec.seq
  rw [step_held hseq, State.refill_quiet hquiet]
  refine ⟨fun b hb => runCommand_congr ?_, fun hnone => runCommand_congr ?_⟩
  · rw [hb] at hraw
    have hnext : nextByte.run (s.setSeq (.busy i)) = .ok b t := nextByteIn_of_some hraw 1
    rw [ht, resumeProc, assembleResume, bind_assoc, Proc.bind_ok hnext]
  · rw [hnone] at hraw
    have hesc : t.core.esc = true :=
      hrec.esc.trans (escapeAfter_of_logicalByte_none (hrec.codecOut.symm.trans hnone))
    have hnext : nextByte.run (s.setSeq (.busy i)) = nextByte.run t :=
      (nextByteIn_of_none hraw 1).trans (nextByteIn_escaped (hrec.quiet hq) hesc 1).symm
    rw [ht, resumeProc, assembleResume, bind_assoc, EStateM.run_bind, EStateM.run_bind, hnext]

end Sys2Proof.Machine
end

section
/-! PROOF of O16 and O17: the transmit side of the Byte Codec (spec/41_byte_codec.md R149 to R151) and SEND (R229). What a run
may change while it transmits is a relation between its first and last states (`Transmits`) that every elementary action of SEND
keeps, and so SEND itself. -/

namespace Sys2Proof.Machine

/-! ## The forms in a quiet environment (R149, R150) -/

/-- Settles O16: each form is its writes, and `CodecTx` the form that R112 gives the byte. -/
theorem transmitFormsWrite : Obligations.TransmitFormsWrite := by
  intro s b hq
  have hpair : (s.emit (.write Config.escape)).emit (.write (~~~b)) =
      { s with trace := s.trace ++ [.write 0xFF, .write (~~~b)] } := by
    simp [State.emit, Config.escape]
  refine ⟨?pre, ?lit, ?escd, fun hb => ?special, fun hpreamble hescape => ?ordinary⟩
  case pre => exact congrArg settleForm (txPre_quiet hq)
  case lit => exact congrArg settleForm (txLit_quiet b hq)
  case escd => exact hpair ▸ congrArg settleForm (txEscd_quiet b hq)
  case special =>
    have hspecial : Config.special b = true := by
      rcases hb with rfl | rfl
      · rfl
      · rfl
    rw [codecTx_quiet b s hq, classifyTx_special hspecial]
    rfl
  case ordinary =>
    rw [codecTx_quiet b s hq, classifyTx_ordinary (Config.special_eq_false.mpr ⟨hpreamble, hescape⟩)]
    rfl

/-! ## What transmitting leaves alone (R151) -/

/-- The registers but the sequencer, the channel's open state and the parameters are as they were, and no received byte was
taken away. -/
structure Transmitted (s t : State) : Prop where
  core : t.core = { s.core with seq := t.core.seq }
  openAt : t.env.openAt = s.env.openAt
  params : t.params = s.params
  fifo : s.env.fifo.length ≤ t.env.fifo.length

/-- In an undisturbed environment the run only transmits, and the environment stays undisturbed. -/
def Transmits (s t : State) : Prop := s.undisturbed = true → Transmitted s t ∧ t.undisturbed = true

theorem Transmitted.trans {s t u : State} (h : Transmitted s t) (h' : Transmitted t u) : Transmitted s u where
  core := h'.core.trans (by rw [h.core])
  openAt := h'.openAt.trans h.openAt
  params := h'.params.trans h.params
  fifo := Nat.le_trans h.fifo h'.fifo

theorem Transmits.trans {s t u : State} (h : Transmits s t) (h' : Transmits t u) : Transmits s u := fun hu =>
  let ⟨hst, ht⟩ := h hu
  let ⟨htu, hu'⟩ := h' ht
  ⟨hst.trans htu, hu'⟩

/-- An action of the core that touches neither the buffer nor the channel, nor any register but the sequencer. -/
theorem transmits_of_kept {s t : State} (hcore : t.core = { s.core with seq := t.core.seq })
    (hopen : t.env.openAt = s.env.openAt) (hparams : t.params = s.params) (hfifo : t.env.fifo = s.env.fifo)
    (hscript : t.env.script = s.env.script) : Transmits s t := fun hu =>
  ⟨⟨hcore, hopen, hparams, Nat.le_of_eq (congrArg List.length hfifo.symm)⟩, State.undisturbed_of_script_eq hscript hu⟩

theorem Transmits.refl (s : State) : Transmits s s := transmits_of_kept rfl rfl rfl rfl rfl

theorem transmits_setSeq (v : Seq) (s : State) : Transmits s (s.setSeq v) := transmits_of_kept rfl rfl rfl rfl rfl

theorem transmits_emit (e : Event) (s : State) : Transmits s (s.emit e) := transmits_of_kept rfl rfl rfl rfl rfl

theorem transmits_requestFlush (s : State) : Transmits s s.requestFlush := transmits_of_kept rfl rfl rfl rfl rfl

theorem transmits_respond (r : Reply) (s : State) : Transmits s (s.respond r) := transmits_of_kept rfl rfl rfl rfl rfl

section
variable {α β : Type}

theorem transmits_pure (a : α) : Proc.Relates Transmits (pure a : Proc α) := Proc.relates_pure Transmits.refl a

theorem transmits_bind {p : Proc α} {k : α → Proc β} (hp : Proc.Relates Transmits p)
    (hk : ∀ a, Proc.Relates Transmits (k a)) : Proc.Relates Transmits (p >>= k) :=
  Proc.relates_bind (R := Transmits) (fun h => h.trans) hp hk

theorem transmits_change {g : State → State} (hg : ∀ s, Transmits s (g s)) : Proc.Relates Transmits (change g) := hg

theorem transmits_ite {b : Prop} [Decidable b] {p q : Proc α} (hp : Proc.Relates Transmits p)
    (hq : Proc.Relates Transmits q) : Proc.Relates Transmits (if b then p else q) := by
  split
  · exact hp
  · exact hq

end

theorem transmits_tick : Proc.Relates Transmits tick := by
  intro s hu
  obtain ⟨e, he, ho, hf, -, hu'⟩ := tick_undisturbed hu
  rw [he]
  exact ⟨⟨rfl, ho, rfl, hf⟩, hu'⟩

theorem transmits_theState : Proc.Relates Transmits theState := Transmits.refl

theorem transmits_regs : Proc.Relates Transmits regs := Transmits.refl

theorem transmits_params : Proc.Relates Transmits params := Transmits.refl

theorem transmits_chWrite (b : Byte) : Proc.Relates Transmits (chWrite b) :=
  transmits_bind transmits_tick fun _ => transmits_change (transmits_emit _)

theorem transmits_txForm (i : Instr) : Proc.Relates Transmits (txForm i) := by
  cases i with
  | txPre => exact transmits_chWrite _
  | txLit b => exact transmits_chWrite b
  | txEscd b => exact transmits_bind (transmits_chWrite _) fun _ => transmits_chWrite _
  | _ => exact transmits_pure ()

theorem transmits_codecTxAll (bs : List Byte) : Proc.Relates Transmits (codecTxAll bs) := by
  induction bs with
  | nil => exact transmits_pure ()
  | cons b bs ih => exact transmits_bind (transmits_txForm _) fun _ => ih

theorem transmits_waitFor (c : State → Bool) (h : Hold) (n : Nat) : Proc.Relates Transmits (waitFor c h n) := by
  induction n with
  | zero =>
    exact transmits_bind transmits_theState fun _ => transmits_ite (transmits_pure ()) fun s => transmits_setSeq _ s
  | succ n ih =>
    exact transmits_bind transmits_theState fun _ =>
      transmits_ite (transmits_pure ()) (transmits_bind transmits_tick fun _ => ih)

theorem transmits_chFlush : Proc.Relates Transmits chFlush :=
  transmits_bind transmits_tick fun _ => transmits_bind (transmits_change transmits_requestFlush) fun _ =>
    transmits_bind transmits_theState fun _ => transmits_waitFor _ _ _

theorem transmits_sendProc : Proc.Relates Transmits sendProc := by
  refine transmits_bind transmits_regs fun c => transmits_bind transmits_params fun p => ?_
  refine transmits_ite (transmits_pure _) (transmits_ite (transmits_pure _) ?_)
  exact transmits_bind (transmits_chWrite _) fun _ => transmits_bind (transmits_codecTxAll _) fun _ =>
    transmits_bind transmits_chFlush fun _ => transmits_pure _

section
variable {s t : State}

/-- A transmit form's step ends where its procedure does. -/
theorem runForm_transmits {p : Proc Unit} (hp : Proc.Relates Transmits p) (h : runForm p s = .next t) : Transmits s t := by
  have hrun := hp s
  unfold runForm at h
  cases hr : p.run s with
  | ok a u => rw [hr] at h hrun; cases h; exact hrun
  | error e u =>
    rw [hr] at h hrun
    cases e with
    | halted => cases h; exact hrun
    | fault f => cases h

/-- A command's step ends with its response, or where its procedure holds. -/
theorem runAs_transmits {v : Seq} {p : Proc Reply} (hp : Proc.Relates Transmits p) (h : runAs v p s = .next t) :
    Transmits s t := by
  have hanswer : Proc.Relates Transmits (answer p) :=
    transmits_bind hp fun _ => transmits_bind transmits_tick fun _ => transmits_pure _
  have hrun := (transmits_setSeq v s).trans (hanswer (s.setSeq v))
  rcases runAs_cases v p s t h with ⟨r, u, hu, rfl⟩ | hu
  · rw [hu] at hrun
    exact hrun.trans (transmits_respond r u)
  · rw [hu] at hrun
    exact hrun

end

/-- Settles O17, for SEND and for each transmit form. -/
theorem transmitLeavesRegisters : Obligations.TransmitLeavesRegisters := by
  intro s t i hi hu h
  have htransmits : Transmits s t := by
    rcases hi with rfl | rfl | ⟨b, rfl⟩ | ⟨b, rfl⟩
    · exact runAs_transmits transmits_sendProc h
    · exact runForm_transmits (transmits_txForm .txPre) h
    · exact runForm_transmits (transmits_txForm (.txLit b)) h
    · exact runForm_transmits (transmits_txForm (.txEscd b)) h
  obtain ⟨⟨hcore, hopen, hparams, hfifo⟩, -⟩ := htransmits hu
  exact ⟨hcore, hopen, hparams, hfifo⟩

end Sys2Proof.Machine
end

section
/-! PROOF of O18 to O22: the Frame Assembler position by position (spec/42_frame_assembler.md R172 to R178). `FaAccept` has one
equation for each row of R172 to R178 and outcome; the loop of `Assemble` then answers what the outcome says (R181). -/

namespace Sys2Proof.Machine

/-! ## `FaAccept` by position (R172 to R178) -/

/-- The length test of R176. -/
theorem badLength_iff {p : Params} {b : Byte} :
    badLength p b = true ↔ b.toNat < 6 ∨ p.payloadCap.val < b.toNat - 6 := by
  rw [badLength, Bool.or_eq_true, decide_eq_true_eq, decide_eq_true_eq, Config.minFrame]

section
variable {p : Params} {b : Byte} {c : Regs}

theorem faAccept_framing (hpos : c.faPos = 0) (hb : b ≠ Config.preamble) : faAccept p b c = (.framing, c) := by
  rw [faAccept, if_pos hpos, if_neg hb]

theorem faAccept_preamble (hpos : c.faPos = 0) :
    faAccept p Config.preamble c = (.cont, { c with work := { c.work with preamble := Config.preamble }, faPos := 1 }) := by
  rw [faAccept, if_pos hpos, if_pos rfl]

theorem faAccept_nodeID (hpos : c.faPos = 1) :
    faAccept p b c = (.cont, { c with work := { c.work with nodeID := b }, faPos := 2 }) := by
  simp [faAccept, hpos]

theorem faAccept_command (hpos : c.faPos = 2) :
    faAccept p b c = (.cont, { c with work := { c.work with command := b }, faPos := 3 }) := by
  simp [faAccept, hpos]

theorem faAccept_frameID (hpos : c.faPos = 3) :
    faAccept p b c = (.cont, { c with work := { c.work with frameID := b }, faPos := 4 }) := by
  simp [faAccept, hpos]

theorem faAccept_badLength (hpos : c.faPos = 4) (hb : badLength p b = true) :
    faAccept p b c = (.lenErr, { c with work := Frame.empty, faPos := 0 }) := by
  simp [faAccept, hpos, hb, faClear]

theorem faAccept_length (hpos : c.faPos = 4) (hb : ¬ badLength p b = true) :
    faAccept p b c = (.cont, { c with work := { c.work with totalLength := b }, faPos := 5 }) := by
  simp [faAccept, hpos, hb]

/-- From position 5 on, where the byte goes depends on `W.totalLength` alone. -/
theorem faAccept_body (hpos : 5 ≤ c.faPos.toNat) :
    faAccept p b c =
      if c.faPos.toNat + 1 < c.work.totalLength.toNat then
        (.cont, { c with
          work := { c.work with payload := c.work.payload.put (c.faPos.toNat - Config.hdrLen) b }, faPos := c.faPos + 1 })
      else faComplete { c with work := { c.work with checksum := b }, faPos := c.work.totalLength } := by
  have hne : ∀ {n : Byte}, n.toNat < 5 → c.faPos ≠ n := fun hn h => absurd (h ▸ hpos) (Nat.not_le.mpr hn)
  rw [faAccept, if_neg (hne (by decide)), if_neg (hne (by decide)), if_neg (hne (by decide)), if_neg (hne (by decide)),
    if_neg (hne (by decide))]

theorem faAccept_payload (hpos : 5 ≤ c.faPos.toNat) (hlt : c.faPos.toNat + 1 < c.work.totalLength.toNat) :
    faAccept p b c = (.cont, { c with
      work := { c.work with payload := c.work.payload.put (c.faPos.toNat - Config.hdrLen) b }, faPos := c.faPos + 1 }) := by
  rw [faAccept_body hpos, if_pos hlt]

theorem faComplete_valid (h : c.work.valid = true) : faComplete c = (.doneOk, faClear { c with rx := c.work }) := if_pos h

theorem faComplete_invalid (h : ¬ c.work.valid = true) : faComplete c = (.doneBad, faClear c) := if_neg h

/-- The checksum of the work frame (R131), which the byte at the checksum position is held against. -/
def Regs.workChecksum (c : Regs) : Byte :=
  csumFrame c.work.preamble c.work.nodeID c.work.command c.work.frameID c.work.totalLength c.work.payload

theorem faAccept_checksum (hpos : 5 ≤ c.faPos.toNat) (hlast : ¬ c.faPos.toNat + 1 < c.work.totalLength.toNat)
    (hb : c.workChecksum = b) :
    faAccept p b c = (.doneOk, { c with rx := { c.work with checksum := b }, work := Frame.empty, faPos := 0 }) := by
  rw [faAccept_body hpos, if_neg hlast]
  exact faComplete_valid (beq_iff_eq.mpr hb)

theorem faAccept_badChecksum (hpos : 5 ≤ c.faPos.toNat) (hlast : ¬ c.faPos.toNat + 1 < c.work.totalLength.toNat)
    (hb : c.workChecksum ≠ b) : faAccept p b c = (.doneBad, { c with work := Frame.empty, faPos := 0 }) := by
  rw [faAccept_body hpos, if_neg hlast]
  exact faComplete_invalid fun hvalid => hb (beq_iff_eq.mp hvalid)

end

/-! ## The loop of `Assemble` after a byte (R181) -/

section
variable {b : Byte} {s : State} {c : Regs} {k : Proc Code}

theorem assembleByte_cont (h : faAccept s.params b s.core = (.cont, c)) :
    (assembleByte b k).run s = k.run { s with core := c } := by
  rw [assembleByte, Proc.bind_ok (acceptByte_run b s), h]
  rfl

theorem assembleByte_answer {a : Accept} {r : Code} (h : faAccept s.params b s.core = (a, c)) (hr : a.answer = some r) :
    (assembleByte b k).run s = .ok r { s with core := c } := by
  rw [assembleByte, Proc.bind_ok (acceptByte_run b s), h]
  cases a with
  | cont => cases hr
  | _ => cases hr; rfl

end

/-! ## The obligations -/

/-- Settles O18, position by position. -/
theorem headerPositions : Obligations.HeaderPositions := by
  refine fun p b c => ⟨faAccept_framing, fun hpos hb => ?preamble, faAccept_nodeID, faAccept_command, faAccept_frameID,
    fun s k hpos hb => ?loop⟩
  case preamble =>
    subst hb
    exact faAccept_preamble hpos
  case loop => exact assembleByte_answer (faAccept_framing hpos hb) rfl

/-- Settles O19, by the length test. -/
theorem lengthPosition : Obligations.LengthPosition := by
  intro p b c hpos
  refine ⟨fun hbad => faAccept_badLength hpos (badLength_iff.mpr hbad), fun hmin hcap => faAccept_length hpos ?legal,
    fun s k hs hp hbad => ?loop⟩
  case legal =>
    rw [badLength_iff]
    omega
  case loop =>
    subst hs hp
    exact assembleByte_answer (faAccept_badLength hpos (badLength_iff.mpr hbad)) rfl

/-- Settles O20: the bank reads back the one entry stored. -/
theorem payloadPositions : Obligations.PayloadPositions := by
  intro p b c hpos hlt
  have hlen := c.work.totalLength.isLt
  refine ⟨_, faAccept_payload hpos (by omega), ?next, fun j => ?entries, fun hcap => by omega⟩
  case next =>
    rw [BitVec.toNat_add, show (1 : Byte).toNat = 1 from rfl]
    omega
  case entries =>
    rw [Bank.get_put]
    exact if_congr (by simp only [Config.hdrLen]; omega) rfl rfl

/-- Settles O21: at the checksum position the byte is held against the checksum of the work frame. -/
theorem checksumPositionCompletes : Obligations.ChecksumPositionCompletes := by
  intro p b c hpos hlast
  have hlast' : ¬ c.faPos.toNat + 1 < c.work.totalLength.toNat := by omega
  refine ⟨faAccept_checksum hpos hlast', faAccept_badChecksum hpos hlast', fun s k hs hp => ?loop⟩
  subst hs hp
  exact ⟨fun hb => assembleByte_answer (faAccept_checksum hpos hlast' hb) rfl,
    fun hb => assembleByte_answer (faAccept_badChecksum hpos hlast' hb) rfl⟩

/-- Settles O22, by the position: each of the three errors is the outcome of one row, and the other rows give none of them. -/
theorem receiveErrorsKeepSession : Obligations.ReceiveErrorsKeepSession := by
  intro p b c herr
  have hcases : c.faPos = 0 ∨ c.faPos = 1 ∨ c.faPos = 2 ∨ c.faPos = 3 ∨ c.faPos = 4 ∨ 5 ≤ c.faPos.toNat := by bv_omega
  rcases hcases with hpos | hpos | hpos | hpos | hpos | hpos
  · by_cases hb : b = Config.preamble
    · subst hb
      simp [faAccept_preamble hpos] at herr
    · rw [faAccept_framing hpos hb, ← hpos]
  · simp [faAccept_nodeID hpos] at herr
  · simp [faAccept_command hpos] at herr
  · simp [faAccept_frameID hpos] at herr
  · by_cases hb : badLength p b = true
    · rw [faAccept_badLength hpos hb]
    · simp [faAccept_length hpos hb] at herr
  · by_cases hlt : c.faPos.toNat + 1 < c.work.totalLength.toNat
    · simp [faAccept_payload hpos hlt] at herr
    by_cases hb : c.workChecksum = b
    · simp [faAccept_checksum hpos hlt hb] at herr
    · rw [faAccept_badChecksum hpos hlt hb]

end Sys2Proof.Machine
end

section
/-! PROOF of O36: the bytes that SEND emits for a frame are received as that frame (spec/42_frame_assembler.md R183). Going along
the wire, `NextByte` takes each logical byte off it (`nextByte_onWire`), and `FaAccept` stores it at its offset in the work frame
(`Frame.AgreesTo`), up to the checksum byte, which completes the frame. -/

namespace Sys2Proof.Machine

/-! ## A frame by its offsets (R109) -/

/-- The byte at offset `n` of a frame, before its checksum. -/
def Frame.byteAt (w : Frame) : Nat → Byte
  | 0 => w.preamble
  | 1 => w.nodeID
  | 2 => w.command
  | 3 => w.frameID
  | 4 => w.totalLength
  | i + 5 => w.payload.get i

/-- The frame with the byte at offset `n` replaced. -/
def Frame.store (w : Frame) (b : Byte) : Nat → Frame
  | 0 => { w with preamble := b }
  | 1 => { w with nodeID := b }
  | 2 => { w with command := b }
  | 3 => { w with frameID := b }
  | 4 => { w with totalLength := b }
  | i + 5 => { w with payload := w.payload.put i b }

/-- What the offsets read as after a byte was stored. -/
theorem Frame.byteAt_store (w : Frame) (b : Byte) {n : Nat} (hn : n < 261) (i : Nat) :
    (w.store b n).byteAt i = if i = n then b else w.byteAt i := by
  cases n using Frame.store.fun_cases with
  | case6 n =>
    cases i using Frame.byteAt.fun_cases with
    | case6 i =>
      rw [Frame.byteAt, Frame.store, Bank.get_put]
      exact if_congr (by omega) rfl rfl
    | _ => simp [Frame.byteAt, Frame.store]
  | _ => cases i using Frame.byteAt.fun_cases <;> simp [Frame.byteAt, Frame.store]

theorem Frame.byteAt_empty (i : Nat) : Frame.empty.byteAt i = 0 := by
  cases i using Frame.byteAt.fun_cases with
  | case6 i => exact Bank.get_zero i
  | _ => rfl

/-- The TX frame with its preamble and its checksum. -/
def TxFrame.toFrame (f : TxFrame) : Frame where
  preamble := Config.preamble
  nodeID := f.nodeID
  command := f.command
  frameID := f.frameID
  totalLength := f.totalLength
  payload := f.payload
  checksum := txChecksum f

theorem payloadBytes_length (len : Byte) (pay : Bank) : (payloadBytes len pay).length = len.toNat - 6 := by
  have hlen := len.isLt
  rw [payloadBytes, List.length_take, Vector.length_toList, Config.minFrame]
  omega

/-- The bytes of the payload by their places (R131). -/
theorem payloadBytes_getElem? (len : Byte) (pay : Bank) (i : Nat) :
    (payloadBytes len pay)[i]? = if i + 6 < len.toNat then some (pay.get i) else none := by
  have hlen := len.isLt
  rw [payloadBytes, List.getElem?_take, Config.minFrame]
  by_cases hi : i + 6 < len.toNat
  · have h256 : i < 256 := by omega
    rw [if_pos hi, if_pos (by omega), Bank.get]
    simp [h256]
  · rw [if_neg hi, if_neg (by omega)]

/-! ## The logical bytes of the TX frame (R109, R183) -/

/-- The logical bytes of the TX frame, in offset order. -/
def TxFrame.logical (f : TxFrame) : List Byte := Config.preamble :: txBody f

section
variable {f : TxFrame}

theorem TxFrame.logical_length (h : 6 ≤ f.totalLength.toNat) : f.logical.length = f.totalLength.toNat := by
  rw [TxFrame.logical, List.length_cons, txBody_length h]

theorem TxFrame.logical_getElem? {n : Nat} (h : n + 1 < f.totalLength.toNat) :
    f.logical[n]? = some (f.toFrame.byteAt n) := by
  cases n using Frame.byteAt.fun_cases with
  | case6 i =>
    have hi : i < (payloadBytes f.totalLength f.payload).length := by
      rw [payloadBytes_length]
      omega
    change (payloadBytes f.totalLength f.payload ++ [txChecksum f])[i]? = _
    rw [List.getElem?_append_left hi, payloadBytes_getElem?, if_pos (by omega)]
    rfl
  | _ => rfl

theorem TxFrame.logical_getLast? : f.logical.getLast? = some (txChecksum f) := by
  simp [TxFrame.logical, txBody, List.getLast?_cons]

end

/-! ## The work frame on the way (R172 to R178) -/

/-- The work frame holds the first `n` bytes of the frame, and is still clear past them (R171). -/
def Frame.AgreesTo (f : TxFrame) (n : Nat) (w : Frame) : Prop :=
  ∀ i, w.byteAt i = if i < n then f.toFrame.byteAt i else 0

theorem Frame.agreesTo_empty (f : TxFrame) : Frame.empty.AgreesTo f 0 := Frame.byteAt_empty

section
variable {p : Params} {c : Regs} {f : TxFrame} {n : Nat}

theorem Frame.AgreesTo.store {w : Frame} (hw : w.AgreesTo f n) (hn : n < 261) :
    (w.store (f.toFrame.byteAt n) n).AgreesTo f (n + 1) := by
  intro i
  rw [Frame.byteAt_store w _ hn, hw i]
  rcases Nat.lt_trichotomy i n with hlt | rfl | hgt
  · rw [if_neg (by omega), if_pos hlt, if_pos (by omega)]
  · rw [if_pos rfl, if_pos (by omega)]
  · rw [if_neg (by omega), if_neg (by omega), if_neg (by omega)]

/-- Before the checksum, `FaAccept` stores the next byte of the frame at its offset. -/
theorem faAccept_next (hlegal : ¬ badLength p f.totalLength = true) (hpos : c.faPos = BitVec.ofNat 8 n)
    (hw : c.work.AgreesTo f n) (hn : n + 1 < f.totalLength.toNat) :
    faAccept p (f.toFrame.byteAt n) c =
      (.cont, { c with work := c.work.store (f.toFrame.byteAt n) n, faPos := BitVec.ofNat 8 (n + 1) }) := by
  match n with
  | 0 => exact faAccept_preamble hpos
  | 1 => exact faAccept_nodeID hpos
  | 2 => exact faAccept_command hpos
  | 3 => exact faAccept_frameID hpos
  | 4 => exact faAccept_length hpos hlegal
  | i + 5 =>
    have hlen := f.totalLength.isLt
    have hnat : c.faPos.toNat = i + 5 := by
      rw [hpos, BitVec.toNat_ofNat]
      omega
    have hlength : c.work.totalLength = f.totalLength := (hw 4).trans (if_pos (by omega))
    have hsucc : BitVec.ofNat 8 (i + 5 + 1) = BitVec.ofNat 8 (i + 5) + 1 := BitVec.ofNat_add _ _
    rw [faAccept_payload (by omega) (by rw [hlength]; omega), hnat, hpos, hsucc]
    rfl

/-- The work frame with all but the checksum, completed with it, is the frame (R52, R183). -/
theorem Frame.AgreesTo.carries {w : Frame} (hw : w.AgreesTo f n) (hmin : 6 ≤ f.totalLength.toNat)
    (hn : n + 1 = f.totalLength.toNat) : Frame.carries f { w with checksum := txChecksum f } := by
  refine ⟨(hw 0).trans (if_pos ?_), (hw 1).trans (if_pos ?_), (hw 2).trans (if_pos ?_), (hw 3).trans (if_pos ?_),
    (hw 4).trans (if_pos ?_), rfl, fun i => (hw (i + 5)).trans (if_congr ?payload rfl rfl)⟩
  case payload =>
    rw [Config.minFrame]
    omega
  all_goals omega

theorem payloadBytes_congr {len : Byte} {a b : Bank} (h : ∀ i, i + 6 < len.toNat → a.get i = b.get i) :
    payloadBytes len a = payloadBytes len b := by
  apply List.ext_getElem?
  intro i
  rw [payloadBytes_getElem?, payloadBytes_getElem?]
  split
  case isTrue hi => rw [h i hi]
  case isFalse => rfl

/-- The checksum covers only what a received frame carries (R131). -/
theorem Frame.carries.checksum_eq {w : Frame} (h : Frame.carries f w) :
    csumFrame w.preamble w.nodeID w.command w.frameID w.totalLength w.payload = txChecksum f := by
  obtain ⟨hpreamble, hnode, hcommand, hid, hlength, -, hpayload⟩ := h
  have hbytes : payloadBytes f.totalLength w.payload = payloadBytes f.totalLength f.payload :=
    payloadBytes_congr fun i hi => (hpayload i).trans (if_pos hi)
  rw [txChecksum, csumFrame, csumFrame, hpreamble, hnode, hcommand, hid, hlength, hbytes]

/-- The checksum byte completes the frame (R178). -/
theorem faAccept_last (hmin : 6 ≤ f.totalLength.toNat) (hpos : c.faPos = BitVec.ofNat 8 n) (hw : c.work.AgreesTo f n)
    (hn : n + 1 = f.totalLength.toNat) :
    ∃ r, faAccept p (txChecksum f) c = (.doneOk, { c with rx := r, work := Frame.empty, faPos := 0 }) ∧
      Frame.carries f r := by
  have hlen := f.totalLength.isLt
  have hnat : c.faPos.toNat = n := by
    rw [hpos, BitVec.toNat_ofNat]
    omega
  have hlength : c.work.totalLength = f.totalLength := (hw 4).trans (if_pos (by omega))
  have hcarries := hw.carries hmin hn
  exact ⟨_, faAccept_checksum (by omega) (by rw [hlength]; omega) hcarries.checksum_eq, hcarries⟩

end

/-! ## Logical bytes on the wire (R110, R112, R148) -/

/-- Raw bytes that stand for the logical byte: the byte itself, unless it reads as an escape, or the escape pair (R152). -/
inductive OnWire : Byte → List Byte → Prop where
  | literal {b : Byte} (h : b ≠ Config.escape) : OnWire b [b]
  | pair (b : Byte) : OnWire b [Config.escape, ~~~b]

theorem onWire_txRaw (b : Byte) : OnWire b (txRaw (classifyTx b)) := by
  cases hb : Config.special b with
  | true =>
    rw [classifyTx_special hb]
    exact .pair b
  | false =>
    rw [classifyTx_ordinary hb]
    exact .literal (Config.special_eq_false.mp hb).2

/-- The raw frame, cut by its logical bytes. -/
theorem rawFrame_onWire (f : TxFrame) : ∃ ws, rawFrame f = ws.flatten ∧ List.Forall₂ OnWire f.logical ws := by
  refine ⟨[Config.preamble] :: (txBody f).map fun b => txRaw (classifyTx b), ?_,
    .cons (.literal Config.preamble_ne_escape) ?_⟩
  · rw [rawFrame, List.flatMap_def]
    rfl
  · rw [List.forall₂_map_right_iff, List.forall₂_same]
    exact fun b _ => onWire_txRaw b

/-- A logical byte was received, with `rest` left buffered: beside the codec's registers only the buffer and the trace changed,
and no escape is pending. -/
structure Heard (rest : List Byte) (s t : State) : Prop where
  core : ∃ n o, t.core = { s.core with esc := false, syncCount := n, codecOut := o }
  env : t.env = { s.env with fifo := rest }
  params : t.params = s.params

section
variable {s : State} {b : Byte} {rest : List Byte}

/-- A raw byte that is no escape is received as itself, whether or not it counts as a sync marker (R144 to R146). -/
theorem codecRx_literal (hq : s.env.script = []) (hesc : s.core.esc = false) (hb : b ≠ Config.escape) :
    ∃ t, (codecRx b).run s = .ok (some b) t ∧ Heard s.env.fifo s t := by
  have hcore : ∀ n o, { s.core with syncCount := n, codecOut := o } =
      { s.core with esc := false, syncCount := n, codecOut := o } := fun n o => by rw [← hesc]
  by_cases hpre : b = Config.preamble
  · subst hpre
    by_cases hn : s.core.syncCount = 0
    · cases hfwd : s.core.ringFwdEn with
      | false => exact ⟨_, codecRx_sync_silent hesc hn hfwd, ⟨_, _, hcore _ _⟩, rfl, rfl⟩
      | true => exact ⟨_, codecRx_sync_quiet hesc hn hfwd hq, ⟨_, _, hcore _ _⟩, rfl, rfl⟩
    · exact ⟨_, codecRx_aa hesc hn, ⟨_, _, hcore _ _⟩, rfl, rfl⟩
  · exact ⟨_, codecRx_data hesc (Config.special_eq_false.mpr ⟨hpre, hb⟩), ⟨_, _, hcore _ _⟩, rfl, rfl⟩

/-- The second byte of an escape pair is the last that `NextByte` needs (R141). -/
theorem nextByteIn_complement (hq : s.env.script = []) (ho : s.env.openAt.isSome = true) (hesc : s.core.esc = true)
    (hf : s.env.fifo = ~~~b :: rest) (n : Nat) :
    (nextByteIn (n + 1)).run s = .ok b ((s.takeByte (~~~b) rest).mapCore fun c =>
      { c with esc := false, syncCount := sat8Succ c.syncCount, codecOut := some b }) :=
  nextByteIn_of_some ((nextRaw_buffered hq ho hf).trans (codecRx_complement b hesc)) n

/-- `NextByte` takes one logical byte off the wire (R148). -/
theorem nextByte_onWire {w : List Byte} (hw : OnWire b w) (hq : s.env.script = []) (ho : s.env.openAt.isSome = true)
    (hesc : s.core.esc = false) (hf : s.env.fifo = w ++ rest) : ∃ t, nextByte.run s = .ok b t ∧ Heard rest s t := by
  cases hw with
  | literal hb =>
    obtain ⟨t, hrun, hcore, henv, hparams⟩ := codecRx_literal (s := s.takeByte b rest) hq hesc hb
    exact ⟨t, nextByteIn_of_some ((nextRaw_buffered hq ho hf).trans hrun) 1, hcore, henv, hparams⟩
  | pair =>
    have hprefix := (nextRaw_buffered hq ho hf).trans (codecRx_esc (s := s.takeByte _ _) hesc)
    rw [nextByte, nextByteIn_of_none hprefix 1, nextByteIn_complement (b := b) (rest := rest) (n := 0)]
    · exact ⟨_, rfl, ⟨_, _, rfl⟩, rfl, rfl⟩
    · exact hq
    · exact ho
    · rfl
    · rfl

/-- A pass of the loop of `Assemble` gives the next logical byte to `FaAccept` (R181). -/
theorem assembleIn_onWire {w : List Byte} (hw : OnWire b w) (hq : s.env.script = []) (ho : s.env.openAt.isSome = true)
    (hesc : s.core.esc = false) (hf : s.env.fifo = w ++ rest) (k : Nat) :
    ∃ t, (assembleIn (k + 1)).run s = (assembleByte b (assembleIn k)).run t ∧ Heard rest s t := by
  obtain ⟨t, hrun, ht⟩ := nextByte_onWire hw hq ho hesc hf
  have hw0 : 0 < w.length := by cases hw <;> exact Nat.succ_pos _
  have havail : 0 < s.env.avail := by
    rw [Env.avail, if_pos ho, hf, List.length_append]
    omega
  exact ⟨t, by rw [assembleIn, Proc.bind_ok (chAvail_quiet hq), if_pos havail, Proc.bind_ok hrun], ht⟩

end

/-! ## Receiving the frame (R183) -/

/-- The core is at offset `n` of the frame, in a session that is up, with the raw bytes `raw` buffered and nothing else to
come. -/
structure MidFrame (f : TxFrame) (n : Nat) (raw : List Byte) (s : State) : Prop where
  quiet : s.env.script = []
  openAt : s.env.openAt.isSome = true
  fifo : s.env.fifo = raw
  legal : ¬ badLength s.params f.totalLength = true
  ready : s.core.ready = true
  esc : s.core.esc = false
  pos : s.core.faPos = BitVec.ofNat 8 n
  work : s.core.work.AgreesTo f n

/-- The frame was delivered, and a new one can begin. -/
structure Delivered (f : TxFrame) (s : State) : Prop where
  quiet : s.env.script = []
  fifo : s.env.fifo = []
  ready : s.core.ready = true
  esc : s.core.esc = false
  pos : s.core.faPos = 0
  work : s.core.work = Frame.empty
  rx : Frame.carries f s.core.rx

section
variable {f : TxFrame} {n : Nat} {s t : State}

theorem MidFrame.minLength {raw : List Byte} (h : MidFrame f n raw s) : 6 ≤ f.totalLength.toNat := by
  have hlegal := h.legal
  rw [badLength_iff] at hlegal
  omega

theorem MidFrame.heard {raw rest : List Byte} (h : MidFrame f n raw s) (ht : Heard rest s t) : MidFrame f n rest t := by
  obtain ⟨⟨m, o, hcore⟩, henv, hparams⟩ := ht
  obtain ⟨hq, ho, -, hlegal, hready, -, hpos, hwork⟩ := h
  constructor <;> simp only [hcore, henv, hparams] <;> assumption

/-- At an offset before the checksum, the loop goes on at the next offset. -/
theorem MidFrame.next {rest : List Byte} (h : MidFrame f n rest s) (hn : n + 1 < f.totalLength.toNat) (k : Proc Code) :
    ∃ t, (assembleByte (f.toFrame.byteAt n) k).run s = k.run t ∧ MidFrame f (n + 1) rest t := by
  have hlen := f.totalLength.isLt
  exact ⟨_, assembleByte_cont (faAccept_next h.legal h.pos h.work hn),
    h.quiet, h.openAt, h.fifo, h.legal, h.ready, h.esc, rfl, h.work.store (by omega)⟩

/-- At the checksum the loop ends. -/
theorem MidFrame.last (h : MidFrame f n [] s) (hn : n + 1 = f.totalLength.toNat) (k : Proc Code) :
    ∃ t, (assembleByte (txChecksum f) k).run s = .ok .frameReady t ∧ Delivered f t := by
  obtain ⟨r, hr, hcarries⟩ := faAccept_last h.minLength h.pos h.work hn
  exact ⟨_, assembleByte_answer hr rfl, h.quiet, h.fifo, h.ready, h.esc, rfl, rfl, hcarries⟩

/-- Along the wire, from any offset on. -/
theorem assembleIn_delivers {bs : List Byte} {ws : List (List Byte)} (hw : List.Forall₂ OnWire bs ws)
    (hbs : f.logical.drop n = bs) (hne : bs ≠ []) {k : Nat} (hk : bs.length ≤ k) (hs : MidFrame f n ws.flatten s) :
    ∃ t, (assembleIn k).run s = .ok .frameReady t ∧ Delivered f t := by
  induction hw generalizing n k s with
  | nil => exact absurd rfl hne
  | @cons b w bs ws hb hrest ih =>
    obtain ⟨k, rfl⟩ : ∃ m, k = m + 1 := ⟨k - 1, by rw [List.length_cons] at hk; omega⟩
    obtain ⟨t, hpass, ht⟩ := assembleIn_onWire hb hs.quiet hs.openAt hs.esc hs.fifo k
    have hmid : MidFrame f n ws.flatten t := hs.heard ht
    have hbyte : f.logical[n]? = some b := by rw [← List.head?_drop, hbs, List.head?_cons]
    have htail : f.logical.drop (n + 1) = bs := by rw [← List.tail_drop, hbs, List.tail_cons]
    have hlength : f.totalLength.toNat = n + bs.length + 1 := by
      have hdrop := congrArg List.length hbs
      rw [List.length_drop, TxFrame.logical_length hs.minLength, List.length_cons] at hdrop
      omega
    rw [hpass]
    cases bs with
    | nil =>
      obtain rfl : b = txChecksum f := by
        have hlast := TxFrame.logical_getLast? (f := f)
        rw [List.getLast?_eq_getElem?, TxFrame.logical_length hs.minLength, hlength, List.length_nil,
          Nat.add_sub_cancel, Nat.add_zero, hbyte] at hlast
        exact Option.some.inj hlast
      cases hrest
      exact hmid.last hlength.symm _
    | cons b' bs =>
      have hn : n + 1 < f.totalLength.toNat := by rw [hlength, List.length_cons]; omega
      obtain rfl : f.toFrame.byteAt n = b := Option.some.inj ((TxFrame.logical_getElem? hn).symm.trans hbyte)
      obtain ⟨u, hnext, hu⟩ := hmid.next hn (assembleIn k)
      rw [hnext]
      exact ih htail (List.cons_ne_nil _ _) (Nat.le_of_succ_le_succ hk) hu

theorem assemble_delivers (hs : MidFrame f 0 (rawFrame f) s) :
    ∃ t, assemble.run s = .ok .frameReady t ∧ Delivered f t := by
  obtain ⟨ws, hraw, hw⟩ := rawFrame_onWire f
  have hlen := f.totalLength.isLt
  refine assembleIn_delivers hw rfl (List.cons_ne_nil _ _) ?_ (hraw ▸ hs)
  rw [TxFrame.logical_length hs.minLength]
  omega

/-- With a frame's worth of bytes buffered, POLL notes the time and assembles (R224). -/
theorem pollProc_assembles {r : Code} (hq : s.env.script = []) (hready : s.core.ready = true)
    (havail : Config.minFrame ≤ s.env.avail) (h : assemble.run (s.mapCore fun c => { c with lastAct := s.env.now }) = .ok r t) :
    pollProc.run s = .ok (.plain r) t := by
  have hup : ¬ (!s.core.ready) = true := by simp [hready]
  rw [pollProc, Proc.bind_ok (regs_run s), if_neg hup, Proc.bind_ok (now_quiet hq), Proc.bind_ok (chAvail_quiet hq),
    if_pos havail, Proc.bind_ok (update_run _ s), Proc.bind_ok h]
  rfl

end

/-- Settles O36: from an empty work frame POLL assembles the whole wire (`assemble_delivers`), and its response leaves the
registers alone. -/
theorem sentFrameIsReceived : Obligations.SentFrameIsReceived := by
  intro s f hq hready hesc hpos hwork ho hf hmin hcap
  have hlegal : ¬ badLength s.params f.totalLength = true := by
    rw [badLength_iff]
    omega
  have havail : 6 ≤ s.env.avail := by
    rw [Env.avail, if_pos ho, hf, (rawFrameLength f hmin).1]
    omega
  obtain ⟨t, hrun, ht⟩ := assemble_delivers (f := f)
    (s := (s.setSeq (.busy .poll)).mapCore fun c => { c with lastAct := s.env.now })
    ⟨hq, ho, hf, hlegal, hready, hesc, hpos, hwork ▸ Frame.agreesTo_empty f⟩
  have hpoll := pollProc_assembles (s := s.setSeq (.busy .poll)) hq hready havail hrun
  exact ⟨_, runCommand_quiet hpoll ht.quiet, List.getLast?_concat, ht.fifo, ht.rx, rfl, ht.pos, ht.work, ht.esc, ht.ready⟩

end Sys2Proof.Machine
end

section
/-! SUPPORT for O24 and O26 to O30: the begin procedure and the autodetect along a script whose turns are known. A turn is given
by what `tick` does in it, so one lemma per primitive covers a used-up script, an empty turn and a turn in which bytes arrive. -/

namespace Sys2Proof.Machine

/-! ## Turns in which nothing happens -/

/-- The environment does nothing in the next `n` turns: each is empty, or past the end of the script. -/
def Still (n : Nat) (script : List (List EnvMove)) : Prop := ∀ turn ∈ script.take n, turn = []

/-- The state with the next turn of the script gone. -/
def State.nextTurn (s : State) : State := s.mapEnv fun e => { e with script := e.script.tail }

@[simp] theorem State.nextTurn_core (s : State) : s.nextTurn.core = s.core := rfl
@[simp] theorem State.nextTurn_env (s : State) : s.nextTurn.env = { s.env with script := s.env.script.tail } := rfl
@[simp] theorem State.nextTurn_trace (s : State) : s.nextTurn.trace = s.trace := rfl
@[simp] theorem State.nextTurn_params (s : State) : s.nextTurn.params = s.params := rfl

theorem still_nil (n : Nat) : Still n [] := by simp [Still]

theorem still_of_quiet {n : Nat} {script : List (List EnvMove)} (h : script = []) : Still n script := h ▸ still_nil n

theorem Still.tail {n : Nat} {script : List (List EnvMove)} (h : Still (n + 1) script) : Still n script.tail := by
  cases script with
  | nil => exact still_nil n
  | cons turn rest => exact fun x hx => h x (List.mem_cons_of_mem turn hx)

theorem still_replicate {n m : Nat} (h : n ≤ m) (later : List (List EnvMove)) : Still n (List.replicate m [] ++ later) := by
  intro turn hturn
  rw [List.take_append_of_le_length (by simpa using h)] at hturn
  exact List.eq_of_mem_replicate (List.mem_of_mem_take hturn)

theorem tick_passes {n : Nat} {s : State} (h : Still (n + 1) s.env.script) : tick.run s = .ok () s.nextTurn := by
  obtain ⟨c, ⟨o, f, l, w, pr, pt, script, su⟩, tr, p⟩ := s
  cases script with
  | nil => rfl
  | cons turn rest =>
    obtain rfl : turn = [] := h turn List.mem_cons_self
    rfl

/-! ## Turns in which bytes arrive (R93) -/

theorem arrivals_isReset (bs : List Byte) : (arrivals bs).any EnvMove.isReset = false := by
  induction bs with
  | nil => rfl
  | cons b bs ih => exact ih

/-- Bytes that the open channel has room for are buffered in order. -/
theorem applyTurn_arrivals {s : State} (bs : List Byte) (ho : s.env.openAt.isSome = true)
    (hroom : s.env.fifo.length + bs.length ≤ s.params.fifoDepth.toNat) :
    applyTurn (arrivals bs) s = s.mapEnv fun e => { e with fifo := e.fifo ++ bs } := by
  induction bs generalizing s with
  | nil => simp [arrivals, applyTurn, State.mapEnv]
  | cons b bs ih =>
    have hlt : s.env.fifo.length < s.params.fifoDepth.toNat := by
      rw [List.length_cons] at hroom
      omega
    have hroom' : (s.env.fifo ++ [b]).length + bs.length ≤ s.params.fifoDepth.toNat := by
      simp only [List.length_append, List.length_cons, List.length_nil] at hroom ⊢
      omega
    have hmove : applyMove (.arrive b 0) s = s.mapEnv fun e => { e with fifo := e.fifo ++ [b] } := by
      simp only [applyMove, State.mapEnv, Env.receive, ho, hlt, if_true]
    change applyTurn (arrivals bs) (applyMove (.arrive b 0) s) = _
    rw [hmove, ih (s := s.mapEnv fun e => { e with fifo := e.fifo ++ [b] }) ho hroom']
    simp [State.mapEnv]

/-- The state after the bytes `bs` arrived in the next turn. -/
def State.arrived (bs : List Byte) (s : State) : State := s.nextTurn.mapEnv fun e => { e with fifo := e.fifo ++ bs }

@[simp] theorem State.arrived_core (bs : List Byte) (s : State) : (s.arrived bs).core = s.core := rfl
@[simp] theorem State.arrived_env (bs : List Byte) (s : State) :
    (s.arrived bs).env = { s.env with fifo := s.env.fifo ++ bs, script := s.env.script.tail } := rfl
@[simp] theorem State.arrived_trace (bs : List Byte) (s : State) : (s.arrived bs).trace = s.trace := rfl
@[simp] theorem State.arrived_params (bs : List Byte) (s : State) : (s.arrived bs).params = s.params := rfl

theorem tick_arrivals {s : State} {bs : List Byte} {later : List (List EnvMove)} (h : s.env.script = arrivals bs :: later)
    (ho : s.env.openAt.isSome = true) (hroom : s.env.fifo.length + bs.length ≤ s.params.fifoDepth.toNat) :
    tick.run s = .ok () (s.arrived bs) := by
  have hnext : s.nextTurn = s.mapEnv fun e => { e with script := later } := by simp [State.nextTurn, State.mapEnv, h]
  rw [tick_turn h (arrivals_isReset bs), ← hnext, applyTurn_arrivals (s := s.nextTurn) bs ho hroom]
  rfl

/-! ## The primitives, by what the turn before them does -/

section
variable {s t : State}

theorem chPresent_run (h : tick.run s = .ok () t) : chPresent.run s = .ok t.env.present t := by
  rw [chPresent, Proc.bind_ok h]; rfl

theorem chAvail_run (h : tick.run s = .ok () t) : chAvail.run s = .ok t.env.avail t := by
  rw [chAvail, Proc.bind_ok h]; rfl

theorem chOpen_run (b : Word) (h : tick.run s = .ok () t) : (chOpen b).run s = .ok () (t.openChannel b) := by
  rw [chOpen, Proc.bind_ok h]; rfl

theorem chClose_run (h : tick.run s = .ok () t) : chClose.run s = .ok () t.closeChannel := by
  rw [chClose, Proc.bind_ok h]; rfl

theorem Env.avail_of_open {e : Env} (h : e.openAt.isSome = true) : e.avail = e.fifo.length := if_pos h

/-- `ChDiscard` with an empty buffer reads nothing. -/
theorem chDiscard_empty (h : tick.run s = .ok () t) (hf : t.env.fifo = []) : chDiscard.run s = .ok () t := by
  have havail : t.env.avail = 0 := by simp [Env.avail, hf]
  rw [chDiscard, Proc.bind_ok (chAvail_run h), havail]
  rfl

/-- `ChDiscard` reads every byte that is buffered when it starts, those of the turn before it too (R206). -/
theorem chDiscard_run (h : tick.run s = .ok () t) (hq : t.env.script = []) (ho : t.env.openAt.isSome = true) :
    chDiscard.run s = .ok () (t.afterReads t.env.fifo []) := by
  rw [chDiscard, Proc.bind_ok (chAvail_run h), Env.avail_of_open ho,
    Proc.bind_ok (readMany_quiet t.env.fifo [] t hq (List.append_nil _).symm)]
  rfl

/-- A wait whose condition fails takes a turn. -/
theorem waitFor_tick {c : State → Bool} {h : Hold} (n : Nat) (hc : c s = false) (ht : tick.run s = .ok () t) :
    (waitFor c h (n + 1)).run s = (waitFor c h n).run t := by
  rw [waitFor, Proc.bind_ok (theState_run s), if_neg (by simp [hc]), Proc.bind_ok ht]

theorem runCommand_halted {i : Instr} {p : Proc Reply} (h : p.run (s.setSeq (.busy i)) = .error .halted t) :
    runCommand i p s = .next t := by
  rw [runCommand, runAs, answer, Proc.bind_error h, settle_halted]

end

/-! ## Opening the channel at a rate (R15, R203, R221) -/

/-- The state after the channel was closed, and opened at `b` a turn later. -/
def State.reopened (b : Word) (s : State) : State := s.nextTurn.closeChannel.nextTurn.openChannel b

/-- The state where the attempt at `idx` begins to wait for bytes: the attempt is counted, and the channel open (R203, R204). -/
def State.attempting (idx : BitVec 3) (s : State) : State :=
  ((s.mapCore fun c => { c with adAttempts := c.adAttempts + 1, baudIndex := idx }).reopened (baudAt s.core idx)).nextTurn

section
variable (idx : BitVec 3) (s : State)

@[simp] theorem State.attempting_core : (s.attempting idx).core =
    { s.core with adAttempts := s.core.adAttempts + 1, baudIndex := idx, chOpen := true } := rfl
@[simp] theorem State.attempting_env : (s.attempting idx).env =
    { s.env with openAt := some (baudAt s.core idx), fifo := [], script := s.env.script.tail.tail.tail } := rfl
@[simp] theorem State.attempting_trace : (s.attempting idx).trace =
    s.trace ++ [.closed, .opened (baudAt s.core idx)] := List.append_assoc _ _ _
@[simp] theorem State.attempting_params : (s.attempting idx).params = s.params := rfl

end

/-! ## Waiting for `SYNC_N` bytes (R203) -/

section
variable {s t : State} {idx : BitVec 3} {bs rest : List Byte}

theorem attemptRead_of_wait
    (hw : (waitUntil (fun u => decide (s.params.syncN ≤ u.env.avail)) (.autodetect idx)).run s = .ok () t)
    (hq : t.env.script = []) (hf : t.env.fifo = bs ++ rest) (hlen : bs.length = s.params.syncN) :
    (attemptRead idx).run s = .ok (bs.all (· == Config.preamble)) (t.afterReads bs rest) := by
  rw [attemptRead, Proc.bind_ok (params_run s), Proc.bind_ok hw, ← hlen, Proc.bind_ok (readMany_quiet bs rest t hq hf)]
  rfl

/-- The bytes are buffered. -/
theorem attemptRead_buffered (hq : s.env.script = []) (ho : s.env.openAt.isSome = true) (hf : s.env.fifo = bs ++ rest)
    (hlen : bs.length = s.params.syncN) :
    (attemptRead idx).run s = .ok (bs.all (· == Config.preamble)) (s.afterReads bs rest) := by
  refine attemptRead_of_wait (waitUntil_ready ?_) hq hf hlen
  rw [Env.avail_of_open ho, hf, List.length_append, decide_eq_true_iff]
  omega

/-- A wait through `n` empty turns, ended by the bytes of the turn after them. -/
theorem waitFor_arrivals {k n : Nat} (h : s.env.script = List.replicate n [] ++ [arrivals bs]) (hf : s.env.fifo = [])
    (ho : s.env.openAt.isSome = true) (hk : 0 < k) (hlen : k ≤ bs.length) (hroom : bs.length ≤ s.params.fifoDepth.toNat) :
    (waitFor (fun u => decide (k ≤ u.env.avail)) (.autodetect idx) (n + 1)).run s =
      .ok () { s with env := { s.env with fifo := bs, script := [] } } := by
  have hshort : decide (k ≤ s.env.avail) = false := by
    rw [Env.avail_of_open ho, hf, decide_eq_false_iff_not, List.length_nil]
    omega
  induction n generalizing s with
  | zero =>
    have hlast : s.arrived bs = { s with env := { s.env with fifo := bs, script := [] } } := by
      simp [State.arrived, State.nextTurn, State.mapEnv, h, hf]
    rw [waitFor_tick 0 hshort (tick_arrivals h ho (by simpa [hf] using hroom)), hlast]
    have havail := Env.avail_of_open (e := { s.env with fifo := bs, script := [] }) ho
    exact waitFor_ready 0 (decide_eq_true_iff.mpr (le_of_le_of_eq hlen havail.symm))
  | succ n ih =>
    have hstill : Still 1 s.env.script := h ▸ still_replicate (Nat.succ_le_succ (Nat.zero_le n)) _
    rw [waitFor_tick (n + 1) hshort (tick_passes hstill), ih (s := s.nextTurn) (congrArg List.tail h) hf ho hroom hshort]
    rfl

/-- The bytes arrive while the attempt waits; those past the `SYNC_N` stay buffered. -/
theorem attemptRead_arrivals {n : Nat} (h : s.env.script = List.replicate n [] ++ [arrivals (bs ++ rest)])
    (hf : s.env.fifo = []) (ho : s.env.openAt.isSome = true) (hlen : bs.length = s.params.syncN) (hpos : 0 < s.params.syncN)
    (hroom : (bs ++ rest).length ≤ s.params.fifoDepth.toNat) :
    (attemptRead idx).run s = .ok (bs.all (· == Config.preamble))
      (State.afterReads bs rest { s with env := { s.env with script := [] } }) := by
  have hturns : s.env.script.length = n + 1 := by simp [h]
  have hwait := waitFor_arrivals (idx := idx) h hf ho hpos (by rw [List.length_append]; omega) hroom
  refine attemptRead_of_wait (t := { s with env := { s.env with fifo := bs ++ rest, script := [] } }) ?_ rfl rfl hlen
  rw [waitUntil, Proc.bind_ok (theState_run s), hturns, hwait]

/-- On a silent line the attempt holds (R310). -/
theorem attemptRead_holds (hq : s.env.script = []) (h : s.env.avail < s.params.syncN) :
    (attemptRead idx).run s = .error .halted (s.setSeq (s.core.seq.waiting (.autodetect idx))) := by
  have hshort : decide (s.params.syncN ≤ s.env.avail) = false := by simpa using h
  rw [attemptRead, Proc.bind_ok (params_run s), Proc.bind_error (waitUntil_holds hq hshort)]

/-! ## Attempts (R202 to R205) -/

theorem attempt_run (h : Still 3 s.env.script) :
    (attempt idx).run (s.mapCore fun c => { c with adAttempts := c.adAttempts + 1 }) =
      (attemptRead idx).run (s.attempting idx) :=
  (Proc.bind_ok (update_run _ _)).trans <|
    (Proc.bind_ok (chClose_run (tick_passes (s := (s.mapCore _).mapCore _) h))).trans <|
      (Proc.bind_ok (regs_run _)).trans <|
        (Proc.bind_ok (chOpen_run _ (tick_passes (s := State.closeChannel _) h.tail))).trans <|
          Proc.bind_ok (chDiscard_empty (tick_passes (s := State.openChannel _ _) h.tail.tail) rfl)

theorem scan_succ_run (n : Nat) (hmore : attemptsSpent s.core = false) (h : Still 3 s.env.script) :
    (scan (n + 1) idx).run s = (attemptRead idx >>= fun ok =>
      if ok then acceptBaud idx else regs >>= fun c => scan n (nextCandidate idx c)).run (s.attempting idx) := by
  rw [scan, Proc.bind_ok (regs_run s), if_neg (by simp [hmore]), Proc.bind_ok (update_run _ s), EStateM.run_bind,
    attempt_run h, ← EStateM.run_bind]

theorem scanFrom_run : (scanFrom idx).run s = (scan (s.env.script.length + 1) idx).run s := by
  rw [scanFrom, Proc.bind_ok (theState_run s)]

/-- The rate of candidate `idx` is adopted (R202). -/
def State.adopting (idx : BitVec 3) (s : State) : State := s.mapCore fun c => { c with curBaud := baudAt c idx }

theorem acceptBaud_run : (acceptBaud idx).run s = .ok .ok (s.adopting idx) := rfl

theorem scanFrom_adopts (hmore : attemptsSpent s.core = false) (h : Still 3 s.env.script)
    (hread : (attemptRead idx).run (s.attempting idx) = .ok true t) :
    (scanFrom idx).run s = .ok .ok (t.adopting idx) := by
  rw [scanFrom_run, scan_succ_run _ hmore h, Proc.bind_ok hread, if_pos rfl, acceptBaud_run]

/-- An attempt on a silent line (R203, R310). -/
theorem scanFrom_holds (hmore : attemptsSpent s.core = false) (hq : s.env.script = []) (hsync : 0 < s.params.syncN) :
    (scanFrom idx).run s =
      .error .halted ((s.attempting idx).setSeq (s.core.seq.waiting (.autodetect idx))) := by
  have hread := attemptRead_holds (s := s.attempting idx) (idx := idx) (by simp [hq]) (by simpa [Env.avail] using hsync)
  rw [scanFrom_run, scan_succ_run _ hmore (still_of_quiet hq), Proc.bind_error hread]
  rfl

/-- No attempt is left (R204). -/
theorem scanFrom_spent (hspent : attemptsSpent s.core = true) (hq : s.env.script = []) :
    (scanFrom idx).run s = .ok .autodetectExhausted s.closeChannel := by
  rw [scanFrom_run, scan, Proc.bind_ok (regs_run s), if_pos hspent, Proc.bind_ok (chClose_quiet hq)]
  rfl

theorem autodetectResume_adopts (hread : (attemptRead idx).run s = .ok true t) :
    (autodetectResume idx).run s = .ok .ok (t.adopting idx) := by
  rw [autodetectResume, Proc.bind_ok hread, if_pos rfl, acceptBaud_run]

theorem autodetectResume_mismatch (hread : (attemptRead idx).run s = .ok false t) :
    (autodetectResume idx).run s = (scanFrom (nextCandidate idx t.core)).run t := by
  rw [autodetectResume, Proc.bind_ok hread, if_neg Bool.false_ne_true, Proc.bind_ok (regs_run t)]

/-! ## The end of the begin procedure (R222, R225) -/

/-- The session is up, at the clock's present time (R222). -/
def State.broughtUp (s : State) : State := s.mapCore fun c =>
  { c with esc := false, syncCount := 0, faPos := 0, work := Frame.empty, lastAct := s.env.now, ready := true }

theorem beginFinish_quiet (hq : s.env.script = []) : beginFinish.run s = .ok .ok s.broughtUp :=
  (Proc.bind_ok (update_run _ _)).trans <| (Proc.bind_ok (update_run _ _)).trans <|
    (Proc.bind_ok (now_quiet (s := (s.mapCore _).mapCore _) hq)).trans <| Proc.bind_ok (update_run _ _)

/-- What follows the autodetect `p` in command `i`: the end of the begin procedure, and the command's answer (R222, R225). -/
def answerScan (i : Instr) (p : Proc Code) : Proc Reply := do
  let r ← p
  let r' ← beginAfterScan r
  return .plain (beginAnswer i r')

theorem resumeProc_autodetect (i : Instr) : resumeProc i (.autodetect idx) = answerScan i (autodetectResume idx) := rfl

theorem resumeProc_attempt (i : Instr) : resumeProc i (.attempt idx) = answerScan i (scanFrom idx) := rfl

theorem answerScan_ok {p : Proc Code} (i : Instr) (h : p.run s = .ok .ok t) (hq : t.env.script = []) :
    (answerScan i p).run s =
      .ok (.plain (beginAnswer i .ok)) t.broughtUp := by
  rw [answerScan, Proc.bind_ok h, beginAfterScan, if_pos rfl, Proc.bind_ok (beginFinish_quiet hq)]
  rfl

theorem answerScan_exhausted {p : Proc Code} (i : Instr) (h : p.run s = .ok .autodetectExhausted t) :
    (answerScan i p).run s =
      .ok (.plain (beginAnswer i .autodetectExhausted)) t := by
  rw [answerScan, Proc.bind_ok h]
  rfl

/-- The code of R225 for a POLL, of R222 for a begin command. -/
theorem beginAnswer_ok_toByte (i : Instr) : (beginAnswer i .ok).toByte = if i = .poll then 0x05 else 0x00 := by
  cases i <;> rfl

theorem beginAnswer_exhausted_toByte (i : Instr) :
    (beginAnswer i .autodetectExhausted).toByte = if i = .poll then 0x04 else 0x09 := by
  cases i <;> rfl

end

end Sys2Proof.Machine
end

section
/-! PROOF of O24, O26, O27, O29, O30 and O49: the autodetect in an environment whose turns are known, and the holds in one that
takes none (spec/43_baud_autodetect.md, spec/70_reset_and_hazards.md R310). A step from HOLD_AD is what `attemptRead` answers,
then the attempt at the next candidate or the end of the begin. -/

namespace Sys2Proof.Machine

theorem State.eq_of_parts {s t : State} (hcore : s.core = t.core) (henv : s.env = t.env) (htrace : s.trace = t.trace)
    (hparams : s.params = t.params) : s = t := by
  cases s
  cases t
  simp_all

/-! ## Begin (R220 to R222) -/

section
variable {s t : State}

/-- The state in which the autodetect of BEGIN_AUTO begins (R201, R222). -/
def State.scanStart (s : State) : State := s.nextTurn.mapCore fun c => { c with ready := false, adAttempts := 0 }

theorem begin_none_run (h : Still 1 s.env.script) (hfatal : s.core.fatal = false) (hpresent : s.env.present = true)
    (hcount : s.core.baudCount ≠ 0) : (begin none).run s = (scanFrom 0 >>= beginAfterScan).run s.scanStart := by
  have hthere : chPresent.run s = .ok true s.nextTurn := hpresent ▸ chPresent_run (tick_passes h)
  rw [begin, Proc.bind_ok (regs_run s), if_neg (by simp [hfatal]), Proc.bind_ok hthere, if_neg (by decide)]
  simp only [if_neg hcount]
  rfl

/-- BEGIN_AUTO is its autodetect, with the answer of the begin. -/
theorem beginAutoProc_run (h : Still 1 s.env.script) (hfatal : s.core.fatal = false) (hpresent : s.env.present = true)
    (hcount : s.core.baudCount ≠ 0) :
    beginAutoProc.run s = (answerScan .beginAuto (scanFrom 0)).run s.scanStart := by
  rw [beginAutoProc, EStateM.run_bind, begin_none_run h hfatal hpresent hcount, ← EStateM.run_bind, bind_assoc]
  rfl

/-- The state in which BEGIN_BAUD discards: the session down, the channel open at `b` (R222). -/
def State.rebased (b : Word) (s : State) : State := (s.nextTurn.mapCore fun c => { c with ready := false }).reopened b

section
variable (b : Word) (s : State)

@[simp] theorem State.rebased_core : (s.rebased b).core = { s.core with ready := false, chOpen := true } := rfl
@[simp] theorem State.rebased_env : (s.rebased b).env =
    { s.env with openAt := some b, fifo := [], script := s.env.script.tail.tail.tail } := rfl
@[simp] theorem State.rebased_trace : (s.rebased b).trace = s.trace ++ [.closed, .opened b] := List.append_assoc _ _ _
@[simp] theorem State.rebased_params : (s.rebased b).params = s.params := rfl

end

/-- BEGIN_BAUD, by what its discard does. -/
theorem begin_some_run {b : Word} (h : Still 3 s.env.script) (hfatal : s.core.fatal = false) (hpresent : s.env.present = true)
    (hdiscard : chDiscard.run (s.rebased b) = .ok () t)
    (hq : t.env.script = []) :
    (begin (some b)).run s = .ok .ok (t.mapCore fun c => { c with curBaud := b }).broughtUp := by
  have hthere : chPresent.run s = .ok true s.nextTurn := hpresent ▸ chPresent_run (tick_passes h)
  rw [begin, Proc.bind_ok (regs_run s), if_neg (by simp [hfatal]), Proc.bind_ok hthere, if_neg (by decide)]
  exact (Proc.bind_ok (update_run _ _)).trans <|
    (Proc.bind_ok (chClose_run (tick_passes (s := s.nextTurn.mapCore _) h.tail))).trans <|
      (Proc.bind_ok (chOpen_run b (tick_passes (s := State.closeChannel _) h.tail.tail))).trans <|
        (Proc.bind_ok hdiscard).trans <| (Proc.bind_ok (update_run _ t)).trans <|
          beginFinish_quiet (s := t.mapCore _) hq

end

/-- Settles O24: the fourth turn falls before the discard, which reads the bytes that arrive in it. -/
theorem beginBaudDiscardsArrivals : Obligations.BeginBaudDiscardsArrivals := by
  intro s b bs hscript hfatal hpresent hroom
  have hstill : Still 3 s.env.script := hscript ▸ still_replicate (m := 3) (Nat.le_refl 3) [arrivals bs]
  have hlast : ((s.setSeq (.busy (.beginBaud b))).rebased b).env.script = [arrivals bs] :=
    congrArg (fun l => l.tail.tail.tail) hscript
  have hdiscard := chDiscard_run (tick_arrivals hlast rfl (by simpa using hroom)) (congrArg List.tail hlast) rfl
  have hproc : (beginBaudProc b).run (s.setSeq (.busy (.beginBaud b))) = .ok (.plain .ok) _ :=
    Proc.bind_ok (begin_some_run hstill hfatal hpresent hdiscard (congrArg List.tail hlast))
  refine (runCommand_quiet hproc (congrArg List.tail hlast)).trans (congrArg Host.Outcome.next ?_)
  refine State.eq_of_parts rfl ?_ ?_ rfl
  · simp [State.broughtUp, hscript]
  · simp [State.broughtUp, Code.toByte, Reply.plain]

/-! ## The attempt bound and the candidates (R204, R205) -/

theorem attemptsSpent_eq_false {c : Regs} (h : c.adMaxAttempts = 0 ∨ c.adAttempts ≠ c.adMaxAttempts) :
    attemptsSpent c = false := by
  rcases h with h | h <;> simp [attemptsSpent, h]

theorem attemptsSpent_eq_true {c : Regs} (hmax : c.adMaxAttempts ≠ 0) (h : c.adAttempts = c.adMaxAttempts) :
    attemptsSpent c = true := by
  rw [attemptsSpent, h, beq_self_eq_true, Bool.and_true, bne_iff_ne]
  exact hmax

/-- The first attempt is always made (R201). -/
theorem attemptsSpent_first {c : Regs} (h : c.adAttempts = 0) : attemptsSpent c = false := by
  by_cases hmax : c.adMaxAttempts = 0
  · exact attemptsSpent_eq_false (.inl hmax)
  · exact attemptsSpent_eq_false (.inr (h ▸ Ne.symm hmax))

section
variable {c : Regs} (hpos : 0 < c.baudCount.toNat) (hle : c.baudCount.toNat ≤ 8)
include hpos hle

theorem toNat_ofNat_mod_baudCount (n : Nat) : (BitVec.ofNat 3 (n % c.baudCount.toNat)).toNat = n % c.baudCount.toNat := by
  have hlt := Nat.mod_lt n hpos
  rw [BitVec.toNat_ofNat]
  exact Nat.mod_eq_of_lt (by omega)

theorem nextCandidate_eq {idx nxt : BitVec 3} (h : nxt.toNat = (idx.toNat + 1) % c.baudCount.toNat) :
    nextCandidate idx c = nxt :=
  BitVec.eq_of_toNat_eq ((toNat_ofNat_mod_baudCount hpos hle _).trans h.symm)

theorem nextCandidate_candidate (k : Nat) : nextCandidate (c.candidate k) c = c.candidate (k + 1) := by
  refine nextCandidate_eq hpos hle ?_
  rw [Regs.candidate, Regs.candidate, toNat_ofNat_mod_baudCount hpos hle, toNat_ofNat_mod_baudCount hpos hle,
    Nat.mod_add_mod, Nat.add_assoc]

end

theorem candidate_zero {c : Regs} (h : c.baudIndex.toNat < c.baudCount.toNat) : c.candidate 0 = c.baudIndex := by
  rw [Regs.candidate, Nat.add_zero, Nat.mod_eq_of_lt h, BitVec.ofNat_toNat, BitVec.setWidth_eq]

theorem all_preamble_replicate (n : Nat) : (List.replicate n (0xAA : Byte)).all (· == Config.preamble) = true := by
  simp [Config.preamble]

theorem all_preamble_eq_false {bs : List Byte} (h : ∃ b ∈ bs, b ≠ 0xAA) : bs.all (· == Config.preamble) = false := by
  obtain ⟨b, hb, hne⟩ := h
  exact List.all_eq_false.mpr ⟨b, hb, by simpa [Config.preamble] using hne⟩

theorem length_pos_of_mismatch {bs : List Byte} (h : ∃ b ∈ bs, b ≠ 0xAA) : 0 < bs.length := by
  obtain ⟨b, hb, -⟩ := h
  exact List.length_pos_of_mem hb

/-! ## BEGIN_AUTO -/

/-- Settles O26: `n` turns pass, four of them before the attempt waits, and the bytes of the last one end the wait. -/
theorem beginAutoAdoptsFirstCandidate : Obligations.BeginAutoAdoptsFirstCandidate := by
  intro s n extra hn hscript hfatal hpresent hcount hsync hroom
  obtain ⟨m, rfl⟩ : ∃ m, n = m + 4 := ⟨n - 4, by omega⟩
  have hstill : ∀ k ≤ 4, Still k s.env.script := fun k hk => hscript ▸ still_replicate (by omega) _
  have hlast : ((s.setSeq (.busy .beginAuto)).scanStart.attempting 0).env.script =
      List.replicate m [] ++ [arrivals (List.replicate s.params.syncN 0xAA ++ extra)] :=
    congrArg (fun l => l.tail.tail.tail.tail) hscript
  have hread := attemptRead_arrivals (idx := 0) hlast rfl rfl List.length_replicate hsync
    (by rwa [List.length_append, List.length_replicate])
  rw [all_preamble_replicate] at hread
  have hscan := scanFrom_adopts (s := (s.setSeq (.busy .beginAuto)).scanStart) (attemptsSpent_first rfl)
    (hstill 4 (Nat.le_refl 4)).tail hread
  have hproc := (beginAutoProc_run (s := s.setSeq (.busy .beginAuto)) (hstill 1 (by decide)) hfatal hpresent hcount).trans
    (answerScan_ok .beginAuto hscan rfl)
  refine (runCommand_quiet hproc rfl).trans (congrArg Host.Outcome.next ?_)
  refine State.eq_of_parts rfl rfl ?_ rfl
  simp [State.scanStart, State.adopting, State.broughtUp, beginAnswer, Code.toByte, Reply.plain, baudAt]

/-- Settles O27: the first attempt finds no byte to wait for. -/
theorem beginAutoHoldsForSync : Obligations.BeginAutoHoldsForSync := by
  intro s hq hfatal hpresent hcount hsync
  have hscan := scanFrom_holds (s := (s.setSeq (.busy .beginAuto)).scanStart) (idx := 0) (attemptsSpent_first rfl)
    (congrArg List.tail hq) hsync
  have hproc := (beginAutoProc_run (s := s.setSeq (.busy .beginAuto)) (still_of_quiet hq) hfatal hpresent hcount).trans
    (Proc.bind_error hscan)
  refine (runCommand_halted hproc).trans (congrArg Host.Outcome.next ?_)
  refine State.eq_of_parts rfl ?_ ?_ rfl
  · simp [State.scanStart, hq, baudAt]
  · simp [State.scanStart, baudAt]

/-! ## A step from HOLD_AD -/

section
variable {s t : State} {i : Instr} {idx nxt : BitVec 3} {bs rest : List Byte}

/-- The attempt reads the sync pattern: the begin completes (R202, R222, R225). -/
theorem resume_adopts (hread : (attemptRead idx).run (s.setSeq (.busy i)) = .ok true t) (hq : t.env.script = []) :
    resume i (.autodetect idx) s = .next ((t.adopting idx).broughtUp.respond (.plain (beginAnswer i .ok))) :=
  runCommand_quiet (answerScan_ok i (autodetectResume_adopts hread) hq) hq

/-- The attempt reads something else, and the next one finds a silent line (R203, R205). -/
theorem resume_tries_next (hread : (attemptRead idx).run (s.setSeq (.busy i)) = .ok false t) (hq : t.env.script = [])
    (hseq : t.core.seq = .busy i) (hmore : attemptsSpent t.core = false) (hsync : 0 < t.params.syncN)
    (hnxt : nextCandidate idx t.core = nxt) :
    resume i (.autodetect idx) s = .next ((t.attempting nxt).setSeq (.held i (.autodetect nxt))) := by
  subst hnxt
  have hscan := (autodetectResume_mismatch hread).trans (scanFrom_holds hmore hq hsync)
  rw [hseq] at hscan
  exact runCommand_halted (Proc.bind_error hscan)

/-- The attempt reads something else, and was the last (R204, R225). -/
theorem resume_gives_up (hread : (attemptRead idx).run (s.setSeq (.busy i)) = .ok false t) (hq : t.env.script = [])
    (hspent : attemptsSpent t.core = true) :
    resume i (.autodetect idx) s = .next (t.closeChannel.respond (.plain (beginAnswer i .autodetectExhausted))) :=
  runCommand_quiet (answerScan_exhausted i ((autodetectResume_mismatch hread).trans (scanFrom_spent hspent hq))) hq

end

/-- Where the environment sends the bytes of one attempt, again and again, a step reads them and makes the next attempt. -/
theorem step_tries_next (hseq : s.core.seq = .held i (.autodetect idx)) (ho : s.env.openAt.isSome = true)
    (hf : s.env.fifo = []) (hq : s.env.script = []) (hsupply : s.env.supply = .again [arrivals bs])
    (hlen : bs.length = s.params.syncN) (hroom : bs.length ≤ s.params.fifoDepth.toNat) (hbad : ∃ b ∈ bs, b ≠ 0xAA)
    (hmore : attemptsSpent s.core = false) (hnxt : nextCandidate idx s.core = nxt) :
    step s = .next { s with
      core := { s.core with
        seq := .held i (.autodetect nxt), chOpen := true, baudIndex := nxt, adAttempts := s.core.adAttempts + 1 },
      env := { s.env with openAt := some (baudAt s.core nxt) },
      trace := s.trace ++ (bs.map .read ++ [.closed, .opened (baudAt s.core nxt)]) } := by
  have hsync : 0 < s.params.syncN := hlen ▸ length_pos_of_mismatch hbad
  have hrefill : s.refill = { s with env := { s.env with script := [arrivals (bs ++ [])] } } := by
    simp [State.refill_used hq, hsupply, Supply.draw]
  have hread := attemptRead_arrivals (idx := idx) (n := 0) (bs := bs) (rest := [])
    (s := State.setSeq (.busy i) { s with env := { s.env with script := [arrivals (bs ++ [])] } }) rfl hf ho hlen hsync
    (by simpa using hroom)
  rw [all_preamble_eq_false hbad] at hread
  rw [step_held hseq, hrefill, resume_tries_next hread rfl rfl hmore hsync hnxt]
  refine congrArg Host.Outcome.next (State.eq_of_parts rfl ?_ ?_ rfl)
  · simp [hf, hq, baudAt]
  · simp [baudAt]

/-- Settles O30: the attempt reads all its bytes, and the bound stops the next one (`resume_gives_up`). -/
theorem autodetectGivesUp : Obligations.AutodetectGivesUp := by
  intro s i idx bs rest hseq hquiet ho hf hlen hbad hmax hlast
  have hread := attemptRead_buffered (s := s.setSeq (.busy i)) (idx := idx) hquiet.1 ho hf hlen
  rw [all_preamble_eq_false hbad] at hread
  rw [step_held hseq, State.refill_quiet hquiet, resume_gives_up hread hquiet.1 (attemptsSpent_eq_true hmax hlast)]
  refine congrArg Host.Outcome.next (State.eq_of_parts rfl rfl ?_ rfl)
  simp [Reply.plain, beginAnswer_exhausted_toByte]

/-! ## Around the candidates (R205, R208) -/

/-- Steps that lead from each state of a sequence to the next are a run through it. -/
theorem run_of_steps {f : Nat → State} (h : ∀ k, step (f k) = .next (f (k + 1))) (k : Nat) :
    Host.Core.run Sys2Proof.core k (f 0) = .next (f k) := by
  induction k generalizing f with
  | zero => rfl
  | succ k ih =>
    have hfirst : Host.Core.run Sys2Proof.core (k + 1) (f 0) = Host.Core.run Sys2Proof.core k (f 1) := by
      have hstep : Sys2Proof.core.step (f 0) = .next (f 1) := h 0
      simp only [Host.Core.run, hstep]
    exact hfirst.trans (ih (f := fun j => f (j + 1)) fun j => h (j + 1))

/-- The state after `k` more attempts, each of which read the bytes `bs`: the core holds `k` places on. -/
def State.afterAttempts (i : Instr) (bs : List Byte) (s : State) (k : Nat) : State :=
  { s with
    core := { s.core with
      seq := .held i (.autodetect (s.core.candidate k)), baudIndex := s.core.candidate k,
      adAttempts := s.core.adAttempts + BitVec.ofNat 32 k },
    env := { s.env with openAt := some (baudAt s.core (s.core.candidate k)) },
    trace := s.trace ++ (List.range k).flatMap fun j =>
      bs.map .read ++ [.closed, .opened (baudAt s.core (s.core.candidate (j + 1)))] }

section
variable {i : Instr} {s : State} {bs : List Byte}

theorem afterAttempts_zero (hseq : s.core.seq = .held i (.autodetect s.core.baudIndex))
    (hopen : s.env.openAt = some (baudAt s.core s.core.baudIndex)) (hidx : s.core.baudIndex.toNat < s.core.baudCount.toNat) :
    s.afterAttempts i bs 0 = s := by
  have hzero : s.core.adAttempts + BitVec.ofNat 32 0 = s.core.adAttempts := BitVec.add_zero _
  rw [State.afterAttempts, candidate_zero hidx, ← hseq, ← hopen, hzero]
  exact State.eq_of_parts rfl rfl (List.append_nil _) rfl

/-- One turn of the supply is one attempt. -/
theorem step_afterAttempts (hchOpen : s.core.chOpen = true) (hf : s.env.fifo = []) (hq : s.env.script = [])
    (hsupply : s.env.supply = .again [arrivals bs]) (hlen : bs.length = s.params.syncN)
    (hroom : bs.length ≤ s.params.fifoDepth.toNat) (hbad : ∃ b ∈ bs, b ≠ 0xAA) (hmax : s.core.adMaxAttempts = 0)
    (hpos : 0 < s.core.baudCount.toNat) (hle : s.core.baudCount.toNat ≤ 8) (k : Nat) :
    step (s.afterAttempts i bs k) = .next (s.afterAttempts i bs (k + 1)) := by
  rw [step_tries_next (s := s.afterAttempts i bs k) rfl rfl hf hq hsupply hlen hroom hbad
    (attemptsSpent_eq_false (.inl hmax)) (nextCandidate_candidate hpos hle k)]
  refine congrArg Host.Outcome.next (State.eq_of_parts ?_ rfl ?_ rfl)
  · simp [State.afterAttempts, hchOpen, BitVec.ofNat_add, BitVec.add_assoc]
  · simp [State.afterAttempts, List.range_succ, baudAt]

end

/-- Settles O29: one step makes one attempt (`resume_tries_next`), and the states after `k` attempts follow one another
(`step_afterAttempts`). -/
theorem autodetectTriesNextCandidate : Obligations.AutodetectTriesNextCandidate := by
  refine ⟨fun s i idx nxt bs rest hseq hquiet ho hf hlen hbad hmore hpos hle hnxt => ?_,
    fun s i bs k hseq hchOpen hopen hf hq hsupply hlen hroom hbad hmax hidx hle => ?_⟩
  · have hread := attemptRead_buffered (s := s.setSeq (.busy i)) (idx := idx) hquiet.1 ho hf hlen
    rw [all_preamble_eq_false hbad] at hread
    have hsync : 0 < s.params.syncN := hlen ▸ length_pos_of_mismatch hbad
    rw [step_held hseq, State.refill_quiet hquiet, resume_tries_next hread hquiet.1 rfl (attemptsSpent_eq_false hmore) hsync
      (nextCandidate_eq hpos hle hnxt)]
    refine congrArg Host.Outcome.next (State.eq_of_parts rfl ?_ ?_ rfl)
    · simp [hquiet.1, baudAt]
    · simp [baudAt]
  · have hrun := run_of_steps (step_afterAttempts (i := i) hchOpen hf hq hsupply hlen hroom hbad hmax (by omega) hle) k
    rwa [afterAttempts_zero hseq hopen hidx] at hrun

/-! ## The holds (R310, R311) -/

/-- Settles O49: the wait of each hold fails at once, where the command stands already. -/
theorem holdsNeedTheEnvironment : Obligations.HoldsNeedTheEnvironment := by
  intro s i h k hseq hquiet hwait
  have hq : (s.setSeq (.busy i)).env.script = [] := hquiet.1
  have hrun : (resumeProc i h).run (s.setSeq (.busy i)) = .error .halted (s.setSeq (.held i h)) := by
    rcases hwait with ⟨rfl, havail⟩ | ⟨idx, rfl, havail⟩ | ⟨rfl, hpending⟩
    · have hraw : nextRaw.run (s.setSeq (.busy i)) = .error .halted (s.setSeq (.held i .nextByte)) :=
        Proc.bind_error (waitUntil_holds hq (by simp [havail]))
      exact Proc.bind_error (Proc.bind_error (nextByteIn_of_error hraw 1))
    · exact Proc.bind_error (Proc.bind_error (attemptRead_holds hq havail))
    · exact Proc.bind_error (waitUntil_holds hq (by simp [hpending]))
  have hstep : step s = .next s := by
    rw [step_held hseq, State.refill_quiet hquiet, resume, runCommand_halted hrun, State.setSeq_self hseq]
  exact run_of_steps (f := fun _ => s) (fun _ => hstep) k

end Sys2Proof.Machine
end

section
/-! PROOF of O28: what ends an autodetect (spec/43_baud_autodetect.md R202, R208). With no attempt bound, the loop goes on, holds,
or has just read `SYNC_N` bytes of 0xAA, whatever an undisturbed environment does; no later action of the begin adds an event
but the response. That the command holds in the autodetect and nowhere else is `underway_scanning`. -/

namespace Sys2Proof.Machine

/-! ## The trace of an attempt -/

/-- Wherever the step ends: these lemmas are about runs that end with a result. -/
abbrev AnyStop : State → Prop := fun _ => True

theorem Proc.Meets.anyStop {α : Type} {p : Proc α} {Q : α → State → Prop} {H : State → Prop} {s : State}
    (hp : p.Meets Q H s) : p.Meets Q AnyStop s :=
  hp.mono (fun _ _ => id) fun _ _ => trivial

section
variable {s₀ s : State}

theorem tick_trace (s : State) : tick.Meets (fun _ t => t.trace = s.trace) AnyStop s := by
  rcases tick_cases s with ⟨e, he, -⟩ | ⟨e, he, -⟩
  · exact Proc.meets_of_ok he rfl
  · exact Proc.meets_of_halted he trivial

theorem now_trace (s : State) : now.Meets (fun _ t => t.trace = s.trace) AnyStop s :=
  (tick_trace s).bind fun _ _ ht => Proc.meets_theState_bind (Proc.meets_pure ht)

theorem waitUntil_trace (c : State → Bool) (h : Hold) (s : State) :
    (waitUntil c h).Meets (fun _ t => t.trace = s.trace) AnyStop s := by
  rcases waitUntil_cases c h s with ⟨e, he, -⟩ | ⟨e, he, -⟩ | ⟨e, he, -⟩
  · exact Proc.meets_of_ok he rfl
  · exact Proc.meets_of_halted he trivial
  · exact Proc.meets_of_halted he trivial

theorem chRead_trace (s : State) : chRead.Meets (fun b t => t.trace = s.trace ++ [.read b]) AnyStop s := by
  refine (tick_trace s).bind fun _ t ht => ?_
  cases hf : t.env.fifo with
  | nil => exact Proc.meets_of_fault (f := .readEmpty) (t := t) (by simp [popByte, hf])
  | cons b rest => exact Proc.meets_of_ok (popByte_run hf) (by simp [ht])

/-- Raw reads: each byte is an event, and nothing else is (R88). -/
theorem readMany_trace (n : Nat) (s : State) :
    (readMany n).Meets (fun bs t => bs.length = n ∧ t.trace = s.trace ++ bs.map .read) AnyStop s := by
  induction n generalizing s with
  | zero => exact Proc.meets_pure ⟨rfl, (List.append_nil _).symm⟩
  | succ n ih =>
    refine (chRead_trace s).bind fun b t ht => (ih t).bind fun bs u ⟨hlen, hu⟩ => Proc.meets_pure ⟨?_, ?_⟩
    · rw [List.length_cons, hlen]
    · rw [hu, ht, List.map_cons, List.append_assoc, List.singleton_append]

/-- The sync pattern is `SYNC_N` bytes of 0xAA (R202). -/
theorem eq_sync_of_all {bs : List Byte} (h : bs.all (· == Config.preamble) = true) :
    bs = List.replicate bs.length 0xAA :=
  List.eq_replicate_of_mem fun b hb => by simpa [Config.preamble] using List.all_eq_true.mp h b hb

/-- Since `s₀` the trace has grown, last by the sync pattern. -/
def Synced (s₀ s : State) : Prop :=
  ∃ l, s.trace = s₀.trace ++ l ++ (List.replicate s₀.params.syncN 0xAA).map .read

theorem Synced.of_trace_eq {t : State} (h : Synced s₀ s) (ht : t.trace = s.trace) : Synced s₀ t := by
  unfold Synced
  rwa [ht]

/-- An attempt that succeeds has just read the sync pattern. -/
theorem attemptRead_synced (idx : BitVec 3) (h : Extends s₀ s) :
    (attemptRead idx).Meets (fun ok t => ok = true → Synced s₀ t) AnyStop s := by
  obtain ⟨⟨l, hl⟩, hparams⟩ := h
  refine Proc.meets_params_bind <| (waitUntil_trace _ _ s).bind fun _ t ht =>
    (readMany_trace _ t).bind fun bs u ⟨hlen, hu⟩ => Proc.meets_pure fun hall => ⟨l, ?_⟩
  rw [hu, ht, hl, ← hparams, ← hlen, ← eq_sync_of_all hall]

theorem attempt_synced (idx : BitVec 3) (h : Extends s₀ s) :
    (attempt idx).Meets (fun ok t => ok = true → Synced s₀ t) AnyStop s :=
  Proc.meets_update_bind <| (extends_scanning.chClose (extends_scanning.index idx h)).anyStop.bind fun _ _ h1 =>
    Proc.meets_regs_bind <| (extends_scanning.openAt _ h1).anyStop.bind fun _ _ h2 =>
      (extends_steady.chDiscard h2).anyStop.bind fun _ _ h3 => attemptRead_synced idx h3

/-- The end of the begin procedure adds no event. -/
theorem beginFinish_trace (s : State) : beginFinish.Meets (fun _ t => t.trace = s.trace) AnyStop s :=
  Proc.meets_update_bind <| Proc.meets_update_bind <| (now_trace ((s.mapCore _).mapCore _)).bind fun _ _ ht =>
    Proc.meets_update_bind (Proc.meets_pure ht)

end

/-! ## The loop without a bound (R204, R208) -/

/-- The places of the autodetect: HOLD_AD, and between two attempts. -/
def Hold.scans (h : Hold) : Prop := ∃ idx, h = .autodetect idx ∨ h = .attempt idx

section
variable {s₀ s : State}

/-- The loop on its way: the command is under way, and the trace has only grown. -/
def Seeking (s₀ s : State) : Prop := Underway s₀ s ∧ Extends s₀ s

/-- The autodetect has ended at a rate, right after the sync pattern. -/
def Found (s₀ s : State) : Prop := Underway s₀ s ∧ Synced s₀ s

theorem Underway.adMaxAttempts (hs : Underway s₀ s) : s.core.adMaxAttempts = s₀.core.adMaxAttempts := by
  have hset := hs.settings
  simp only [Regs.settings, Prod.mk.injEq] at hset
  obtain ⟨-, -, -, -, -, hmax, -⟩ := hset
  exact hmax

theorem acceptBaud_found (idx : BitVec 3) (h : Found s₀ s) :
    (acceptBaud idx).Meets (fun r t => r = .ok ∧ Found s₀ t) (HeldIn Hold.scans s₀) s :=
  Proc.meets_of_ok acceptBaud_run ⟨rfl, h⟩

/-- The three things known of an attempt, together. -/
theorem Proc.Meets.found {p : Proc Bool} (hu : p.Meets (fun _ => Underway s₀) (HeldIn Hold.scans s₀) s)
    (he : p.Meets (fun _ => Extends s₀) (Extends s₀) s) (hsync : p.Meets (fun ok t => ok = true → Synced s₀ t) AnyStop s) :
    p.Meets (fun ok t => Seeking s₀ t ∧ (ok = true → Found s₀ t)) (HeldIn Hold.scans s₀) s :=
  ((hu.and he).and hsync).mono (fun _ _ ⟨⟨hunder, hext⟩, hok⟩ => ⟨⟨hunder, hext⟩, fun hyes => ⟨hunder, hok hyes⟩⟩)
    fun _ ⟨⟨hheld, _⟩, _⟩ => hheld

variable (h₀ : s₀.core.seq ≠ .idle)
include h₀

theorem underway_scanning_scans : Scanning (Underway s₀) (Underway s₀) (Underway s₀) (HeldIn Hold.scans s₀) :=
  underway_scanning h₀ (fun idx => ⟨idx, .inl rfl⟩) fun idx => ⟨idx, .inr rfl⟩

theorem attempt_found (idx : BitVec 3) (h : Seeking s₀ s) :
    (attempt idx).Meets (fun ok t => Seeking s₀ t ∧ (ok = true → Found s₀ t)) (HeldIn Hold.scans s₀) s :=
  let ⟨hs, he⟩ := h
  ((underway_scanning_scans h₀).attempt idx hs).found (extends_scanning.attempt idx he) (attempt_synced idx he)

theorem attemptRead_found (idx : BitVec 3) (h : Seeking s₀ s) :
    (attemptRead idx).Meets (fun ok t => Seeking s₀ t ∧ (ok = true → Found s₀ t)) (HeldIn Hold.scans s₀) s :=
  let ⟨hs, he⟩ := h
  ((underway_scanning_scans h₀).attemptRead idx hs).found (extends_scanning.attemptRead idx he) (attemptRead_synced idx he)

/-- Without a bound the loop ends at a rate only (R204, R208). -/
theorem scan_found (hmax : s₀.core.adMaxAttempts = 0) (n : Nat) (idx : BitVec 3) (h : Seeking s₀ s) :
    (scan n idx).Meets (fun r t => r = .ok ∧ Found s₀ t) (HeldIn Hold.scans s₀) s := by
  induction n generalizing s idx with
  | zero =>
    obtain ⟨hs, -⟩ := h
    exact Proc.meets_haltAt ((underway_scanning_scans h₀).holdAttempt idx hs)
  | succ n ih =>
    have hmore : attemptsSpent s.core = false := by
      obtain ⟨hs, -⟩ := h
      exact attemptsSpent_eq_false (.inl (hs.adMaxAttempts.trans hmax))
    have hcounted : Seeking s₀ (s.mapCore fun c => { c with adAttempts := c.adAttempts + 1 }) := h
    refine Proc.meets_regs_bind <| Proc.meets_ite (fun hspent => absurd (hmore.symm.trans hspent) nofun) fun _ =>
      Proc.meets_update_bind <| (attempt_found h₀ idx hcounted).bind fun ok t ⟨ht, hok⟩ => ?_
    exact Proc.meets_ite (fun hyes => acceptBaud_found idx (hok hyes)) fun _ => Proc.meets_regs_bind (ih _ ht)

theorem scanFrom_found (hmax : s₀.core.adMaxAttempts = 0) (idx : BitVec 3) (h : Seeking s₀ s) :
    (scanFrom idx).Meets (fun r t => r = .ok ∧ Found s₀ t) (HeldIn Hold.scans s₀) s :=
  Proc.meets_theState_bind (scan_found h₀ hmax _ idx h)

theorem autodetectResume_found (hmax : s₀.core.adMaxAttempts = 0) (idx : BitVec 3) (h : Seeking s₀ s) :
    (autodetectResume idx).Meets (fun r t => r = .ok ∧ Found s₀ t) (HeldIn Hold.scans s₀) s :=
  (attemptRead_found h₀ idx h).bind fun _ _ ⟨ht, hok⟩ =>
    Proc.meets_ite (fun hyes => acceptBaud_found idx (hok hyes)) fun _ =>
      Proc.meets_regs_bind (scanFrom_found h₀ hmax _ ht)

theorem beginFinish_found (h : Found s₀ s) :
    beginFinish.Meets (fun r t => r = .ok ∧ Found s₀ t) (HeldIn Hold.scans s₀) s := by
  obtain ⟨hs, hsync⟩ := h
  exact (((underway_opening h₀).beginFinish hs).and (beginFinish_trace s)).mono
    (fun _ _ ⟨⟨hu, hr⟩, htrace⟩ => ⟨hr, hu, hsync.of_trace_eq htrace⟩) fun _ ⟨hheld, _⟩ => hheld

/-- The answer of command `i`, where the autodetect `p` of its begin ends at a rate only. -/
theorem answerScan_found {p : Proc Code} (i : Instr)
    (hp : p.Meets (fun r t => r = .ok ∧ Found s₀ t) (HeldIn Hold.scans s₀) s) :
    (answerScan i p).Meets (fun r t => r = .plain (beginAnswer i .ok) ∧ Found s₀ t) (HeldIn Hold.scans s₀) s := by
  refine hp.bind fun r t ⟨hr, ht⟩ => ?_
  subst hr
  refine (beginFinish_found h₀ ht).bind fun r' u ⟨hr', hu⟩ => Proc.meets_pure ?_
  subst hr'
  exact ⟨rfl, hu⟩

theorem tick_found (h : Found s₀ s) : tick.Meets (fun _ => Found s₀) (HeldIn Hold.scans s₀) s := by
  obtain ⟨hs, hsync⟩ := h
  exact (((underway_steady h₀).tick hs).and (tick_trace s)).mono
    (fun _ _ ⟨hu, htrace⟩ => ⟨hu, hsync.of_trace_eq htrace⟩) fun _ ⟨hheld, _⟩ => hheld

theorem resumeProc_found (hmax : s₀.core.adMaxAttempts = 0) (i : Instr) {h : Hold} (hscans : h.scans) (hs : Seeking s₀ s) :
    (resumeProc i h).Meets (fun r t => r = .plain (beginAnswer i .ok) ∧ Found s₀ t) (HeldIn Hold.scans s₀) s := by
  obtain ⟨idx, rfl | rfl⟩ := hscans
  · rw [resumeProc_autodetect]
    exact answerScan_found h₀ i (autodetectResume_found h₀ hmax idx hs)
  · rw [resumeProc_attempt]
    exact answerScan_found h₀ i (scanFrom_found h₀ hmax idx hs)

end

/-- Without a bound, a step from the autodetect stays in it, or ends the begin right after the sync pattern. -/
theorem resume_unbounded {s t : State} {i : Instr} {h : Hold} (hscans : h.scans) (hmax : s.core.adMaxAttempts = 0)
    (hu : s.undisturbed = true) (ht : resume i h s = .next t) :
    (∃ idx, t.core.seq = .held i (.autodetect idx) ∨ t.core.seq = .held i (.attempt idx)) ∨
      ∃ l, t.trace = s.trace ++ l ++ (List.replicate s.params.syncN 0xAA).map .read ++
        [.resp (if i = .poll then 0x05 else 0x00) 0] := by
  have h₀ : (s.setSeq (.busy i)).core.seq ≠ .idle := nofun
  have hstart : Seeking (s.setSeq (.busy i)) (s.setSeq (.busy i)) :=
    ⟨⟨Attends.start hu, ⟨rfl, id⟩, rfl, rfl⟩, Extends.refl _⟩
  have htick : ∀ r u, r = Reply.plain (beginAnswer i .ok) ∧ Found (s.setSeq (.busy i)) u →
      tick.Meets (fun _ v => r = Reply.plain (beginAnswer i .ok) ∧ Found (s.setSeq (.busy i)) v)
        (HeldIn Hold.scans (s.setSeq (.busy i))) u :=
    fun r u ⟨hr, hu⟩ => (tick_found h₀ hu).imp fun _ _ hv => ⟨hr, hv⟩
  rcases runAs_meets (resumeProc_found h₀ hmax i hscans hstart) htick ht with ⟨r, u, ⟨rfl, -, l, hl⟩, rfl⟩ | hheld
  · refine .inr ⟨l, ?_⟩
    rw [State.respond_trace, hl, ← beginAnswer_ok_toByte]
    rfl
  · obtain ⟨h', u, ⟨idx, hh⟩, ⟨-, ⟨hseq, -⟩, -⟩, rfl⟩ := hheld
    have hwaiting : (u.setSeq (u.core.seq.waiting h')).core.seq = .held i h' := by simp [hseq, Seq.waiting]
    rcases hh with rfl | rfl
    · exact .inl ⟨idx, .inl hwaiting⟩
    · exact .inl ⟨idx, .inr hwaiting⟩

/-- Settles O28: the attempt that reads the pattern (`resume_adopts`), and everything a step without a bound can do. -/
theorem autodetectAccepts : Obligations.AutodetectAccepts := by
  refine ⟨fun s i idx rest hseq hquiet ho hchOpen hf => ?_, fun s t i idx hseq hmax hu ht => ?_⟩
  · have hread := attemptRead_buffered (s := s.setSeq (.busy i)) (idx := idx) hquiet.1 ho hf List.length_replicate
    rw [all_preamble_replicate] at hread
    rw [step_held hseq, State.refill_quiet hquiet, resume_adopts hread hquiet.1]
    refine congrArg Host.Outcome.next (State.eq_of_parts ?_ rfl ?_ rfl)
    · simp [State.adopting, State.broughtUp, Regs.begun, hchOpen, baudAt]
    · simp [State.adopting, State.broughtUp, Reply.plain, beginAnswer_ok_toByte]
  · have hmax' : s.refill.core.adMaxAttempts = 0 := (congrArg Regs.adMaxAttempts (State.refill_core s)).trans hmax
    obtain ⟨h, hscans, hheld⟩ : ∃ h : Hold, h.scans ∧ s.core.seq = .held i h := by
      rcases hseq with h | h
      · exact ⟨_, ⟨idx, .inl rfl⟩, h⟩
      · exact ⟨_, ⟨idx, .inr rfl⟩, h⟩
    rw [step_held hheld] at ht
    simpa only [State.refill_trace, State.refill_params] using resume_unbounded hscans hmax' hu ht

end Sys2Proof.Machine
end

section
/-! PROOF of O5, O6, O23, O25, O31 to O34, O37 and O38: the dispatch of a command and the Bus Session
(spec/44_session_commands.md R220 to R228, R232, R234). The checks of the begin procedure are one lemma each, for both begin
commands and for the begin nested in POLL's recovery. -/

namespace Sys2Proof.Machine

/-! ## Dispatch (R232, R234) -/

section
variable {s : State} {cmd data : Word}

/-- The state with the presented command taken off the port. -/
def State.portTaken (s : State) : State := s.mapEnv fun e => { e with port := none }

theorem accept_decoded {i : Instr} (h : decodeCommand cmd data = .ok i) : accept cmd data s = exec i s.portTaken := by
  rw [accept, h]
  rfl

theorem accept_illegal {r : Reject} (h : decodeCommand cmd data = .error r) :
    accept cmd data s = execIllegal s.portTaken := by
  rw [accept, h]
  rfl

/-- The refill draws on the environment's turns alone. -/
theorem State.refill_portTaken (s : State) : s.refill.portTaken = { s with env := { s.refill.env with port := none } } :=
  State.eq_of_parts (State.refill_core s) rfl (State.refill_trace s) (State.refill_params s)

end

/-- Settles O5. -/
theorem stepRunsPresentedCommand : Obligations.StepRunsPresentedCommand := by
  intro s cmd data i hseq hport hdecode
  rw [step_present hseq hport, accept_decoded hdecode, State.refill_portTaken]

/-- An idle core that runs an illegal command only responds (R232). -/
theorem execIllegal_quiet {s : State} (hseq : s.core.seq = .idle) (hq : s.env.script = []) :
    execIllegal s = .next (s.emit (.resp 0x0B 0)) := by
  have hrun : execIllegal s = .next ((s.setSeq .busyIllegal).respond (.plain .illegalCommand)) :=
    runAs_quiet (p := illegalProc) rfl hq
  refine hrun.trans (congrArg Host.Outcome.next ?_)
  exact State.eq_of_parts (congrArg State.core (State.setSeq_self hseq) :) rfl rfl rfl

/-- Settles O6; of the corner words, two have a reserved bit set and two an opcode of no command. -/
theorem illegalCommandResponds : Obligations.IllegalCommandResponds := by
  refine ⟨fun s cmd data r hseq hport hquiet hdecode => ?_, fun data cmd hcmd => ?_⟩
  · rw [step_present hseq hport, State.refill_quiet hquiet, accept_illegal hdecode,
      execIllegal_quiet (s := s.portTaken) hseq hquiet.1]
    rfl
  · obtain rfl | rfl | rfl | rfl : cmd = 0x00000000 ∨ cmd = 0x00000103 ∨ cmd = 0x00000207 ∨ cmd = 0x000000FF := by
      simpa using hcmd
    · exact ⟨.illegalOpcode 0x00, rfl⟩
    · exact ⟨.mustBeZero 0x03, rfl⟩
    · exact ⟨.mustBeZero 0x07, rfl⟩
    · exact ⟨.illegalOpcode 0xFF, rfl⟩

/-! ## The checks of the begin procedure (R222) -/

section
variable {s t : State} {baud : Option Word}

/-- First check: the fatal latch (R284). -/
theorem begin_latched (hfatal : s.core.fatal = true) : (begin baud).run s = .ok .channelUnavailable s := by
  rw [begin, Proc.bind_ok (regs_run s), if_pos hfatal]
  rfl

/-- The session is down for good (R273). -/
def State.latched (s : State) : State := s.mapCore fun c => { c with fatal := true, ready := false }

/-- Second check: the channel. -/
theorem begin_absent (hq : s.env.script = []) (hfatal : s.core.fatal = false) (habsent : s.env.present = false) :
    (begin baud).run s = .ok .channelUnavailable s.latched := by
  have hthere : chPresent.run s = .ok false s := habsent ▸ chPresent_quiet hq
  rw [begin, Proc.bind_ok (regs_run s), if_neg (by simp [hfatal]), Proc.bind_ok hthere, if_pos (by decide),
    Proc.bind_ok (update_run _ s)]
  rfl

/-- Third check: the candidate list, for the autodetect alone. -/
theorem begin_unlisted (hq : s.env.script = []) (hfatal : s.core.fatal = false) (hpresent : s.env.present = true)
    (hcount : s.core.baudCount = 0) : (begin none).run s = .ok .configError s := by
  have hthere : chPresent.run s = .ok true s := hpresent ▸ chPresent_quiet hq
  rw [begin, Proc.bind_ok (regs_run s), if_neg (by simp [hfatal]), Proc.bind_ok hthere, if_neg (by decide)]
  simp only [if_pos hcount]
  rfl

/-- A begin command answers what its begin procedure does. -/
theorem exec_begin_answers {i : Instr} {r : Code} (hi : i = .beginAuto ∨ ∃ b, i = .beginBaud b)
    (h : ∀ baud, (begin baud).run (s.setSeq (.busy i)) = .ok r t) (hq : t.env.script = []) :
    exec i s = .next (t.respond (.plain r)) := by
  rcases hi with rfl | ⟨b, rfl⟩
  · exact runCommand_quiet (p := beginAutoProc) (Proc.bind_ok (h none)) hq
  · exact runCommand_quiet (p := beginBaudProc b) (Proc.bind_ok (h (some b))) hq

end

/-- Settles O25, check by check. -/
theorem beginChecks : Obligations.BeginChecks := by
  refine fun s hq => ⟨fun hfatal i hi => ?latch, fun hfatal habsent i hi => ?channel, fun hfatal hpresent hcount => ?list⟩
  case latch => exact exec_begin_answers hi (fun _ => begin_latched (s := s.setSeq _) hfatal) hq
  case channel => exact exec_begin_answers hi (fun _ => begin_absent (s := s.setSeq _) hq hfatal habsent) hq
  case list =>
    exact runCommand_quiet (p := beginAutoProc) (Proc.bind_ok (begin_unlisted (s := s.setSeq _) hq hfatal hpresent hcount)) hq

/-- Settles O23: with no turn to take, the channel just opened has nothing to discard. -/
theorem beginBaudOpens : Obligations.BeginBaudOpens := by
  intro s b hq hfatal hpresent
  have hend : ((s.setSeq (.busy (.beginBaud b))).rebased b).env.script = [] := by simp [hq]
  have hproc : (beginBaudProc b).run (s.setSeq (.busy (.beginBaud b))) = .ok (.plain .ok) _ :=
    Proc.bind_ok (begin_some_run (still_of_quiet hq) hfatal hpresent (chDiscard_empty (tick_quiet hend) rfl) hend)
  refine (runCommand_quiet hproc hend).trans (congrArg Host.Outcome.next (State.eq_of_parts rfl ?_ ?_ rfl))
  · simp [State.broughtUp, hq]
  · simp [State.broughtUp, Code.toByte, Reply.plain]

/-! ## POLL before it assembles (R224) -/

theorem Still.mono {m n : Nat} {script : List (List EnvMove)} (h : Still n script) (hle : m ≤ n) : Still m script :=
  fun turn hturn => h turn (List.take_subset_take_left script hle hturn)

section
variable {s : State}

/-- The elapsed time is that of the 32-bit clock (R224, R318). -/
theorem quietExceeded_iff {t : Word} {c : Regs} :
    quietExceeded t c = true ↔ c.quietTimeout.toNat < (t.toNat + 2 ^ 32 - c.lastAct.toNat) % 2 ^ 32 := by
  rw [quietExceeded, decide_eq_true_iff]
  bv_omega

theorem pollProc_down (hready : s.core.ready = false) : pollProc.run s = .ok (.plain .busDown) s := by
  rw [pollProc, Proc.bind_ok (regs_run s), if_pos (by simp [hready])]
  rfl

/-- With fewer than six bytes buffered the clock decides. -/
theorem pollProc_timed (h : Still 2 s.env.script) (hready : s.core.ready = true) (havail : s.env.avail < 6) :
    pollProc.run s = (if quietExceeded s.env.now s.core then recover >>= fun r => pure (Reply.plain r)
      else pure (.plain .noActivity) : Proc Reply).run s.nextTurn.nextTurn := by
  have hnow : now.run s = .ok s.env.now s.nextTurn := Proc.bind_ok (tick_passes h)
  have hfew : ¬ Config.minFrame ≤ s.nextTurn.nextTurn.env.avail := Nat.not_le_of_lt havail
  rw [pollProc, Proc.bind_ok (regs_run s), if_neg (by simp [hready]), Proc.bind_ok hnow,
    Proc.bind_ok (chAvail_run (tick_passes h.tail)), if_neg hfew, Proc.bind_ok (regs_run _)]
  rfl

/-- While the environment takes no turn, none is gone. -/
theorem State.nextTurn_quiet (hq : s.env.script = []) : s.nextTurn = s := by
  have hsame := (tick_passes (n := 0) (still_of_quiet hq)).symm.trans (tick_quiet hq)
  injection hsame

/-- Within the quiet period POLL only looks (R224, R317). -/
theorem pollProc_within (hq : s.env.script = []) (hready : s.core.ready = true) (havail : s.env.avail < 6)
    (hearly : quietExceeded s.env.now s.core = false) : pollProc.run s = .ok (.plain .noActivity) s := by
  rw [pollProc_timed (still_of_quiet hq) hready havail, if_neg (by simp [hearly]), State.nextTurn_quiet hq,
    State.nextTurn_quiet hq]
  rfl

/-- Past it POLL runs the recovery. -/
theorem pollProc_recovers (h : Still 2 s.env.script) (hready : s.core.ready = true) (havail : s.env.avail < 6)
    (hlate : quietExceeded s.env.now s.core = true) :
    pollProc.run s = (recover >>= fun r => pure (Reply.plain r)).run s.nextTurn.nextTurn := by
  rw [pollProc_timed h hready havail, if_pos hlate]

theorem pollProc_recovers_quiet {t : State} {r : Code} (hq : s.env.script = []) (hready : s.core.ready = true)
    (havail : s.env.avail < 6) (hlate : quietExceeded s.env.now s.core = true) (h : recover.run s = .ok r t) :
    pollProc.run s = .ok (.plain r) t := by
  rw [pollProc_recovers (still_of_quiet hq) hready havail hlate, State.nextTurn_quiet hq, State.nextTurn_quiet hq,
    Proc.bind_ok h]
  rfl

end

/-- Settles O31. -/
theorem pollWhenDown : Obligations.PollWhenDown := fun s hq hready =>
  runCommand_quiet (pollProc_down (s := s.setSeq (.busy .poll)) hready) hq

/-- Settles O32. -/
theorem pollWithinQuietPeriod : Obligations.PollWithinQuietPeriod := by
  intro s hq hready havail helapsed
  have hearly : quietExceeded s.env.now s.core = false := by
    rw [Bool.eq_false_iff, ne_eq, quietExceeded_iff]
    exact Nat.not_lt_of_le helapsed
  exact runCommand_quiet (pollProc_within (s := s.setSeq (.busy .poll)) hq hready havail hearly) hq

/-! ## Silent-bus recovery (R225, R226) -/

section
variable {s : State}

/-- The state after the recovery took the session down. -/
def State.takenDown (s : State) : State := s.nextTurn.closeChannel.mapCore fun c => { c with ready := false }

@[simp] theorem State.takenDown_core (s : State) : s.takenDown.core = { s.core with ready := false, chOpen := false } := rfl
@[simp] theorem State.takenDown_env (s : State) :
    s.takenDown.env = { s.env with openAt := none, fifo := [], script := s.env.script.tail } := rfl
@[simp] theorem State.takenDown_trace (s : State) : s.takenDown.trace = s.trace ++ [.closed] := rfl
@[simp] theorem State.takenDown_params (s : State) : s.takenDown.params = s.params := rfl

theorem recover_disabled (h : Still 1 s.env.script) (hdisabled : s.core.autoRestartDisabled = true) :
    recover.run s = .ok .busDown s.takenDown := by
  rw [recover, Proc.bind_ok (chClose_run (tick_passes h)), Proc.bind_ok (update_run _ _), Proc.bind_ok (regs_run _)]
  exact congrArg (fun p : Proc Code => p.run s.takenDown) (if_pos hdisabled)

theorem recover_restarts (h : Still 1 s.env.script) (henabled : s.core.autoRestartDisabled = false) :
    recover.run s = (begin none >>= fun r => pure (recovered r) : Proc Code).run s.takenDown := by
  rw [recover, Proc.bind_ok (chClose_run (tick_passes h)), Proc.bind_ok (update_run _ _), Proc.bind_ok (regs_run _)]
  exact congrArg (fun p : Proc Code => p.run s.takenDown) (if_neg (by simp [henabled]))

end

/-- Settles O33: the recovery takes the session down, and its restart is disabled or fails a check of the begin procedure. -/
theorem pollGoesDown : Obligations.PollGoesDown := by
  intro s hq hready hfatal havail helapsed
  have hlate := quietExceeded_iff.mpr helapsed
  have hdown : (s.setSeq (.busy .poll)).takenDown.env.script = [] := congrArg List.tail hq
  have hstill : Still 1 (s.setSeq (.busy .poll)).env.script := still_of_quiet hq
  refine ⟨fun hstay => ?_, fun henabled habsent => ?_⟩
  · have hrecover : recover.run (s.setSeq (.busy .poll)) = .ok .busDown (s.setSeq (.busy .poll)).takenDown := by
      cases hdisabled : s.core.autoRestartDisabled with
      | true => exact recover_disabled hstill hdisabled
      | false =>
        obtain ⟨hpresent, hcount⟩ := hstay.resolve_left (by simp [hdisabled])
        rw [recover_restarts hstill hdisabled, Proc.bind_ok (begin_unlisted hdown hfatal hpresent hcount)]
        rfl
    have hpoll := pollProc_recovers_quiet (s := s.setSeq (.busy .poll)) hq hready havail hlate hrecover
    refine (runCommand_quiet hpoll hdown).trans (congrArg Host.Outcome.next (State.eq_of_parts rfl ?_ ?_ rfl))
    · simp [hq]
    · simp [Code.toByte, Reply.plain]
  · have hrecover : recover.run (s.setSeq (.busy .poll)) = .ok .busDown (s.setSeq (.busy .poll)).takenDown.latched := by
      rw [recover_restarts hstill henabled, Proc.bind_ok (begin_absent hdown hfatal habsent)]
      rfl
    have hpoll := pollProc_recovers_quiet (s := s.setSeq (.busy .poll)) hq hready havail hlate hrecover
    refine (runCommand_quiet hpoll hdown).trans (congrArg Host.Outcome.next (State.eq_of_parts rfl ?_ ?_ rfl))
    · simp [State.latched, hq]
    · simp [State.latched, Code.toByte, Reply.plain]

/-- A POLL that restarts the session is its autodetect, with POLL's answer of the begin (R225). -/
theorem pollProc_restarts {s : State} (h : Still 4 s.env.script) (hready : s.core.ready = true) (havail : s.env.avail < 6)
    (hlate : quietExceeded s.env.now s.core = true) (henabled : s.core.autoRestartDisabled = false)
    (hfatal : s.core.fatal = false) (hpresent : s.env.present = true) (hcount : s.core.baudCount ≠ 0) :
    pollProc.run s = (answerScan .poll (scanFrom 0)).run s.nextTurn.nextTurn.takenDown.scanStart := by
  have hstill : Still 2 s.nextTurn.nextTurn.env.script := h.tail.tail
  rw [pollProc_recovers (h.mono (by decide)) hready havail hlate,
    EStateM.run_bind, recover_restarts (hstill.mono (by decide)) henabled, ← EStateM.run_bind, bind_assoc, EStateM.run_bind,
    begin_none_run (s := s.nextTurn.nextTurn.takenDown) hstill.tail hfatal hpresent hcount, ← EStateM.run_bind, bind_assoc]
  rfl

/-- Settles O34: `n` turns pass, seven of them before the attempt waits, and the bytes of the last one end the wait. -/
theorem pollRestarts : Obligations.PollRestarts := by
  intro s n hn hscript hready hfatal havail helapsed henabled hpresent hcount hsync hroom
  obtain ⟨m, rfl⟩ : ∃ m, n = m + 7 := ⟨n - 7, by omega⟩
  have hstill : ∀ k ≤ 7, Still k s.env.script := fun k hk => hscript ▸ still_replicate (by omega) _
  have hlast : ((s.setSeq (.busy .poll)).nextTurn.nextTurn.takenDown.scanStart.attempting 0).env.script =
      List.replicate m [] ++ [arrivals (List.replicate s.params.syncN 0xAA ++ [])] := by
    rw [List.append_nil]
    exact congrArg (fun l => l.tail.tail.tail.tail.tail.tail.tail) hscript
  have hread := attemptRead_arrivals (idx := 0) hlast rfl rfl List.length_replicate hsync
    (by rwa [List.append_nil, List.length_replicate])
  rw [all_preamble_replicate] at hread
  have hscan := scanFrom_adopts (s := (s.setSeq (.busy .poll)).nextTurn.nextTurn.takenDown.scanStart)
    (attemptsSpent_first rfl) (hstill 7 (Nat.le_refl 7)).tail.tail.tail.tail hread
  have hproc := (pollProc_restarts (s := s.setSeq (.busy .poll)) (hstill 4 (by decide)) hready havail
    (quietExceeded_iff.mpr helapsed) henabled hfatal hpresent hcount).trans (answerScan_ok .poll hscan rfl)
  refine (runCommand_quiet hproc rfl).trans (congrArg Host.Outcome.next (State.eq_of_parts rfl rfl ?_ rfl))
  simp [State.scanStart, State.adopting, State.broughtUp, beginAnswer, recovered, Code.toByte, Reply.plain, baudAt]

/-! ## RESET and SET_NO_RESTART (R227, R228) -/

section
variable {s : State}

theorem resetProc_quiet (hq : s.env.script = []) : resetProc.run s = .ok (.plain .ok) s.takenDown := by
  rw [resetProc, Proc.bind_ok (chClose_run (tick_passes (n := 0) (still_of_quiet hq))), Proc.bind_ok (update_run _ _)]
  rfl

theorem exec_reset_quiet (hq : s.env.script = []) :
    exec .reset s = .next ((s.setSeq (.busy .reset)).takenDown.respond (.plain .ok)) :=
  runCommand_quiet (resetProc_quiet (s := s.setSeq (.busy .reset)) hq) (congrArg List.tail hq)

end

/-- Settles O37: a second RESET finds the channel closed and the session down, and adds its event and response alone. -/
theorem resetClosesChannel : Obligations.ResetClosesChannel := by
  intro s hq
  refine ⟨?_, fun t u ht hu => ?_⟩
  · rw [exec_reset_quiet hq]
    refine congrArg Host.Outcome.next (State.eq_of_parts rfl ?_ ?_ rfl)
    · simp [hq]
    · simp [Code.toByte, Reply.plain]
  · rw [exec_reset_quiet hq] at ht
    cases ht
    rw [exec_reset_quiet (congrArg List.tail hq)] at hu
    cases hu
    exact ⟨rfl, by simp [hq]⟩

/-- Settles O38. -/
theorem setNoRestartWritesFlag : Obligations.SetNoRestartWritesFlag := by
  intro s flag hq
  have hproc : (setNoRestartProc flag).run (s.setSeq (.busy (.setNoRestart flag))) = .ok (.plain .ok)
      ((s.setSeq (.busy (.setNoRestart flag))).mapCore fun c => { c with autoRestartDisabled := flag }) :=
    Proc.bind_ok (update_run _ _)
  exact runCommand_quiet hproc hq

end Sys2Proof.Machine
end

section
/-! PROOF of O39 and O40: SEND (spec/44_session_commands.md R229). A raw byte is written per turn of the environment
(`State.transmitted`), so one run of the transmit forms covers a used-up script and one whose turns are empty; the hold HOLD_FL
then ends with the turn that reports the flush done. -/

namespace Sys2Proof.Machine

/-! ## Writing raw bytes along a script (R150, R229) -/

/-- The state after the raw bytes `bs` were written, with one turn gone for each. -/
def State.transmitted (bs : List Byte) (s : State) : State :=
  { s with env := { s.env with script := s.env.script.drop bs.length }, trace := s.trace ++ bs.map Event.write }

section
variable (bs cs : List Byte) (s : State)

@[simp] theorem State.transmitted_core : (s.transmitted bs).core = s.core := rfl
@[simp] theorem State.transmitted_env :
    (s.transmitted bs).env = { s.env with script := s.env.script.drop bs.length } := rfl
@[simp] theorem State.transmitted_trace : (s.transmitted bs).trace = s.trace ++ bs.map Event.write := rfl
@[simp] theorem State.transmitted_params : (s.transmitted bs).params = s.params := rfl

theorem State.transmitted_nil : s.transmitted [] = s := State.eq_of_parts rfl rfl (List.append_nil _) rfl

theorem State.transmitted_transmitted : (s.transmitted bs).transmitted cs = s.transmitted (bs ++ cs) := by
  refine State.eq_of_parts rfl ?_ ?_ rfl
  · simp [List.drop_drop]
  · simp

end

theorem Still.drop {m n : Nat} {script : List (List EnvMove)} (h : Still (m + n) script) : Still n (script.drop m) := by
  intro turn hturn
  rw [List.take_drop] at hturn
  exact h turn (List.mem_of_mem_drop hturn)

section
variable {s : State}

theorem chWrite_still (b : Byte) (h : Still 1 s.env.script) : (chWrite b).run s = .ok () (s.transmitted [b]) := by
  rw [chWrite, Proc.bind_ok (tick_passes h)]
  refine congrArg (EStateM.Result.ok ()) (State.eq_of_parts rfl ?_ rfl rfl)
  simp [State.emit]

/-- A byte in its transmit form (R112, R150). -/
theorem codecTx_still (b : Byte) (h : Still (txRaw (classifyTx b)).length s.env.script) :
    (codecTx b).run s = .ok () (s.transmitted (txRaw (classifyTx b))) := by
  cases hb : Config.special b with
  | true =>
    rw [classifyTx_special hb] at h
    rw [codecTx, classifyTx_special hb, txForm, txEscd, Proc.bind_ok (chWrite_still _ (h.mono one_le_two)),
      chWrite_still _ (Still.drop (m := 1) h), State.transmitted_transmitted]
    rfl
  | false =>
    rw [classifyTx_ordinary hb] at h
    rw [codecTx, classifyTx_ordinary hb]
    exact chWrite_still b h

theorem codecTxAll_still (bs : List Byte) (h : Still (bs.flatMap fun b => txRaw (classifyTx b)).length s.env.script) :
    (codecTxAll bs).run s = .ok () (s.transmitted (bs.flatMap fun b => txRaw (classifyTx b))) := by
  induction bs generalizing s with
  | nil => exact congrArg (EStateM.Result.ok ()) s.transmitted_nil.symm
  | cons b bs ih =>
    rw [List.flatMap_cons, List.length_append] at h
    rw [codecTxAll, Proc.bind_ok (codecTx_still b (h.mono (Nat.le_add_right _ _))), ih h.drop,
      State.transmitted_transmitted, List.flatMap_cons]

end

/-! ## The flush (R15, R310) -/

section
variable {s t : State}

theorem chFlush_run (h : tick.run s = .ok () t) : chFlush.run s = waitFlush.run t.requestFlush := by
  rw [chFlush, Proc.bind_ok h, Proc.bind_ok (change_run _ t)]

/-- HOLD_FL goes on through empty turns, and ends with the report. -/
theorem waitFor_flush_reported {n : Nat} (h : s.env.script = List.replicate n [] ++ [[.flushDone]])
    (hpending : s.env.flushPending = true) :
    (waitFor (fun u => !u.env.flushPending) .flush (n + 1)).run s =
      .ok () { s with env := { s.env with flushPending := false, script := [] } } := by
  induction n generalizing s with
  | zero =>
    rw [waitFor_tick 0 (by simp [hpending]) (tick_turn h rfl)]
    exact waitFor_ready 0 rfl
  | succ n ih =>
    have hstill : Still 1 s.env.script := h ▸ still_replicate (Nat.succ_le_succ (Nat.zero_le n)) _
    rw [waitFor_tick (n + 1) (by simp [hpending]) (tick_passes hstill), ih (s := s.nextTurn) (congrArg List.tail h) hpending]
    rfl

theorem waitFlush_reported {n : Nat} (h : s.env.script = List.replicate n [] ++ [[.flushDone]])
    (hpending : s.env.flushPending = true) :
    waitFlush.run s = .ok () { s with env := { s.env with flushPending := false, script := [] } } := by
  have hturns : s.env.script.length = n + 1 := by simp [h]
  rw [waitFlush, waitUntil, Proc.bind_ok (theState_run s), hturns, waitFor_flush_reported h hpending]

end

/-! ## SEND (R229) -/

section
variable {s : State}

theorem sendProc_down (hready : s.core.ready = false) : sendProc.run s = .ok (.plain .busDown) s := by
  rw [sendProc, Proc.bind_ok (regs_run s), Proc.bind_ok (params_run s), if_pos (by simp [hready])]
  rfl

theorem sendProc_badLength (hready : s.core.ready = true) (hbad : badLength s.params s.core.tx.totalLength = true) :
    sendProc.run s = .ok (.plain .lengthError) s := by
  rw [sendProc, Proc.bind_ok (regs_run s), Proc.bind_ok (params_run s), if_neg (by simp [hready]), if_pos hbad]
  rfl

/-- The state in which SEND waits for the flush of its frame. -/
def State.flushing (s : State) : State := (s.transmitted (rawFrame s.core.tx)).nextTurn.requestFlush

/-- A legal frame is written raw, and SEND goes on to the flush. -/
theorem sendProc_transmits (hready : s.core.ready = true) (hmin : 6 ≤ s.core.tx.totalLength.toNat)
    (hcap : s.core.tx.totalLength.toNat - 6 ≤ s.params.payloadCap.val)
    (h : Still ((rawFrame s.core.tx).length + 1) s.env.script) :
    sendProc.run s = (waitFlush >>= fun _ => pure (Reply.plain .ok)).run s.flushing := by
  have hlegal : ¬ badLength s.params s.core.tx.totalLength = true := by
    rw [badLength_iff]
    omega
  have hpre : txPre.run s = .ok () (s.transmitted [Config.preamble]) := chWrite_still _ (h.mono (Nat.le_add_left _ _))
  have hbody : (codecTxAll (txBody s.core.tx)).run (s.transmitted [Config.preamble]) =
      .ok () (s.transmitted (rawFrame s.core.tx)) :=
    (codecTxAll_still _ (Still.drop (m := 1) (h.mono (by rw [rawFrame, List.length_cons]; omega)))).trans
      (congrArg (EStateM.Result.ok ()) (State.transmitted_transmitted _ _ s))
  have hflush : chFlush.run (s.transmitted (rawFrame s.core.tx)) = waitFlush.run s.flushing :=
    chFlush_run (tick_passes (Still.drop h))
  rw [sendProc, Proc.bind_ok (regs_run s), Proc.bind_ok (params_run s), if_neg (by simp [hready]), if_neg hlegal,
    Proc.bind_ok hpre, Proc.bind_ok hbody, EStateM.run_bind, hflush, ← EStateM.run_bind]

/-- A step from HOLD_FL in which the channel reports the flush done. -/
theorem step_flush_reported {i : Instr} (hseq : s.core.seq = .held i .flush) (hscript : s.env.script = [[.flushDone]])
    (hpending : s.env.flushPending = true) :
    step s = .next { s with
      core := { s.core with seq := .idle }, env := { s.env with flushPending := false, script := [] },
      trace := s.trace ++ [.resp 0x00 0] } := by
  have hwait := waitFlush_reported (s := s.setSeq (.busy i)) (n := 0) hscript hpending
  rw [step_held hseq, State.refill_script hscript]
  exact runCommand_quiet (p := resumeProc i .flush) (Proc.bind_ok hwait) rfl

end

/-- Settles O39: without a turn to take, SEND stands at HOLD_FL, and the report alone ends it. -/
theorem sendTransmitsFrame : Obligations.SendTransmitsFrame := by
  refine fun s hq => ⟨fun hready => ?down, fun hready hbad => ?length, fun hready hmin hcap => ?frame⟩
  case down => exact runCommand_quiet (sendProc_down (s := s.setSeq (.busy .send)) hready) hq
  case length =>
    exact runCommand_quiet (sendProc_badLength (s := s.setSeq (.busy .send)) hready (badLength_iff.mpr hbad)) hq
  case frame =>
    have hquiet : (s.setSeq (.busy .send)).flushing.env.script = [] := by simp [State.flushing, hq]
    have hsend := (sendProc_transmits (s := s.setSeq (.busy .send)) hready hmin hcap (still_of_quiet hq)).trans
      (Proc.bind_error (waitUntil_holds hquiet rfl))
    refine ⟨_, runCommand_halted hsend, State.eq_of_parts rfl ?_ ?_ rfl, step_flush_reported rfl rfl rfl⟩
    · simp [State.flushing, hq]
    · simp [State.flushing]

/-- Settles O40: the empty turns that the writes and the flush request leave are taken in the hold. -/
theorem sendCompletes : Obligations.SendCompletes := by
  intro s n hready hmin hcap hn hscript
  obtain ⟨m, rfl⟩ : ∃ m, n = (rawFrame s.core.tx).length + 1 + m := ⟨n - ((rawFrame s.core.tx).length + 1), by omega⟩
  have hstill : Still ((rawFrame s.core.tx).length + 1) s.env.script := hscript ▸ still_replicate (Nat.le_add_right _ m) _
  have hlast : (s.setSeq (.busy .send)).flushing.env.script = List.replicate m [] ++ [[.flushDone]] := by
    simp [State.flushing, hscript, List.drop_append_of_le_length]
  have hsend := (sendProc_transmits (s := s.setSeq (.busy .send)) hready hmin hcap hstill).trans
    (Proc.bind_ok (waitFlush_reported hlast rfl))
  refine (runCommand_quiet hsend rfl).trans (congrArg Host.Outcome.next (State.eq_of_parts rfl rfl ?_ rfl))
  simp [State.flushing, Code.toByte, Reply.plain]

end Sys2Proof.Machine
end

section
/-! PROOF of O42 and O45: the register accesses (spec/44_session_commands.md R230, R231). A register has one address
(`csrAt_addr`), so what a write leaves at the other addresses is what it leaves in the other registers. -/

namespace Sys2Proof.Machine

/-! ## CSR_READ (R230) -/

section
variable {s : State} {a : CsrAddr} {r : Csr}

/-- No register shows the sequencer. -/
theorem csrValue_seq (c : Regs) (v : Seq) (r : Csr) : csrValue { c with seq := v } r = csrValue c r := by
  cases r <;> rfl

theorem csrReadProc_mapped (hr : csrAt s.params a = some r) :
    (csrReadProc a).run s = .ok { code := .ok, rdata := csrValue s.core r } s := by
  rw [csrReadProc, Proc.bind_ok (regs_run s), Proc.bind_ok (params_run s), hr]
  rfl

end

/-- Settles O42. -/
theorem csrReadAnswers : Obligations.CsrReadAnswers := by
  refine fun s a hq => ⟨fun hnone => exec_csr_unmapped 0 hnone hq _ List.mem_cons_self, fun r hr => ?_⟩
  rw [← csrValue_seq s.core (.busy (.csrRead a)) r]
  exact runCommand_quiet (csrReadProc_mapped (s := s.setSeq (.busy (.csrRead a))) hr) hq

/-! ## One address per register (R55) -/

/-- The address of a register. -/
def Csr.addr : Csr → Nat
  | .status => 0x0000
  | .config => 0x0001
  | .quietTimeout => 0x0002
  | .curBaud => 0x0003
  | .lastAct => 0x0004
  | .baudCount => 0x0005
  | .baudIndex => 0x0006
  | .adMaxAttempts => 0x0007
  | .baudList i => 0x0010 + i.toNat
  | .rxHdr => 0x0020
  | .rxTail => 0x0021
  | .txHdr => 0x0030
  | .txTail => 0x0031
  | .rxPay i => 0x0100 + i
  | .txPay i => 0x0200 + i

section
variable {p : Params} {a a' : CsrAddr} {r : Csr}

theorem addr_of_ite {c : Prop} [Decidable c] {x : Csr} {later : Option Csr} (hx : c → a.toNat = x.addr)
    (hlater : later = some r → a.toNat = r.addr) : (if c then some x else later) = some r → a.toNat = r.addr := by
  split
  case isTrue hc => exact fun h => Option.some.inj h ▸ hx hc
  case isFalse => exact hlater

theorem addr_of_eq {k : CsrAddr} {x : Csr} {later : Option Csr} (hx : k.toNat = x.addr)
    (hlater : later = some r → a.toNat = r.addr) : (if a = k then some x else later) = some r → a.toNat = r.addr :=
  addr_of_ite (fun h => h ▸ hx) hlater

theorem csrAt_addr : csrAt p a = some r → a.toNat = r.addr := by
  have hlist : 0x0010 ≤ a.toNat ∧ a.toNat < 0x0010 + Config.nbaudMax →
      a.toNat = 0x0010 + (BitVec.ofNat 3 (a.toNat - 0x0010)).toNat := by
    rintro ⟨hge, hlt⟩
    unfold Config.nbaudMax at hlt
    rw [BitVec.toNat_ofNat, Nat.mod_eq_of_lt (by omega), Nat.add_sub_cancel' hge]
  have hwindow : ∀ {n base : Nat}, base ≤ a.toNat ∧ a.toNat < base + n → a.toNat = base + (a.toNat - base) :=
    fun h => (Nat.add_sub_cancel' h.1).symm
  exact addr_of_eq rfl <| addr_of_eq rfl <| addr_of_eq rfl <| addr_of_eq rfl <| addr_of_eq rfl <| addr_of_eq rfl <|
    addr_of_eq rfl <| addr_of_eq rfl <| addr_of_ite hlist <| addr_of_eq rfl <| addr_of_eq rfl <| addr_of_eq rfl <|
      addr_of_eq rfl <| addr_of_ite hwindow <| addr_of_ite hwindow nofun

theorem csrAt_inj (h : csrAt p a = some r) (h' : csrAt p a' = some r) : a = a' :=
  BitVec.eq_of_toNat_eq ((csrAt_addr h).trans (csrAt_addr h').symm)

/-- The TX window holds the entries below `PAYLOAD_CAP` (R54). -/
theorem lt_of_csrAt_txPay {i : Nat} (h : csrAt p a = some (.txPay i)) : i < p.payloadCap.val := by
  have haddr : a.toNat = 0x0200 + i := csrAt_addr h
  by_contra hout
  have hcap := p.payloadCap.isLt
  rw [csrAt_payload (by omega), if_neg (by omega), if_neg (by omega)] at h
  cases h

end

/-! ## The fields that a write stores (R231) -/

section
variable {m n : Nat}

theorem fields_append (v : BitVec (m + n)) : v.extractLsb' n m ++ v.extractLsb' 0 n = v := by
  rw [BitVec.extractLsb'_append_extractLsb'_eq_extractLsb' (Nat.zero_add n).symm]
  exact field_self

/-- Under the mask of its lowest bits a word is these bits. -/
theorem and_maskLow (v : BitVec (m + n)) : v &&& (0#m ++ BitVec.allOnes n) = 0#m ++ v.extractLsb' 0 n := by
  conv_lhs => rw [← fields_append v]
  rw [BitVec.and_append, BitVec.and_zero, BitVec.and_allOnes]

/-- The upper bits of a word, over lowest bits that always read as `y`. -/
theorem and_maskHigh_or (v : BitVec (m + n)) (y : BitVec n) :
    (v &&& (BitVec.allOnes m ++ 0#n)) ||| (0#m ++ y) = v.extractLsb' n m ++ y := by
  conv_lhs => rw [← fields_append v]
  rw [BitVec.and_append, BitVec.and_zero, BitVec.and_allOnes, BitVec.or_append, BitVec.or_zero, BitVec.zero_or]

end

section
variable {c c' : Regs} {v m o : Word} {r r' : Csr}

/-- BAUD_COUNT's field, as a masked word. -/
theorem toNat_and_maskCount (v : Word) : (v &&& 0xF).toNat = (v.extractLsb' 0 4).toNat := by
  have hlow : v &&& 0xF = 0#28 ++ v.extractLsb' 0 4 := and_maskLow (m := 28) (n := 4) v
  rw [hlow, BitVec.toNat_append]
  simp

theorem ofBool_getLsbD (v : Word) (i : Nat) : BitVec.ofBool (v.getLsbD i) = v.extractLsb' i 1 := by
  ext j hj
  obtain rfl : j = 0 := by omega
  simp

/-- CONFIG's fields, as a masked word. -/
theorem and_maskConfig (v : Word) : v &&& 0x00000007 =
    0#29 ++ BitVec.ofBool (v.getLsbD 2) ++ BitVec.ofBool (v.getLsbD 1) ++ BitVec.ofBool (v.getLsbD 0) := by
  have hfields : (v.extractLsb' 3 29 ++ v.extractLsb' 2 1 ++ v.extractLsb' 1 1 ++ v.extractLsb' 0 1 : Word) = v := by
    rw [BitVec.extractLsb'_append_extractLsb'_eq_extractLsb' (show 3 = 2 + 1 from rfl),
      BitVec.extractLsb'_append_extractLsb'_eq_extractLsb' (show 2 = 1 + 1 from rfl)]
    exact fields_append (m := 31) (n := 1) v
  have hmask : (0x00000007 : Word) = 0#29 ++ BitVec.allOnes 1 ++ BitVec.allOnes 1 ++ BitVec.allOnes 1 := by decide
  calc v &&& 0x00000007
      = (v.extractLsb' 3 29 ++ v.extractLsb' 2 1 ++ v.extractLsb' 1 1 ++ v.extractLsb' 0 1 : Word) &&&
          (0#29 ++ BitVec.allOnes 1 ++ BitVec.allOnes 1 ++ BitVec.allOnes 1) := by rw [hfields, hmask]
    _ = _ := by simp only [BitVec.and_append, BitVec.and_allOnes, BitVec.and_zero, ofBool_getLsbD]

/-- TX_HDR's fields, over the hard-wired preamble (R53). -/
theorem and_maskHdr_or (v : Word) :
    (v &&& 0xFFFFFF00) ||| 0x000000AA = byteOf v 3 ++ byteOf v 2 ++ byteOf v 1 ++ Config.preamble := by
  have hbytes : (byteOf v 3 ++ byteOf v 2 ++ byteOf v 1 : BitVec 24) = v.extractLsb' 8 24 := by
    unfold byteOf
    rw [BitVec.extractLsb'_append_extractLsb'_eq_extractLsb' (show 8 * 3 = 8 * 2 + 8 from rfl),
      BitVec.extractLsb'_append_extractLsb'_eq_extractLsb' (show 8 * 2 = 8 * 1 + 8 from rfl)]
  rw [hbytes]
  exact and_maskHigh_or (m := 24) (n := 8) v Config.preamble

/-- A write is refused at a read-only register and for an illegal BAUD_COUNT (R46, R231). -/
theorem csrStore_eq_none_iff : csrStore c v r = none ↔ r.writable = none ∨ r.illegalValue v = true := by
  cases r with
  | baudCount =>
    simp only [csrStore, Csr.writable, Csr.illegalValue, toNat_and_maskCount, reduceCtorEq, false_or, decide_eq_true_eq,
      ite_eq_left_iff, imp_false, not_not]
  | _ => simp [csrStore, Csr.writable, Csr.illegalValue]

/-- A register that was written reads as the bits that it stores, over those that always read as 1. -/
theorem csrStore_reads (hstore : csrStore c v r = some c') (hw : r.writable = some (m, o))
    (hentry : ∀ i, r = .txPay i → i < 256) : csrValue c' r = (v &&& m) ||| o := by
  cases r with
  | baudCount =>
    simp only [csrStore] at hstore
    split at hstore
    case isTrue => cases hstore
    case isFalse => cases hstore; cases hw; exact ((BitVec.or_zero).trans (and_maskLow (m := 28) (n := 4) v)).symm
  | config => cases hstore; cases hw; exact ((BitVec.or_zero).trans (and_maskConfig v)).symm
  | quietTimeout => cases hstore; cases hw; exact ((BitVec.or_zero).trans BitVec.and_allOnes).symm
  | adMaxAttempts => cases hstore; cases hw; exact ((BitVec.or_zero).trans BitVec.and_allOnes).symm
  | baudList i =>
    cases hstore
    cases hw
    exact (Vector.getElem_set_self _).trans ((BitVec.or_zero).trans BitVec.and_allOnes).symm
  | txHdr => cases hstore; cases hw; exact (and_maskHdr_or v).symm
  | txTail => cases hstore; cases hw; exact ((BitVec.or_zero).trans (and_maskLow (m := 24) (n := 8) v)).symm
  | txPay i =>
    cases hstore
    cases hw
    have hget : (c.tx.payload.put i (byteOf v 0)).get i = byteOf v 0 := by
      rw [Bank.get_put, if_pos ⟨rfl, hentry i rfl⟩]
    exact (congrArg (0#24 ++ ·) hget).trans ((BitVec.or_zero).trans (and_maskLow (m := 24) (n := 8) v)).symm
  | _ => cases hw

/-- A write changes no other register, and no entry of the TX payload but its own. -/
theorem csrStore_frame (hstore : csrStore c v r = some c') (hne : r' ≠ r) : csrValue c' r' = csrValue c r' := by
  cases r with
  | baudCount =>
    simp only [csrStore] at hstore
    split at hstore
    case isTrue => cases hstore
    case isFalse => cases hstore; (cases r' with | baudCount => exact absurd rfl hne | _ => rfl)
  | config => cases hstore; (cases r' with | config => exact absurd rfl hne | _ => rfl)
  | quietTimeout => cases hstore; (cases r' with | quietTimeout => exact absurd rfl hne | _ => rfl)
  | adMaxAttempts => cases hstore; (cases r' with | adMaxAttempts => exact absurd rfl hne | _ => rfl)
  | baudList i =>
    cases hstore
    cases r' with
    | baudList j =>
      refine Vector.getElem_set_ne i.isLt j.isLt fun h => hne ?_
      rw [BitVec.eq_of_toNat_eq h]
    | _ => rfl
  | txHdr => cases hstore; (cases r' with | txHdr => exact absurd rfl hne | _ => rfl)
  | txTail => cases hstore; (cases r' with | txTail => exact absurd rfl hne | _ => rfl)
  | txPay i =>
    cases hstore
    cases r' with
    | txPay j =>
      have hget : (c.tx.payload.put i (byteOf v 0)).get j = c.tx.payload.get j := by
        rw [Bank.get_put, if_neg]
        rintro ⟨rfl, -⟩
        exact hne rfl
      exact congrArg (0#24 ++ ·) hget
    | _ => rfl
  | _ => cases hstore

end

/-! ## CSR_WRITE (R231) -/

section
variable {s : State} {a : CsrAddr} {v : Word} {r : Csr}

theorem exec_csrWrite_refused (hq : s.env.script = []) (hr : csrAt s.params a = some r)
    (hrefused : r.writable = none ∨ r.illegalValue v = true) :
    exec (.csrWrite a v) s = .next { s with core := { s.core with seq := .idle }, trace := s.trace ++ [.resp 0x0C 0] } := by
  have hproc : (csrWriteProc a v).run (s.setSeq (.busy (.csrWrite a v))) =
      .ok (.plain .badCsr) (s.setSeq (.busy (.csrWrite a v))) := by
    rw [csrWriteProc, Proc.bind_ok (regs_run _), Proc.bind_ok (params_run _), State.setSeq_params, hr, Option.bind_some,
      csrStore_eq_none_iff.mpr hrefused]
    rfl
  exact runCommand_quiet hproc hq

theorem exec_csrWrite_stored {c : Regs} (hq : s.env.script = []) (hr : csrAt s.params a = some r)
    (hstore : csrStore { s.core with seq := .busy (.csrWrite a v) } v r = some c) :
    exec (.csrWrite a v) s = .next { s with core := { c with seq := .idle }, trace := s.trace ++ [.resp 0x00 0] } :=
  runCommand_quiet (csrWriteProc_stored (s := s.setSeq (.busy (.csrWrite a v))) hr hstore) hq

end

/-- Settles O45: another mapped address is another register, and the entries past `PAYLOAD_CAP` are at no address. -/
theorem csrWriteStores : Obligations.CsrWriteStores := by
  refine fun s a v hq => ⟨fun hrefused => ?refused, fun r m o hr hw hlegal => ?stored⟩
  case refused =>
    rcases hrefused with hnone | ⟨r, hr, hrefused⟩
    · exact exec_csr_unmapped v hnone hq _ (List.mem_cons_of_mem _ List.mem_cons_self)
    · exact exec_csrWrite_refused hq hr hrefused
  case stored =>
    obtain ⟨c, hstore⟩ : ∃ c, csrStore { s.core with seq := .busy (.csrWrite a v) } v r = some c := by
      rw [← Option.ne_none_iff_exists', ne_eq, csrStore_eq_none_iff]
      simp [hw, hlegal]
    have hentry : ∀ i, r = .txPay i → i < s.params.payloadCap.val := fun i hi => lt_of_csrAt_txPay (hi ▸ hr)
    have hframe : ∀ r', r' ≠ r → csrValue { c with seq := .idle } r' = csrValue s.core r' := fun r' hne => by
      rw [csrValue_seq, csrStore_frame hstore hne, csrValue_seq]
    refine ⟨_, exec_csrWrite_stored hq hr hstore, ?reads, fun a' r' ha' hr' => hframe r' ?other, rfl, ?_⟩
    case reads =>
      have hcap := s.params.payloadCap.isLt
      rw [csrValue_seq]
      exact csrStore_reads hstore hw fun i hi => Nat.lt_of_lt_of_le (hentry i hi) (Nat.le_of_lt_succ hcap)
    case other =>
      rintro rfl
      exact ha' (csrAt_inj hr' hr)
    have hpayload : ∀ j, s.params.payloadCap.val ≤ j → c.tx.payload.get j = s.core.tx.payload.get j := by
      intro j hj
      have hvalue := hframe (.txPay j) fun h => Nat.not_lt_of_le hj (hentry j h.symm)
      calc c.tx.payload.get j
          = (csrValue { c with seq := .idle } (.txPay j)).extractLsb' 0 8 := (lone_field (m := 24) _).1.symm
        _ = (csrValue s.core (.txPay j)).extractLsb' 0 8 := by rw [hvalue]
        _ = s.core.tx.payload.get j := (lone_field (m := 24) _).1
    obtain ⟨mode, disabled, fwd, quiet, count, bound, list, tx, rfl, -⟩ := csrStore_cases hstore
    exact ⟨rfl, rfl, rfl, rfl, hpayload⟩

end Sys2Proof.Machine
end

section
/-! PROOF of O51: no step faults (spec/60_exceptions.md R283). The one action that can fault is `ChRead` on an empty buffer
(R15, log 15), and a turn without a hardware reset never shortens the buffer; so a read is safe wherever the bytes it takes were
counted before it, which is so in `NextByte`, `ChDiscard` and the attempt. Every other procedure is safe because its parts are. -/

namespace Sys2Proof.Machine

/-! ## Runs that do not fault -/

/-- From `s`, the run does not fault. -/
def Proc.FaultlessAt {α : Type} (p : Proc α) (s : State) : Prop := ∀ f t, p.run s ≠ .error (.fault f) t

/-- The procedure faults from no state. -/
def Proc.Faultless {α : Type} (p : Proc α) : Prop := ∀ s, p.FaultlessAt s

section
variable {α β : Type} {p q : Proc α} {k : α → Proc β} {s t : State}

theorem Proc.faultlessAt_of_ok {a : α} (h : p.run s = .ok a t) : p.FaultlessAt s :=
  fun _ _ hr => nomatch h.symm.trans hr

theorem Proc.faultlessAt_of_halted (h : p.run s = .error .halted t) : p.FaultlessAt s :=
  fun _ _ hr => nomatch h.symm.trans hr

theorem Proc.FaultlessAt.bind (hp : p.FaultlessAt s) (hk : ∀ a t, p.run s = .ok a t → (k a).FaultlessAt t) :
    (p >>= k).FaultlessAt s := by
  unfold Proc.FaultlessAt
  cases hr : p.run s with
  | ok a t => rw [Proc.bind_ok hr]; exact hk a t hr
  | error e t =>
    rw [Proc.bind_error hr]
    rintro f u ⟨⟩
    exact hp f t hr

theorem Proc.Faultless.bind (hp : p.Faultless) (hk : ∀ a, (k a).Faultless) : (p >>= k).Faultless :=
  fun s => (hp s).bind fun a t _ => hk a t

theorem Proc.faultless_pure (a : α) : (pure a : Proc α).Faultless := fun _ => Proc.faultlessAt_of_ok rfl

theorem Proc.faultless_ite {b : Prop} [Decidable b] (hp : p.Faultless) (hq : q.Faultless) :
    (if b then p else q).Faultless := by
  split
  · exact hp
  · exact hq

theorem faultless_change (g : State → State) : (change g).Faultless := fun s => Proc.faultlessAt_of_ok (change_run g s)

theorem faultless_update (g : Regs → Regs) : (update g).Faultless := faultless_change _

theorem faultless_theState : theState.Faultless := fun s => Proc.faultlessAt_of_ok (theState_run s)

theorem faultless_regs : regs.Faultless := fun s => Proc.faultlessAt_of_ok (regs_run s)

theorem faultless_params : params.Faultless := fun s => Proc.faultlessAt_of_ok (params_run s)

theorem faultless_haltAt (h : Hold) : (haltAt h : Proc α).Faultless := fun s => Proc.faultlessAt_of_halted (haltAt_run h s)

end

/-! ## The primitives of R15 that read no byte -/

theorem faultless_tick : tick.Faultless := by
  intro s
  rcases tick_cases s with ⟨e, he, -⟩ | ⟨e, he, -⟩
  · exact Proc.faultlessAt_of_ok he
  · exact Proc.faultlessAt_of_halted he

theorem faultless_waitUntil (c : State → Bool) (h : Hold) : (waitUntil c h).Faultless := by
  intro s
  rcases waitUntil_cases c h s with ⟨e, he, -⟩ | ⟨e, he, -⟩ | ⟨e, he, -⟩
  · exact Proc.faultlessAt_of_ok he
  · exact Proc.faultlessAt_of_halted he
  · exact Proc.faultlessAt_of_halted he

/-- A sampled input or a look at the channel: a turn, then a read of the state. -/
theorem faultless_tick_read {α : Type} (f : State → α) : (tick >>= fun _ => theState >>= fun s => pure (f s)).Faultless :=
  faultless_tick.bind fun _ => faultless_theState.bind fun _ => Proc.faultless_pure _

theorem faultless_now : now.Faultless := faultless_tick_read _
theorem faultless_chPresent : chPresent.Faultless := faultless_tick_read _
theorem faultless_chAvail : chAvail.Faultless := faultless_tick_read _

/-- An action on the channel or the trace: a turn, then a change of the state. -/
theorem faultless_tick_change (g : State → State) : (tick >>= fun _ => change g).Faultless :=
  faultless_tick.bind fun _ => faultless_change g

theorem faultless_chOpen (b : Word) : (chOpen b).Faultless := faultless_tick_change _
theorem faultless_chClose : chClose.Faultless := faultless_tick_change _
theorem faultless_chWrite (b : Byte) : (chWrite b).Faultless := faultless_tick_change _
theorem faultless_ringWrite (b : Byte) : (ringWrite b).Faultless := faultless_tick_change _

theorem faultless_waitFlush : waitFlush.Faultless := faultless_waitUntil _ _

theorem faultless_chFlush : chFlush.Faultless :=
  faultless_tick.bind fun _ => (faultless_change _).bind fun _ => faultless_waitFlush

/-! ## Reads (R15, R206) -/

theorem Env.avail_le_length (e : Env) : e.avail ≤ e.fifo.length := by
  unfold Env.avail
  split
  · exact Nat.le_refl _
  · exact Nat.zero_le _

/-- Where a wait ends with a result, its condition holds. -/
theorem waitUntil_ok {c : State → Bool} {h : Hold} {s t : State} (hr : (waitUntil c h).run s = .ok () t) : c t = true := by
  rcases waitUntil_cases c h s with ⟨e, he, hc, -⟩ | ⟨e, he, -⟩ | ⟨e, he, -⟩
  · cases he.symm.trans hr
    exact hc
  · cases he.symm.trans hr
  · cases he.symm.trans hr

theorem chRead_faultlessAt {s : State} (h : 0 < s.env.fifo.length) : chRead.FaultlessAt s := by
  rcases chRead_cases s (List.ne_nil_of_length_pos h) with ⟨e, b, rest, he, -⟩ | ⟨e, he, -⟩
  · exact Proc.faultlessAt_of_ok he
  · exact Proc.faultlessAt_of_halted he

/-- `ChRead` shortens the buffer by one byte at most; bytes may arrive in the turn before it. -/
theorem length_le_of_chRead {s t : State} {b : Byte} (h : 0 < s.env.fifo.length) (hr : chRead.run s = .ok b t) :
    s.env.fifo.length ≤ t.env.fifo.length + 1 := by
  rcases chRead_cases s (List.ne_nil_of_length_pos h) with ⟨e, b', rest, he, -, -, hlen⟩ | ⟨e, he, -⟩
  · cases he.symm.trans hr
    exact hlen
  · cases he.symm.trans hr

/-- With as many bytes buffered as it takes, a run of raw reads does not fault. -/
theorem readMany_faultlessAt {n : Nat} {s : State} (h : n ≤ s.env.fifo.length) : (readMany n).FaultlessAt s := by
  induction n generalizing s with
  | zero => exact Proc.faultless_pure _ s
  | succ n ih =>
    have hpos : 0 < s.env.fifo.length := Nat.lt_of_lt_of_le (Nat.succ_pos n) h
    refine (chRead_faultlessAt hpos).bind fun b t hr => (ih ?_).bind fun bs u _ => Proc.faultless_pure _ u
    exact Nat.le_of_succ_le_succ (Nat.le_trans h (length_le_of_chRead hpos hr))

theorem chAvail_le_length (s : State) : chAvail.Meets (fun n t => n ≤ t.env.fifo.length) AnyStop s :=
  Proc.meets_true.bind fun _ t _ => Proc.meets_theState_bind (Proc.meets_pure (Env.avail_le_length t.env))

/-- `ChDiscard` reads no more bytes than it has counted. -/
theorem faultless_chDiscard : chDiscard.Faultless := fun s =>
  (faultless_chAvail s).bind fun n t hr =>
    have ⟨hcount, _⟩ := chAvail_le_length s
    (readMany_faultlessAt (hcount n t hr)).bind fun _ u _ => Proc.faultless_pure _ u

/-- The attempt reads `SYNC_N` bytes after it has waited for as many (R203). -/
theorem faultless_attemptRead (idx : BitVec 3) : (attemptRead idx).Faultless :=
  faultless_params.bind fun p s => (faultless_waitUntil _ _ s).bind fun _ t hwait =>
    have hcount : p.syncN ≤ t.env.avail := decide_eq_true_iff.mp (waitUntil_ok hwait)
    (readMany_faultlessAt (Nat.le_trans hcount (Env.avail_le_length t.env))).bind fun _ u _ => Proc.faultless_pure _ u

/-! ## The Byte Codec -/

theorem faultless_rxClass (i : Instr) : (rxClass i).Faultless := by
  cases i with
  | rxEscaped raw => exact faultless_update _
  | rxEsc => exact faultless_update _
  | rxSync =>
    have hring : ringForward.Faultless :=
      faultless_regs.bind fun _ => Proc.faultless_ite (faultless_ringWrite _) (Proc.faultless_pure _)
    exact hring.bind fun _ => faultless_update _
  | rxAa => exact faultless_update _
  | rxData raw => exact faultless_update _
  | _ => exact Proc.faultless_pure _

theorem faultless_codecRx (raw : Byte) : (codecRx raw).Faultless :=
  faultless_regs.bind fun _ => (faultless_rxClass _).bind fun _ => faultless_regs.bind fun _ => Proc.faultless_pure _

/-- `NextByte` reads a byte after it has waited for one (R148). -/
theorem faultless_nextRaw : nextRaw.Faultless := fun s =>
  (faultless_waitUntil _ _ s).bind fun _ t hwait =>
    have hcount : 0 < t.env.avail := decide_eq_true_iff.mp (waitUntil_ok hwait)
    (chRead_faultlessAt (Nat.lt_of_lt_of_le hcount (Env.avail_le_length t.env))).bind fun b u _ => faultless_codecRx b u

theorem faultless_nextByteIn (n : Nat) : (nextByteIn n).Faultless := by
  induction n with
  | zero => exact faultless_haltAt .nextByte
  | succ n ih =>
    refine faultless_nextRaw.bind fun o => ?_
    cases o with
    | some b => exact Proc.faultless_pure b
    | none => exact ih

theorem faultless_nextByte : nextByte.Faultless := faultless_nextByteIn 2

theorem faultless_txForm (i : Instr) : (txForm i).Faultless := by
  cases i with
  | txPre => exact faultless_chWrite _
  | txLit b => exact faultless_chWrite b
  | txEscd b => exact (faultless_chWrite _).bind fun _ => faultless_chWrite _
  | _ => exact Proc.faultless_pure _

theorem faultless_codecTxAll (bs : List Byte) : (codecTxAll bs).Faultless := by
  induction bs with
  | nil => exact Proc.faultless_pure ()
  | cons b bs ih => exact (faultless_txForm (classifyTx b)).bind fun _ => ih

/-! ## The Frame Assembler -/

theorem faultless_assembleByte (b : Byte) {k : Proc Code} (hk : k.Faultless) : (assembleByte b k).Faultless := by
  have haccept : (acceptByte b).Faultless := fun s => Proc.faultlessAt_of_ok (acceptByte_run b s)
  refine haccept.bind fun r => ?_
  cases r with
  | cont => exact hk
  | _ => exact Proc.faultless_pure _

theorem faultless_assembleIn (n : Nat) : (assembleIn n).Faultless := by
  induction n with
  | zero => exact Proc.faultless_pure _
  | succ n ih =>
    exact faultless_chAvail.bind fun _ => Proc.faultless_ite
      (faultless_nextByte.bind fun b => faultless_assembleByte b ih) (Proc.faultless_pure _)

theorem faultless_assemble : assemble.Faultless := faultless_assembleIn 256

/-! ## The Baud Autodetector -/

theorem faultless_attempt (idx : BitVec 3) : (attempt idx).Faultless :=
  (faultless_update _).bind fun _ => faultless_chClose.bind fun _ => faultless_regs.bind fun _ =>
    (faultless_chOpen _).bind fun _ => faultless_chDiscard.bind fun _ => faultless_attemptRead idx

theorem faultless_acceptBaud (idx : BitVec 3) : (acceptBaud idx).Faultless :=
  (faultless_update _).bind fun _ => Proc.faultless_pure _

theorem faultless_scan (n : Nat) (idx : BitVec 3) : (scan n idx).Faultless := by
  induction n generalizing idx with
  | zero => exact faultless_haltAt (.attempt idx)
  | succ n ih =>
    refine faultless_regs.bind fun _ => Proc.faultless_ite ?spent ?again
    case spent => exact faultless_chClose.bind fun _ => Proc.faultless_pure _
    case again =>
      exact (faultless_update _).bind fun _ => (faultless_attempt idx).bind fun _ =>
        Proc.faultless_ite (faultless_acceptBaud idx) (faultless_regs.bind fun _ => ih _)

theorem faultless_scanFrom (idx : BitVec 3) : (scanFrom idx).Faultless :=
  faultless_theState.bind fun _ => faultless_scan _ idx

theorem faultless_autodetect : autodetect.Faultless := (faultless_update _).bind fun _ => faultless_scanFrom 0

theorem faultless_autodetectResume (idx : BitVec 3) : (autodetectResume idx).Faultless :=
  (faultless_attemptRead idx).bind fun _ =>
    Proc.faultless_ite (faultless_acceptBaud idx) (faultless_regs.bind fun _ => faultless_scanFrom _)

/-! ## The Bus Session -/

theorem faultless_beginFinish : beginFinish.Faultless :=
  (faultless_update _).bind fun _ => (faultless_update _).bind fun _ => faultless_now.bind fun _ =>
    (faultless_update _).bind fun _ => Proc.faultless_pure _

theorem faultless_beginAfterScan (r : Code) : (beginAfterScan r).Faultless :=
  Proc.faultless_ite faultless_beginFinish (Proc.faultless_pure r)

theorem faultless_begin (baud : Option Word) : (begin baud).Faultless := by
  refine faultless_regs.bind fun _ => Proc.faultless_ite (Proc.faultless_pure _)
    (faultless_chPresent.bind fun _ => Proc.faultless_ite ?absent ?present)
  case absent => exact (faultless_update _).bind fun _ => Proc.faultless_pure _
  case present =>
    cases baud with
    | none =>
      exact Proc.faultless_ite (Proc.faultless_pure _) <| (faultless_update _).bind fun _ =>
        faultless_autodetect.bind faultless_beginAfterScan
    | some b =>
      exact (faultless_update _).bind fun _ => faultless_chClose.bind fun _ => (faultless_chOpen b).bind fun _ =>
        faultless_chDiscard.bind fun _ => (faultless_update _).bind fun _ => faultless_beginFinish

theorem faultless_recover : recover.Faultless :=
  faultless_chClose.bind fun _ => (faultless_update _).bind fun _ => faultless_regs.bind fun _ =>
    Proc.faultless_ite (Proc.faultless_pure _) ((faultless_begin none).bind fun _ => Proc.faultless_pure _)

theorem faultless_pollProc : pollProc.Faultless := by
  refine faultless_regs.bind fun _ => Proc.faultless_ite (Proc.faultless_pure _)
    (faultless_now.bind fun _ => faultless_chAvail.bind fun _ => Proc.faultless_ite ?traffic ?silent)
  case traffic => exact (faultless_update _).bind fun _ => faultless_assemble.bind fun _ => Proc.faultless_pure _
  case silent =>
    exact faultless_regs.bind fun _ =>
      Proc.faultless_ite (faultless_recover.bind fun _ => Proc.faultless_pure _) (Proc.faultless_pure _)

theorem faultless_sendProc : sendProc.Faultless :=
  faultless_regs.bind fun _ => faultless_params.bind fun _ => Proc.faultless_ite (Proc.faultless_pure _) <|
    Proc.faultless_ite (Proc.faultless_pure _) <| (faultless_txForm .txPre).bind fun _ =>
      (faultless_codecTxAll _).bind fun _ => faultless_chFlush.bind fun _ => Proc.faultless_pure _

/-! ## The register accesses (R230, R231) -/

theorem faultless_csrReadProc (a : CsrAddr) : (csrReadProc a).Faultless := by
  refine faultless_regs.bind fun _ => faultless_params.bind fun p => ?_
  cases csrAt p a with
  | none => exact Proc.faultless_pure _
  | some r => exact Proc.faultless_pure _

theorem faultless_csrWriteProc (a : CsrAddr) (v : Word) : (csrWriteProc a v).Faultless := by
  refine faultless_regs.bind fun c => faultless_params.bind fun p => ?_
  cases (csrAt p a).bind (csrStore c v) with
  | none => exact Proc.faultless_pure _
  | some c' => exact (faultless_update _).bind fun _ => Proc.faultless_pure _

/-! ## Commands, first step and later ones -/

theorem faultless_commandProc (i : Instr) : (commandProc i).Faultless := by
  cases i with
  | beginAuto => exact (faultless_begin none).bind fun _ => Proc.faultless_pure _
  | beginBaud baud => exact (faultless_begin (some baud)).bind fun _ => Proc.faultless_pure _
  | poll => exact faultless_pollProc
  | reset => exact faultless_chClose.bind fun _ => (faultless_update _).bind fun _ => Proc.faultless_pure _
  | setNoRestart flag => exact (faultless_update _).bind fun _ => Proc.faultless_pure _
  | send => exact faultless_sendProc
  | csrRead a => exact faultless_csrReadProc a
  | csrWrite a v => exact faultless_csrWriteProc a v
  | _ => exact Proc.faultless_pure _

theorem faultless_resumeProc (i : Instr) (h : Hold) : (resumeProc i h).Faultless := by
  cases h with
  | nextByte =>
    have hresume : assembleResume.Faultless :=
      faultless_nextByte.bind fun b => faultless_assembleByte b faultless_assemble
    exact hresume.bind fun _ => Proc.faultless_pure _
  | autodetect idx =>
    exact (faultless_autodetectResume idx).bind fun r => (faultless_beginAfterScan r).bind fun _ => Proc.faultless_pure _
  | flush => exact faultless_waitFlush.bind fun _ => Proc.faultless_pure _
  | attempt idx =>
    exact (faultless_scanFrom idx).bind fun r => (faultless_beginAfterScan r).bind fun _ => Proc.faultless_pure _

/-! ## Steps (O51) -/

theorem runAs_next {p : Proc Reply} (hp : p.Faultless) (v : Seq) (s : State) : ∃ t, runAs v p s = .next t := by
  have hanswer : (answer p).Faultless := hp.bind fun _ => faultless_tick.bind fun _ => Proc.faultless_pure _
  unfold runAs
  cases hr : (answer p).run (s.setSeq v) with
  | ok r u => exact ⟨_, settle_ok r u⟩
  | error e u =>
    cases e with
    | halted => exact ⟨u, settle_halted u⟩
    | fault f => exact absurd hr (hanswer _ f u)

theorem runForm_next {p : Proc Unit} (hp : p.Faultless) (s : State) : ∃ t, runForm p s = .next t := by
  unfold runForm
  cases hr : p.run s with
  | ok a u => exact ⟨u, settleForm_ok a u⟩
  | error e u =>
    cases e with
    | halted => exact ⟨u, settleForm_halted u⟩
    | fault f => exact absurd hr (hp s f u)

theorem exec_next (i : Instr) (s : State) : ∃ t, exec i s = .next t := by
  cases hi : i.isCommand with
  | true =>
    rw [exec_command hi]
    exact runAs_next (faultless_commandProc i) _ s
  | false =>
    rcases exec_form hi s with he | he
    · rw [he]; exact runForm_next (faultless_rxClass i) s
    · rw [he]; exact runForm_next (faultless_txForm i) s

theorem execIllegal_next (s : State) : ∃ t, execIllegal s = .next t :=
  runAs_next (p := illegalProc) (Proc.faultless_pure _) _ s

theorem accept_next (cmd data : Word) (s : State) : ∃ t, accept cmd data s = .next t := by
  cases hd : decodeCommand cmd data with
  | ok i => rw [accept_decoded hd]; exact exec_next i _
  | error r => rw [accept_illegal hd]; exact execIllegal_next _

/-- The sequencer, at each of its places (R32). -/
theorem sequence_next (s : State) : ∃ t, sequence s = .next t := by
  unfold sequence
  split
  case h_1 =>
    split
    case h_1 cmd data _ => exact accept_next cmd data s
    case h_2 => exact runForm_next faultless_tick s
  case h_2 i _ => exact exec_next i s
  case h_3 => exact execIllegal_next s
  case h_4 i h _ => exact runAs_next (faultless_resumeProc i h) _ s

/-- Settles O51: no procedure that a step runs faults, and no arm of `exec` refuses (`exec_next`, `sequence_next`). -/
theorem everyStepAnswersNext : Obligations.EveryStepAnswersNext :=
  ⟨exec_next, fun s => sequence_next s.refill⟩

end Sys2Proof.Machine
end

section
/-! PROOF of O35: with six bytes buffered POLL never comes to look at the timeout (spec/60_exceptions.md R274). It notes the time
and its assembler takes the first byte; what is true from then on (`Consuming 1`) survives all that the assembler does after it,
and the hold it may end in. -/

namespace Sys2Proof.Machine

/-- Since `s₀`, in a quiet environment, POLL has noted the time and taken `k` bytes at least, and nothing else of the environment
moved; the session and the core's record of the channel are as they were. -/
structure Consuming (k : Nat) (s₀ s : State) : Prop where
  lastAct : s.core.lastAct = s₀.env.now
  ready : s.core.ready = true
  chOpen : s.core.chOpen = s₀.core.chOpen
  env : ∃ n, k ≤ n ∧ s.env = { s₀.env with fifo := s₀.env.fifo.drop n }

section
variable {k : Nat} {s₀ s t : State}

theorem Consuming.of_eq (h : Consuming k s₀ s) (henv : t.env = s.env) (hlast : t.core.lastAct = s.core.lastAct)
    (hready : t.core.ready = s.core.ready) (hopen : t.core.chOpen = s.core.chOpen) : Consuming k s₀ t :=
  ⟨hlast.trans h.lastAct, hready.trans h.ready, hopen.trans h.chOpen, henv ▸ h.env⟩

theorem Consuming.quiet (hq : s₀.env.script = []) (h : Consuming k s₀ s) : s.env.script = [] := by
  obtain ⟨n, -, henv⟩ := h.env
  rw [henv]
  exact hq

theorem Consuming.fewer (h : Consuming (k + 1) s₀ s) : Consuming k s₀ s := by
  obtain ⟨n, hn, henv⟩ := h.env
  exact ⟨h.lastAct, h.ready, h.chOpen, n, Nat.le_of_succ_le hn, henv⟩

theorem Consuming.takeByte {b : Byte} {rest : List Byte} (hf : s.env.fifo = b :: rest) (h : Consuming k s₀ s) :
    Consuming (k + 1) s₀ (s.takeByte b rest) := by
  obtain ⟨n, hn, henv⟩ := h.env
  have hrest : s₀.env.fifo.drop (n + 1) = rest := by
    rw [← List.tail_drop, ← List.tail_cons (a := b) (as := rest), ← hf, henv]
  exact ⟨h.lastAct, h.ready, h.chOpen, n + 1, Nat.succ_le_succ hn, by rw [State.takeByte_env, henv, hrest]⟩

theorem Consuming.accepting (b : Byte) (h : Consuming k s₀ s) : Consuming k s₀ (s.accepting b) := by
  obtain ⟨w, n, r, hf⟩ := faAccept_frame s.params b s.core
  have hcore : (s.accepting b).core = { s.core with work := w, faPos := n, rx := r } := hf
  exact h.of_eq rfl (by rw [hcore]) (by rw [hcore]) (by rw [hcore])

theorem consuming_receiving (hq : s₀.env.script = []) : Receiving (Consuming k s₀) (Consuming k s₀) where
  tick hs := Proc.meets_of_ok (tick_quiet (hs.quiet hq)) hs
  emit _ _ hs := hs.of_eq rfl rfl rfl rfl
  take _ _ hf hs := (hs.takeByte hf).fewer
  codec _ _ _ hs := hs.of_eq rfl rfl rfl rfl
  hold hs := hs.of_eq rfl rfl rfl rfl

theorem consuming_assembling (hq : s₀.env.script = []) :
    Assembling (Consuming k s₀) (fun _ => Consuming k s₀) (Consuming k s₀) where
  avail := (consuming_receiving hq).chAvail
  next := (consuming_receiving hq).nextByte
  idle hs := hs
  more b _ := Consuming.accepting b
  done b _ _ := Consuming.accepting b

/-! ## The first byte -/

theorem Proc.Meets.of_run_eq {α : Type} {p q : Proc α} {Q : α → State → Prop} {H : State → Prop} (h : q.Meets Q H t)
    (hrun : p.run s = q.run t) : p.Meets Q H s := by
  unfold Proc.Meets
  rwa [hrun]

theorem Env.buffered_of_avail {e : Env} (h : 0 < e.avail) : e.openAt.isSome = true ∧ ∃ b rest, e.fifo = b :: rest := by
  have ho : e.openAt.isSome = true := by
    by_contra ho
    simp [Env.avail, ho] at h
  refine ⟨ho, List.exists_cons_of_length_pos ?_⟩
  rwa [Env.avail_of_open ho] at h

/-- `NextByte` takes a byte that is buffered, even where it comes to no logical byte (R148). -/
theorem Consuming.nextByte (h : Consuming k s₀ s) (hq : s₀.env.script = []) (havail : 0 < s.env.avail) :
    nextByte.Meets (fun _ => Consuming (k + 1) s₀) (Consuming (k + 1) s₀) s := by
  have hR := consuming_receiving (k := k + 1) hq
  obtain ⟨ho, b, rest, hf⟩ := Env.buffered_of_avail havail
  have hraw : nextRaw.Meets (fun _ => Consuming (k + 1) s₀) (Consuming (k + 1) s₀) s :=
    (hR.codecRx b (h.takeByte hf)).of_run_eq (nextRaw_buffered (h.quiet hq) ho hf)
  refine Proc.Meets.bind hraw fun o t ht => ?_
  cases o with
  | some b => exact Proc.meets_pure ht
  | none => exact hR.nextByteIn 1 ht

/-- With a byte buffered the loop of `Assemble` makes a pass (R181). -/
theorem assembleIn_reads (hq : s.env.script = []) (havail : 0 < s.env.avail) (n : Nat) :
    (assembleIn (n + 1)).run s = (Machine.nextByte >>= fun b => assembleByte b (assembleIn n)).run s := by
  rw [assembleIn, Proc.bind_ok (chAvail_quiet hq), if_pos havail]

theorem Consuming.assemble (h : Consuming k s₀ s) (hq : s₀.env.script = []) (havail : 0 < s.env.avail) :
    assemble.Meets (fun _ => Consuming (k + 1) s₀) (Consuming (k + 1) s₀) s :=
  have hA := consuming_assembling (k := k + 1) hq
  ((h.nextByte hq havail).bind fun b _ h1 => hA.assembleByte b (hA.assembleIn 255) h1).of_run_eq
    (assembleIn_reads (h.quiet hq) havail 255)

/-- With a frame's worth of bytes buffered POLL assembles, however late it is (R224, R274). -/
theorem pollProc_traffic (hq : s.env.script = []) (hready : s.core.ready = true) (havail : Config.minFrame ≤ s.env.avail) :
    pollProc.run s = (Machine.assemble >>= fun r => pure (Reply.plain r) : Proc Reply).run
      (s.mapCore fun c => { c with lastAct := s.env.now }) := by
  rw [pollProc, Proc.bind_ok (regs_run s), if_neg (by simp [hready]), Proc.bind_ok (now_quiet hq),
    Proc.bind_ok (chAvail_quiet hq), if_pos havail, Proc.bind_ok (update_run _ s)]

theorem pollProc_consumes (hq : s.env.script = []) (hready : s.core.ready = true) (havail : Config.minFrame ≤ s.env.avail) :
    pollProc.Meets (fun _ => Consuming 1 s) (Consuming 1 s) s := by
  have hstart : Consuming 0 s (s.mapCore fun c => { c with lastAct := s.env.now }) := ⟨rfl, hready, rfl, 0, Nat.le_refl 0, rfl⟩
  have hassemble := hstart.assemble hq (Nat.lt_of_lt_of_le (by decide) havail)
  exact Proc.Meets.of_run_eq (hassemble.bind fun _ _ h1 => Proc.meets_pure h1) (pollProc_traffic hq hready havail)

end

/-- Settles O35: POLL responds or holds, with a byte taken either way (`pollProc_consumes`). -/
theorem pollTrafficWins : Obligations.PollTrafficWins := by
  intro s t hq hready havail h
  have hR := consuming_receiving (k := 1) (s₀ := s.setSeq (.busy .poll)) hq
  have hpoll := pollProc_consumes (s := s.setSeq (.busy .poll)) hq hready havail
  have ht : Consuming 1 (s.setSeq (.busy .poll)) t := by
    rcases runAs_meets hpoll (fun _ _ => hR.tick) h with ⟨r, u, hu, rfl⟩ | hheld
    · exact hu.of_eq rfl rfl rfl rfl
    · exact hheld
  obtain ⟨hlast, hup, hopen, n, hn, henv⟩ := ht
  exact ⟨hlast, hup, hopen, by rw [henv]; rfl, n, by rw [henv]; rfl, hn⟩

end Sys2Proof.Machine
end

section
/-! PROOF of O50: in a step a command comes to its response, or waits at a hold, or is aborted by a hardware reset, and R310 says
which holds are its own (spec/70_reset_and_hazards.md). The one place that is no hold, before an attempt (log 14), is not entered:
an attempt that finds no sync pattern has used up a turn of the script, and a scan has one attempt more than the script has
turns (`attempt_stands`, `scan_stands`). -/

namespace Sys2Proof.Machine

/-! ## Where a command stands -/

/-- The sequencer stands at `v`. -/
def Stands (v : Seq) (s : State) : Prop := s.core.seq = v

/-- The step of a command at `v` ended idle, or at a place that `A` allows. -/
def Rests (A : Hold → Prop) (v : Seq) (t : State) : Prop :=
  t.core.seq = .idle ∨ ∃ h, A h ∧ t.core.seq = v.waiting h

section
variable {A : Hold → Prop} {v : Seq} {s : State} {idx : BitVec 3}

theorem Stands.rests {h : Hold} (hA : A h) (hs : Stands v s) : Rests A v (s.setSeq (s.core.seq.waiting h)) :=
  .inr ⟨h, hA, congrArg (Seq.waiting h) hs⟩

/-- A turn leaves the registers and takes the first turn of the script; or a hardware reset leaves the core idle. -/
theorem tick_tail (A : Hold → Prop) (v : Seq) (s : State) :
    tick.Meets (fun _ t => t.core = s.core ∧ t.env.script = s.env.script.tail) (Rests A v) s := by
  rcases tick_cases s with ⟨e, he, -, -, hscript⟩ | ⟨e, he, -⟩
  · exact Proc.meets_of_ok he ⟨rfl, hscript⟩
  · exact Proc.meets_of_halted he (.inl rfl)

/-- What holds of the registers and of the number of turns left, and goes on to hold with fewer turns. -/
theorem turns_steady {P : Regs → Nat → Prop} (hP : ∀ c m n, m ≤ n → P c n → P c m) :
    Steady (fun s => P s.core s.env.script.length) (Rests A v) where
  tick {s} hs := (tick_tail A v s).imp fun _ t ⟨hcore, hscript⟩ => by
    have hle : t.env.script.length ≤ s.env.script.length := by rw [hscript, List.length_tail]; exact Nat.sub_le _ _
    exact hcore ▸ hP _ _ _ hle hs
  emit _ _ hs := hs
  take _ _ _ hs := hs

theorem stands_steady : Steady (Stands v) (Rests A v) :=
  turns_steady (P := fun c _ => c.seq = v) fun _ _ _ _ h => h

theorem stands_receiving (hA : A .nextByte) : Receiving (Stands v) (Rests A v) where
  toSteady := stands_steady
  codec _ _ _ hs := hs
  hold hs := hs.rests hA

theorem Stands.accepting (b : Byte) (hs : Stands v s) : Stands v (s.accepting b) := by
  obtain ⟨w, n, r, hf⟩ := faAccept_frame s.params b s.core
  unfold State.accepting Stands
  rw [State.mapCore_core, hf]
  exact hs

theorem stands_assembling (hA : A .nextByte) : Assembling (Stands v) (fun _ => Stands v) (Rests A v) where
  avail := stands_steady.chAvail
  next := (stands_receiving hA).nextByte
  idle hs := hs
  more b _ := Stands.accepting b
  done b _ _ := Stands.accepting b

theorem stands_opening : Opening (Stands v) (Stands v) (Stands v) (Rests A v) where
  before := stands_steady
  alive := turns_steady (P := fun c _ => c.seq = v ∧ c.fatal = false) fun _ _ _ _ h => h
  between := stands_steady
  opened := stands_steady
  back hs := hs
  still hs := hs
  absent hs := hs
  down hs _ := hs
  closeDown hs := hs
  close hs := hs
  chOpen _ hs := hs
  rate _ hs := hs
  clearCodec hs := hs
  clearFrame hs := hs
  up _ hs := hs

/-! ## The autodetect -/

theorem Steady.attemptRead {I H : State → Prop} (hI : Steady I H)
    (hhold : ∀ {t}, I t → H (t.setSeq (t.core.seq.waiting (.autodetect idx)))) (hs : I s) :
    (attemptRead idx).Meets (fun _ => I) H s :=
  Proc.meets_params_bind <| (hI.waitUntil hhold hs).bind fun _ _ h1 =>
    (hI.readMany _ h1).bind fun _ _ h2 => Proc.meets_pure h2

variable (hread : ∀ idx, A (.autodetect idx))
include hread

/-- A counted attempt finds the sync pattern, or uses up a turn, or holds: with no turn left it waits at an empty buffer
(R203). -/
theorem attempt_stands (hs : Stands v s) : (attempt idx).Meets
    (fun found t => Stands v t ∧ (found = false → t.env.script.length < s.env.script.length)) (Rests A v)
    (s.mapCore fun c => { c with adAttempts := c.adAttempts + 1 }) := by
  cases hq : s.env.script with
  | nil =>
    have hscript : (s.attempting idx).env.script = [] := by simp [hq]
    refine Proc.Meets.of_run_eq ?_ (attempt_run (still_of_quiet hq))
    rcases Nat.eq_zero_or_pos s.params.syncN with hsync | hsync
    · exact Proc.meets_of_ok (attemptRead_buffered (bs := []) hscript rfl rfl hsync.symm) ⟨hs, nofun⟩
    · exact Proc.meets_of_halted (attemptRead_holds hscript hsync) (Stands.rests (hread idx) hs)
  | cons turn rest =>
    have hsteady : Steady (fun t => Stands v t ∧ t.env.script.length ≤ rest.length) (Rests A v) :=
      turns_steady (P := fun c n => c.seq = v ∧ n ≤ rest.length) fun _ _ _ hle ⟨hseq, hn⟩ => ⟨hseq, hle.trans hn⟩
    have hclose : chClose.Meets (fun _ t => Stands v t ∧ t.env.script.length ≤ rest.length) (Rests A v)
        (s.mapCore fun c => { c with adAttempts := c.adAttempts + 1, baudIndex := idx }) :=
      (tick_tail A v _).bind fun _ t ⟨hcore, hscript⟩ => Proc.meets_of_ok (change_run _ t)
        ⟨(congrArg Regs.seq hcore).trans hs, by rw [State.closeChannel_env, hscript]; simp [hq]⟩
    refine Proc.meets_update_bind <| hclose.bind fun _ _ h1 => Proc.meets_regs_bind <|
      (hsteady.act (fun _ ht => ht) h1).bind fun _ _ h2 => (hsteady.chDiscard h2).bind fun _ _ h3 =>
        (hsteady.attemptRead (fun ht => ht.1.rests (hread idx)) h3).imp fun _ t ⟨hseq, hlen⟩ => ⟨hseq, fun _ => ?_⟩
    exact Nat.lt_succ_of_le hlen

/-- With more attempts than turns, a scan ends at a rate, at its bound, or at HOLD_AD (R202, R204, R310). -/
theorem scan_stands (n : Nat) (idx : BitVec 3) (hlt : s.env.script.length < n) (hs : Stands v s) :
    (scan n idx).Meets (ScanEnd (Stands v) (Stands v)) (Rests A v) s := by
  induction n generalizing s idx with
  | zero => exact absurd hlt (Nat.not_lt_zero _)
  | succ n ih =>
    refine Proc.meets_regs_bind <| Proc.meets_ite (fun _ => ?spent) fun _ => ?again
    case spent => exact (stands_opening.chClose hs).bind fun _ _ h1 => Proc.meets_pure (.inr ⟨rfl, h1⟩)
    case again =>
      refine Proc.meets_update_bind <| (attempt_stands hread hs).bind fun found t ⟨h1, hfewer⟩ =>
        Proc.meets_ite (fun _ => ?found) fun hmiss => Proc.meets_regs_bind (ih _ ?fewer h1)
      case found => exact Proc.meets_update_bind (Proc.meets_pure (.inl ⟨rfl, h1⟩))
      case fewer => exact Nat.lt_of_lt_of_le (hfewer (by simpa using hmiss)) (Nat.le_of_lt_succ hlt)

theorem scanFrom_stands (idx : BitVec 3) (hs : Stands v s) :
    (scanFrom idx).Meets (ScanEnd (Stands v) (Stands v)) (Rests A v) s :=
  Proc.meets_theState_bind (scan_stands hread _ idx (Nat.lt_succ_self _) hs)

theorem autodetectResume_stands (idx : BitVec 3) (hs : Stands v s) :
    (autodetectResume idx).Meets (ScanEnd (Stands v) (Stands v)) (Rests A v) s :=
  (stands_steady.attemptRead (fun ht => ht.rests (hread idx)) hs).bind fun _ _ h1 =>
    Proc.meets_ite (fun _ => Proc.meets_update_bind (Proc.meets_pure (.inl ⟨rfl, h1⟩))) fun _ =>
      Proc.meets_regs_bind (scanFrom_stands hread _ h1)

theorem begin_none_stands (hs : Stands v s) : (begin none).Meets (fun _ => Stands v) (Rests A v) s :=
  (stands_opening.begin none (fun _ ht => Proc.meets_update_bind (scanFrom_stands hread 0 ht)) hs).imp fun _ _ ⟨ht, _⟩ => ht

omit hread in
theorem answerScan_stands {p : Proc Code} (i : Instr) (hp : p.Meets (ScanEnd (Stands v) (Stands v)) (Rests A v) s) :
    (answerScan i p).Meets (fun _ => Stands v) (Rests A v) s :=
  hp.bind fun _ _ hr => (stands_opening.beginAfterScan hr).bind fun _ _ ⟨ht, _⟩ => Proc.meets_pure ht

theorem recover_stands (hs : Stands v s) : recover.Meets (fun _ => Stands v) (Rests A v) s :=
  stands_opening.takeDown (fun h1 => Proc.meets_regs_bind <| Proc.meets_ite (fun _ => Proc.meets_pure h1) fun _ =>
    (begin_none_stands hread h1).bind fun _ _ h2 => Proc.meets_pure h2) hs

theorem pollProc_stands (hA : A .nextByte) (hs : Stands v s) : pollProc.Meets (fun _ => Stands v) (Rests A v) s := by
  refine Proc.meets_regs_bind <| Proc.meets_ite (fun _ => Proc.meets_pure hs) fun _ =>
    (stands_steady.now hs).bind fun _ _ h1 => (stands_steady.chAvail h1).bind fun _ _ h2 =>
      Proc.meets_ite (fun _ => ?traffic) fun _ => Proc.meets_regs_bind <| Proc.meets_ite (fun _ => ?late) fun _ =>
        Proc.meets_pure h2
  case traffic =>
    exact Proc.meets_update_bind <| ((stands_assembling hA).assemble (s := State.mapCore _ _) h2).bind fun _ _ h3 =>
      Proc.meets_pure h3
  case late => exact (recover_stands hread h2).bind fun _ _ h3 => Proc.meets_pure h3

end

/-! ## Commands -/

/-- The holds of R310 that the command `i` is at in its first step: those of `mayHold` but the model's own place (log 14). -/
def Instr.holdsAt (i : Instr) (h : Hold) : Prop := i.mayHold h = true ∧ ∀ idx, h ≠ .attempt idx

/-- The holds at which a command that goes on from `h` can stand at the end of its step. -/
def Hold.nextHolds : Hold → Hold → Prop
  | .nextByte, h' => h' = .nextByte
  | .autodetect _, h' => ∃ idx, h' = .autodetect idx
  | .attempt _, h' => ∃ idx, h' = .autodetect idx
  | .flush, h' => h' = .flush

theorem commandProc_stands {i : Instr} {v : Seq} {s : State} (hs : Stands v s) :
    (commandProc i).Meets (fun _ => Stands v) (Rests (Instr.holdsAt i) v) s := by
  cases i with
  | beginAuto => exact (begin_none_stands (fun _ => ⟨rfl, nofun⟩) hs).bind fun _ _ ht => Proc.meets_pure ht
  | beginBaud b => exact (stands_opening.beginBaudProc b hs).imp fun _ _ ⟨ht, _⟩ => ht
  | poll => exact pollProc_stands (fun _ => ⟨rfl, nofun⟩) ⟨rfl, nofun⟩ hs
  | reset => exact (stands_opening.resetProc hs).imp fun _ _ ⟨ht, _⟩ => ht
  | setNoRestart flag => exact (setNoRestartProc_meets (I := Stands v) flag hs).imp fun _ _ ⟨ht, _⟩ => ht
  | send =>
    exact (stands_steady.sendProc (fun ht => ht) (Stands.rests ⟨rfl, nofun⟩) hs).imp fun _ _ ⟨ht, _⟩ => ht
  | csrRead a => exact (csrReadProc_meets a hs).imp fun _ _ ⟨ht, _⟩ => ht
  | csrWrite a w =>
    refine (csrWriteProc_meets (I := Stands v) a w (fun r c' hc' => ?_) hs).imp fun _ _ ⟨ht, _⟩ => ht
    obtain ⟨_, _, _, _, _, _, _, _, rfl, -⟩ := csrStore_cases hc'
    exact hs
  | _ => exact Proc.meets_pure hs

theorem resumeProc_stands (i : Instr) (h : Hold) {v : Seq} {s : State} (hs : Stands v s) :
    (resumeProc i h).Meets (fun _ => Stands v) (Rests h.nextHolds v) s := by
  cases h with
  | nextByte =>
    exact ((stands_assembling (A := Hold.nextByte.nextHolds) rfl).assembleResume hs).bind fun _ _ ht => Proc.meets_pure ht
  | flush =>
    exact (stands_steady.waitUntil (Stands.rests (A := Hold.flush.nextHolds) rfl) hs).bind fun _ _ ht => Proc.meets_pure ht
  | autodetect idx => exact answerScan_stands i (autodetectResume_stands (fun k => ⟨k, rfl⟩) idx hs)
  | attempt idx => exact answerScan_stands i (scanFrom_stands (fun k => ⟨k, rfl⟩) idx hs)

/-! ## Steps (O50) -/

theorem runAs_rests {A : Hold → Prop} {v : Seq} {p : Proc Reply} {s t : State}
    (hp : p.Meets (fun _ => Stands v) (Rests A v) (s.setSeq v)) (h : runAs v p s = .next t) : Rests A v t := by
  rcases runAs_meets hp (fun _ _ => stands_steady.tick) h with ⟨r, u, -, rfl⟩ | ht
  · exact .inl rfl
  · exact ht

/-- Settles O50, by where the step's run ended (`commandProc_stands`, `resumeProc_stands`). -/
theorem holdsAreThree : Obligations.HoldsAreThree := by
  refine ⟨fun i s t hi h => ?first, fun i h s t hseq ht => ?later⟩
  case first =>
    rw [exec_command hi] at h
    rcases runAs_rests (commandProc_stands (s := s.setSeq (.busy i)) rfl) h with hidle | ⟨k, ⟨hmay, hplace⟩, hheld⟩
    · exact .inl hidle
    cases k with
    | nextByte => exact .inr (.inl ⟨by simpa [Instr.mayHold] using hmay, hheld⟩)
    | autodetect idx => exact .inr (.inr (.inl ⟨by simpa [Instr.mayHold] using hmay, idx, hheld⟩))
    | attempt idx => exact absurd rfl (hplace idx)
    | flush => exact .inr (.inr (.inr ⟨by simpa [Instr.mayHold] using hmay, hheld⟩))
  case later =>
    rw [step_held hseq] at ht
    rcases runAs_rests (resumeProc_stands i h (s := s.refill.setSeq (.busy i)) rfl) ht with hidle | ⟨k, hk, hheld⟩
    · exact .inl hidle
    cases h with
    | nextByte => obtain rfl := hk; exact .inr (.inl ⟨rfl, hheld⟩)
    | autodetect idx => obtain ⟨idx', rfl⟩ := hk; exact .inr (.inr (.inl ⟨.inl ⟨idx, rfl⟩, idx', hheld⟩))
    | attempt idx => obtain ⟨idx', rfl⟩ := hk; exact .inr (.inr (.inl ⟨.inr ⟨idx, rfl⟩, idx', hheld⟩))
    | flush => obtain rfl := hk; exact .inr (.inr (.inr ⟨rfl, hheld⟩))

end Sys2Proof.Machine
end

section
/-! PROOF of O8 and O48: what a turn of the environment does to a core that waits, and to one that a hardware reset aborts
(spec/70_reset_and_hazards.md R300, R301, R304). A procedure with its response takes the first turn of the script before its first
event (`runAs_aborts`); and a step goes through the turns of the script one by one, so a turn with a hardware reset is still to
come or has ended it (`step_beset`, `exec_beset`). -/

namespace Sys2Proof.Machine

/-! ## The turns to come -/

/-- No move changes the turns to come, a hardware reset neither (R300). -/
theorem applyMove_turns (m : EnvMove) (s : State) :
    (applyMove m s).env.script = s.env.script ∧ (applyMove m s).env.supply = s.env.supply := by
  cases m with
  | arrive b lost =>
    simp only [applyMove, State.mapEnv, Env.receive]
    split_ifs <;> exact ⟨rfl, rfl⟩
  | issue cmd data =>
    simp only [applyMove]
    split_ifs <;> exact ⟨rfl, rfl⟩
  | _ => exact ⟨rfl, rfl⟩

theorem applyTurn_turns (ms : List EnvMove) (s : State) :
    (applyTurn ms s).env.script = s.env.script ∧ (applyTurn ms s).env.supply = s.env.supply := by
  induction ms generalizing s with
  | nil => exact ⟨rfl, rfl⟩
  | cons m ms ih =>
    obtain ⟨hscript, hsupply⟩ := applyMove_turns m s
    obtain ⟨hscript', hsupply'⟩ := ih (applyMove m s)
    exact ⟨hscript'.trans hscript, hsupply'.trans hsupply⟩

/-- A turn is taken from the script, not from the supply (log 24). -/
theorem tick_supply {s t : State} (h : tick.run s = .ok () t) : t.env.supply = s.env.supply := by
  cases hs : s.env.script with
  | nil => rw [tick_quiet hs] at h; cases h; rfl
  | cons turn rest =>
    cases hr : turn.any EnvMove.isReset with
    | true => rw [tick_reset hs hr] at h; cases h
    | false =>
      rw [tick_turn hs hr] at h
      cases h
      obtain ⟨-, hsupply⟩ := applyTurn_turns turn (s.mapEnv fun e => { e with script := rest })
      exact hsupply

/-! ## An idle core (O8) -/

/-- Settles O8: the step is one turn of the environment (`step_idle`), which changes the environment alone. -/
theorem idleCoreWaits : Obligations.IdleCoreWaits := by
  intro s hidle hport hu
  obtain ⟨e, he, -, -, hscript, -⟩ := tick_undisturbed hu
  have hsupply := tick_supply he
  refine ⟨{ s.refill with env := e }, ?_, State.refill_core s, State.refill_trace s, State.refill_params s, hscript, hsupply⟩
  rw [step_idle hidle hport, runForm, he, settleForm_ok]

/-! ## A turn with a hardware reset -/

/-- A hardware reset has aborted what ran from `s`, in the turn before `rest` (R300, R301). -/
structure Aborted (rest : List (List EnvMove)) (s t : State) : Prop where
  core : t.core = Regs.reset
  trace : t.trace = s.trace
  params : t.params = s.params
  script : t.env.script = rest

theorem tick_aborts {s : State} {turn : List EnvMove} {rest : List (List EnvMove)} (hs : s.env.script = turn :: rest)
    (hr : turn.any EnvMove.isReset = true) : tick.Meets (fun _ _ => False) (Aborted rest s) s := by
  obtain ⟨e, he⟩ := applyTurn_reset turn (s.mapEnv fun e => { e with script := rest }) hr
  obtain ⟨hscript, -⟩ := applyTurn_turns turn (s.mapEnv fun e => { e with script := rest })
  exact Proc.meets_of_halted (tick_reset hs hr) ⟨by rw [he], by rw [he]; rfl, by rw [he]; rfl, hscript⟩

section
variable {α β : Type} {p : Proc α} {H : State → Prop} {s : State}

theorem Proc.Meets.of_never {Q : α → State → Prop} (hp : p.Meets (fun _ _ => False) H s) : p.Meets Q H s :=
  hp.imp fun _ _ hf => hf.elim

/-- What follows a procedure that ends with no result is not run. -/
theorem Proc.Meets.then_nothing {k : α → Proc β} {S : β → State → Prop} (hp : p.Meets (fun _ _ => False) H s) :
    (p >>= k).Meets S H s :=
  hp.bind fun _ _ hf => hf.elim

end

/-! ## Before the first turn -/

/-- `turn` is the next, and since `s₀` there was no event. -/
structure Facing (turn : List EnvMove) (rest : List (List EnvMove)) (s₀ s : State) : Prop where
  script : s.env.script = turn :: rest
  trace : s.trace = s₀.trace
  params : s.params = s₀.params

section
variable {turn : List EnvMove} {rest : List (List EnvMove)} {s₀ s : State}

/-- An update of the registers is no event, and takes no turn (R12). -/
theorem Facing.update (hs : Facing turn rest s₀ s) (f : Regs → Regs) : Facing turn rest s₀ (s.mapCore f) :=
  ⟨hs.script, hs.trace, hs.params⟩

variable (hr : turn.any EnvMove.isReset = true)
include hr

theorem Facing.tick (hs : Facing turn rest s₀ s) : tick.Meets (fun _ _ => False) (Aborted rest s₀) s :=
  (tick_aborts hs.script hr).mono (fun _ _ hf => hf) fun _ ht =>
    ⟨ht.core, ht.trace.trans hs.trace, ht.params.trans hs.params, ht.script⟩

/-- A primitive takes its turn first (log 1), so it does nothing else. -/
theorem Facing.primitive {α : Type} {k : Unit → Proc α} (hs : Facing turn rest s₀ s) :
    (Machine.tick >>= k).Meets (fun _ _ => False) (Aborted rest s₀) s := (hs.tick hr).then_nothing

theorem Facing.now (hs : Facing turn rest s₀ s) : now.Meets (fun _ _ => False) (Aborted rest s₀) s := hs.primitive hr

theorem Facing.chPresent (hs : Facing turn rest s₀ s) : chPresent.Meets (fun _ _ => False) (Aborted rest s₀) s :=
  hs.primitive hr

theorem Facing.chClose (hs : Facing turn rest s₀ s) : chClose.Meets (fun _ _ => False) (Aborted rest s₀) s :=
  hs.primitive hr

theorem Facing.chRead (hs : Facing turn rest s₀ s) : chRead.Meets (fun _ _ => False) (Aborted rest s₀) s :=
  hs.primitive hr

theorem Facing.chWrite (b : Byte) (hs : Facing turn rest s₀ s) :
    (chWrite b).Meets (fun _ _ => False) (Aborted rest s₀) s := hs.primitive hr

theorem Facing.waitUntil {c : State → Bool} {h : Hold} (hs : Facing turn rest s₀ s) :
    (waitUntil c h).Meets (fun _ => Facing turn rest s₀) (Aborted rest s₀) s := by
  refine Proc.meets_theState_bind ?_
  rw [hs.script]
  exact Proc.meets_theState_bind <| Proc.meets_ite (fun _ => Proc.meets_pure hs) fun _ => (hs.primitive hr).of_never

theorem Facing.nextByte (hs : Facing turn rest s₀ s) : nextByte.Meets (fun _ _ => False) (Aborted rest s₀) s :=
  have hraw : nextRaw.Meets (fun _ _ => False) (Aborted rest s₀) s :=
    (hs.waitUntil hr).bind fun _ _ h1 => (h1.chRead hr).then_nothing
  hraw.then_nothing

theorem Facing.attemptRead (idx : BitVec 3) (hs : Facing turn rest s₀ s) :
    (attemptRead idx).Meets (fun _ => Facing turn rest s₀) (Aborted rest s₀) s := by
  refine Proc.meets_params_bind <| (hs.waitUntil hr).bind fun _ t h1 => ?_
  cases s.params.syncN with
  | zero => exact Proc.meets_pure h1
  | succ n => exact (h1.chRead hr).then_nothing.then_nothing

/-- A scan closes the channel first: at its bound, or for its first attempt (R203, R204). -/
theorem Facing.scanFrom (idx : BitVec 3) (hs : Facing turn rest s₀ s) :
    (scanFrom idx).Meets (fun _ _ => False) (Aborted rest s₀) s :=
  have hattempt : ∀ {t}, Facing turn rest s₀ t → (attempt idx).Meets (fun _ _ => False) (Aborted rest s₀) t := fun ht =>
    Proc.meets_update_bind ((ht.update _).chClose hr).then_nothing
  Proc.meets_theState_bind <| Proc.meets_regs_bind <| Proc.meets_ite (fun _ => (hs.chClose hr).then_nothing) fun _ =>
    Proc.meets_update_bind (hattempt (hs.update _)).then_nothing

theorem Facing.autodetectResume (idx : BitVec 3) (hs : Facing turn rest s₀ s) :
    (autodetectResume idx).Meets (fun _ => Facing turn rest s₀) (Aborted rest s₀) s :=
  (hs.attemptRead hr idx).bind fun _ _ h1 => Proc.meets_ite
    (fun _ => Proc.meets_update_bind (Proc.meets_pure (h1.update _)))
    fun _ => Proc.meets_regs_bind (h1.scanFrom hr _).of_never

theorem Facing.beginFinish (hs : Facing turn rest s₀ s) :
    beginFinish.Meets (fun _ _ => False) (Aborted rest s₀) s :=
  Proc.meets_update_bind <| Proc.meets_update_bind (((hs.update _).update _).now hr).then_nothing

theorem Facing.answerScan {p : Proc Code} (i : Instr) (hp : p.Meets (fun _ => Facing turn rest s₀) (Aborted rest s₀) s) :
    (answerScan i p).Meets (fun _ => Facing turn rest s₀) (Aborted rest s₀) s := by
  refine hp.bind fun r t h1 => ?_
  have hafter : (beginAfterScan r).Meets (fun _ => Facing turn rest s₀) (Aborted rest s₀) t :=
    Proc.meets_ite (fun _ => (h1.beginFinish hr).of_never) fun _ => Proc.meets_pure h1
  exact hafter.bind fun _ _ h2 => Proc.meets_pure h2

theorem Facing.begin (baud : Option Word) (hs : Facing turn rest s₀ s) :
    (begin baud).Meets (fun _ => Facing turn rest s₀) (Aborted rest s₀) s :=
  Proc.meets_regs_bind <| Proc.meets_ite (fun _ => Proc.meets_pure hs) fun _ => (hs.chPresent hr).then_nothing

/-- A command comes to its first turn without an event. -/
theorem commandProc_aborts (i : Instr) (hs : Facing turn rest s₀ s) :
    (commandProc i).Meets (fun _ => Facing turn rest s₀) (Aborted rest s₀) s := by
  cases i with
  | beginAuto => exact (hs.begin hr none).bind fun _ _ h1 => Proc.meets_pure h1
  | beginBaud b => exact (hs.begin hr (some b)).bind fun _ _ h1 => Proc.meets_pure h1
  | poll =>
    exact Proc.meets_regs_bind <| Proc.meets_ite (fun _ => Proc.meets_pure hs) fun _ => (hs.now hr).then_nothing
  | reset => exact (hs.chClose hr).then_nothing
  | setNoRestart flag =>
    exact (setNoRestartProc_meets (I := Facing turn rest s₀) flag (hs.update _)).imp fun _ _ ⟨ht, _⟩ => ht
  | send =>
    exact Proc.meets_regs_bind <| Proc.meets_params_bind <| Proc.meets_ite (fun _ => Proc.meets_pure hs) fun _ =>
      Proc.meets_ite (fun _ => Proc.meets_pure hs) fun _ => (hs.chWrite hr _).then_nothing
  | csrRead a => exact (csrReadProc_meets a hs).imp fun _ _ ⟨ht, _⟩ => ht
  | csrWrite a v =>
    exact (csrWriteProc_meets (I := Facing turn rest s₀) a v (fun _ _ _ => hs.update _) hs).imp fun _ _ ⟨ht, _⟩ => ht
  | _ => exact Proc.meets_pure hs

/-- A held command comes to its next turn without an event. -/
theorem resumeProc_aborts (i : Instr) (h : Hold) (hs : Facing turn rest s₀ s) :
    (resumeProc i h).Meets (fun _ => Facing turn rest s₀) (Aborted rest s₀) s := by
  cases h with
  | nextByte => exact (hs.nextByte hr).then_nothing.then_nothing
  | flush => exact (hs.waitUntil hr).bind fun _ _ h1 => Proc.meets_pure h1
  | autodetect idx => exact Facing.answerScan hr i (hs.autodetectResume hr idx)
  | attempt idx => exact Facing.answerScan hr i (hs.scanFrom hr idx).of_never

end

/-! ## What a step runs -/

/-- The procedures that a step runs for a response (R232, R234, R310). -/
inductive Answering : Proc Reply → Prop where
  | command (i : Instr) : Answering (commandProc i)
  | illegal : Answering illegalProc
  | held (i : Instr) (h : Hold) : Answering (resumeProc i h)

/-- The machine with the command port as given. -/
def State.withPort (q : Option (Word × Word)) (s : State) : State := s.mapEnv fun e => { e with port := q }

/-- Everything a step can be: a procedure with its response, one turn of the environment while the core is idle, or a row that is
no command. -/
theorem step_cases (s : State) :
    (∃ v p q, Answering p ∧ step s = runAs v p (s.refill.withPort q)) ∨
      (s.core.seq = .idle ∧ step s = runForm tick s.refill) ∨
      ∃ i, i.isCommand = false ∧ s.core.seq = .busy i ∧ step s = exec i s.refill := by
  cases hseq : s.core.seq with
  | idle =>
    cases hport : s.env.port with
    | none => exact .inr (.inl ⟨rfl, step_idle hseq hport⟩)
    | some word =>
      obtain ⟨cmd, data⟩ := word
      rw [step_present hseq hport]
      cases hd : decodeCommand cmd data with
      | ok i =>
        rw [accept_decoded hd, exec_command (decodeCommand_isCommand hd)]
        exact .inl ⟨_, _, none, .command i, rfl⟩
      | error r => exact .inl ⟨_, _, none, .illegal, accept_illegal hd⟩
  | busy i =>
    cases hi : i.isCommand with
    | true => exact .inl ⟨_, _, s.refill.env.port, .command i, (step_busy hseq).trans (exec_command hi _)⟩
    | false => exact .inr (.inr ⟨i, hi, rfl, step_busy hseq⟩)
  | busyIllegal => exact .inl ⟨_, _, s.refill.env.port, .illegal, step_busyIllegal hseq⟩
  | held i h => exact .inl ⟨_, _, s.refill.env.port, .held i h, step_held hseq⟩

/-! ## A hardware reset in the first turn -/

section
variable {turn : List EnvMove} {rest : List (List EnvMove)} {s₀ s t : State} {v : Seq} {p : Proc Reply}
  (hr : turn.any EnvMove.isReset = true)
include hr

/-- The turn before the response is the last to come (R88, log 1). -/
theorem runAs_aborts (hp : Answering p) (hs : Facing turn rest s₀ (s.setSeq v)) (h : runAs v p s = .next t) :
    Aborted rest s₀ t := by
  have hproc : p.Meets (fun _ => Facing turn rest s₀) (Aborted rest s₀) (s.setSeq v) := by
    cases hp with
    | command i => exact commandProc_aborts hr i hs
    | illegal => exact Proc.meets_pure hs
    | held i k => exact resumeProc_aborts hr i k hs
  have hanswer : (answer p).Meets (fun _ _ => False) (Aborted rest s₀) (s.setSeq v) :=
    hproc.bind fun _ _ h1 => h1.primitive hr
  obtain ⟨hok, hstop⟩ := hanswer
  rcases runAs_cases v p s t h with ⟨r, u, hu, -⟩ | hu
  · exact (hok r u hu).elim
  · exact hstop t hu

theorem step_aborts (hscript : s.refill.env.script = turn :: rest) (hbusy : ∀ i, s.core.seq = .busy i → i.isCommand = true)
    (h : step s = .next t) : Aborted rest s t := by
  have hs : Facing turn rest s s.refill := ⟨hscript, State.refill_trace s, State.refill_params s⟩
  rcases step_cases s with ⟨v, p, q, hp, he⟩ | ⟨-, he⟩ | ⟨i, hi, hseq, -⟩
  · exact runAs_aborts (s := s.refill.withPort q) hr hp ⟨hs.script, hs.trace, hs.params⟩ (he ▸ h)
  · exact runForm_meets (hs.tick hr).of_never (he ▸ h)
  · exact absurd ((hbusy i hseq).symm.trans hi) nofun

theorem exec_aborts {i : Instr} (hi : i.isCommand = true) (hscript : s.env.script = turn :: rest) (h : exec i s = .next t) :
    Aborted rest s t := by
  rw [exec_command hi] at h
  exact runAs_aborts (v := .busy i) hr (.command i) ⟨hscript, rfl, rfl⟩ h

end

/-! ## A hardware reset in a later turn -/

/-- `turn` is still to come, no turn before it has a hardware reset, and since `s₀` there was no response. -/
structure Awaits (turn : List EnvMove) (rest : List (List EnvMove)) (s₀ s : State) : Prop where
  script : ∃ earlier, s.env.script = earlier ++ turn :: rest ∧ ∀ e ∈ earlier, e.any EnvMove.isReset = false
  responses : s.responses = s₀.responses
  params : s.params = s₀.params

/-- The turn before `rest` is still to come, or its hardware reset has aborted what ran, with no response since `s₀`. -/
def Beset (rest : List (List EnvMove)) (s₀ t : State) : Prop :=
  rest.length < t.env.script.length ∨
    (t.core = Regs.reset ∧ t.responses = s₀.responses ∧ t.env.script = rest ∧ t.params = s₀.params)

section
variable {turn : List EnvMove} {rest : List (List EnvMove)} {s₀ s t : State}

theorem Awaits.pending (hs : Awaits turn rest s₀ s) : rest.length < s.env.script.length := by
  obtain ⟨earlier, hscript, -⟩ := hs.script
  rw [hscript, List.length_append, List.length_cons]
  omega

/-- What changes neither the turns to come nor the number of responses. -/
theorem Awaits.of_eq (hs : Awaits turn rest s₀ s) (hscript : t.env.script = s.env.script)
    (hresponses : t.responses = s.responses) (hparams : t.params = s.params) : Awaits turn rest s₀ t :=
  ⟨hscript ▸ hs.script, hresponses.trans hs.responses, hparams.trans hs.params⟩

/-- An event that is no response. -/
theorem Awaits.event (hs : Awaits turn rest s₀ s) {e : Event} (he : e.isResp = false) (htrace : t.trace = s.trace ++ [e])
    (hscript : t.env.script = s.env.script) (hparams : t.params = s.params) : Awaits turn rest s₀ t :=
  hs.of_eq hscript (by simp [State.responses, htrace, he]) hparams

theorem runForm_beset {p : Proc Unit} (hp : p.Meets (fun _ => Awaits turn rest s₀) (Beset rest s₀) s)
    (h : runForm p s = .next t) : Beset rest s₀ t :=
  runForm_meets (hp.imp fun _ _ ht => .inl ht.pending) h

variable (hr : turn.any EnvMove.isReset = true)
include hr

/-- The next turn is `turn`, and its hardware reset aborts what runs, or one without a hardware reset. -/
theorem Awaits.tick (hs : Awaits turn rest s₀ s) :
    tick.Meets (fun _ t => Awaits turn rest s₀ t ∧ t.core = s.core) (Beset rest s₀) s := by
  obtain ⟨earlier, hscript, hearlier⟩ := hs.script
  cases earlier with
  | nil =>
    refine (tick_aborts hscript hr).mono (fun _ _ hf => hf.elim) fun t ht => .inr ⟨ht.core, ?_, ht.script, ?_⟩
    · exact (congrArg (List.countP Event.isResp) ht.trace).trans hs.responses
    · exact ht.params.trans hs.params
  | cons e es =>
    rw [List.forall_mem_cons] at hearlier
    obtain ⟨he, hes⟩ := hearlier
    obtain ⟨env, hturn, hlater⟩ := applyTurn_later e (s.mapEnv fun env => { env with script := es ++ turn :: rest }) he
    refine Proc.meets_of_ok (tick_turn (rest := es ++ turn :: rest) hscript he) ?_
    rw [hturn]
    exact ⟨⟨⟨es, hlater.script, hes⟩, hs.responses, hs.params⟩, rfl⟩

/-- The environment's turns, the events and the reads keep any fact about the registers besides. -/
theorem awaits_steady_with (C : Regs → Prop) : Steady (fun s => Awaits turn rest s₀ s ∧ C s.core) (Beset rest s₀) where
  tick := fun ⟨hs, hc⟩ => (hs.tick hr).imp fun _ _ ⟨ht, hcore⟩ => ⟨ht, hcore ▸ hc⟩
  emit _ he := fun ⟨hs, hc⟩ => ⟨hs.event he rfl rfl rfl, hc⟩
  take _ _ _ := fun ⟨hs, hc⟩ => ⟨hs.event rfl rfl rfl rfl, hc⟩

theorem awaits_receiving : Receiving (Awaits turn rest s₀) (Beset rest s₀) where
  toSteady := by simpa only [and_true] using awaits_steady_with (s₀ := s₀) (rest := rest) hr fun _ => True
  codec _ _ _ hs := hs.of_eq rfl rfl rfl
  hold hs := .inl hs.pending

theorem awaits_assembling : Assembling (Awaits turn rest s₀) (fun _ => Awaits turn rest s₀) (Beset rest s₀) where
  avail := (awaits_receiving hr).chAvail
  next := (awaits_receiving hr).nextByte
  idle hs := hs
  more _ _ hs := hs.of_eq rfl rfl rfl
  done _ _ _ hs := hs.of_eq rfl rfl rfl

theorem awaits_scanning :
    Scanning (Awaits turn rest s₀) (Awaits turn rest s₀) (Awaits turn rest s₀) (Beset rest s₀) where
  before := (awaits_receiving hr).toSteady
  alive := awaits_steady_with hr fun c => c.fatal = false
  between := (awaits_receiving hr).toSteady
  opened := (awaits_receiving hr).toSteady
  back hs := hs
  still hs := hs
  absent hs := hs.of_eq rfl rfl rfl
  down hs _ := hs.of_eq rfl rfl rfl
  closeDown hs := hs.event (e := .closed) rfl rfl rfl rfl
  close hs := hs.event (e := .closed) rfl rfl rfl rfl
  chOpen b hs := hs.event (e := .opened b) rfl rfl rfl rfl
  rate _ hs := hs.of_eq rfl rfl rfl
  clearCodec hs := hs.of_eq rfl rfl rfl
  clearFrame hs := hs.of_eq rfl rfl rfl
  up _ hs := hs.of_eq rfl rfl rfl
  attempts _ hs := hs.of_eq rfl rfl rfl
  index _ hs := hs.of_eq rfl rfl rfl
  holdRead _ hs := .inl hs.pending
  holdAttempt _ hs := .inl hs.pending

theorem commandProc_awaits (i : Instr) (hs : Awaits turn rest s₀ s) :
    (commandProc i).Meets (fun _ => Awaits turn rest s₀) (Beset rest s₀) s := by
  have hS := awaits_scanning (s₀ := s₀) (rest := rest) hr
  cases i with
  | beginAuto => exact (hS.beginAutoProc hs).imp fun _ _ ⟨ht, _⟩ => ht
  | beginBaud b => exact (hS.beginBaudProc b hs).imp fun _ _ ⟨ht, _⟩ => ht
  | poll =>
    exact (hS.pollProc (awaits_assembling hr) (fun _ ht => ht.of_eq rfl rfl rfl) hs).imp fun _ _ ⟨_, ht⟩ =>
      ht.elim id fun ⟨hb, _⟩ => hb
  | reset => exact (hS.resetProc hs).imp fun _ _ ⟨ht, _⟩ => ht
  | setNoRestart flag =>
    exact (setNoRestartProc_meets (I := Awaits turn rest s₀) flag (hs.of_eq rfl rfl rfl)).imp fun _ _ ⟨ht, _⟩ => ht
  | send =>
    exact (hS.before.sendProc (fun ht => ht.event (e := .flush) rfl rfl rfl rfl)
      (fun ht => .inl ht.pending) hs).imp fun _ _ ⟨ht, _⟩ => ht
  | csrRead a => exact (csrReadProc_meets a hs).imp fun _ _ ⟨ht, _⟩ => ht
  | csrWrite a v =>
    exact (csrWriteProc_meets (I := Awaits turn rest s₀) a v (fun _ _ _ => hs.of_eq rfl rfl rfl) hs).imp
      fun _ _ ⟨ht, _⟩ => ht
  | _ => exact Proc.meets_pure hs

theorem resumeProc_awaits (i : Instr) (h : Hold) (hs : Awaits turn rest s₀ s) :
    (resumeProc i h).Meets (fun _ => Awaits turn rest s₀) (Beset rest s₀) s := by
  have hS := awaits_scanning (s₀ := s₀) (rest := rest) hr
  cases h with
  | nextByte => exact ((awaits_assembling hr).assembleResume hs).bind fun _ _ ht => Proc.meets_pure ht
  | flush =>
    exact (hS.before.waitUntil (fun ht => .inl ht.pending) hs).bind fun _ _ ht => Proc.meets_pure ht
  | autodetect idx => exact (hS.beginResumed i (hS.autodetectResume idx hs)).imp fun _ _ ⟨ht, _⟩ => ht
  | attempt idx => exact (hS.beginResumed i (hS.scanFrom idx hs)).imp fun _ _ ⟨ht, _⟩ => ht

theorem runAs_beset {v : Seq} {p : Proc Reply} (hp : Answering p) (hs : Awaits turn rest s₀ s)
    (h : runAs v p s = .next t) : Beset rest s₀ t := by
  have hstart : Awaits turn rest s₀ (s.setSeq v) := hs.of_eq rfl rfl rfl
  have hproc : p.Meets (fun _ => Awaits turn rest s₀) (Beset rest s₀) (s.setSeq v) := by
    cases hp with
    | command i => exact commandProc_awaits hr i hstart
    | illegal => exact Proc.meets_pure hstart
    | held i k => exact resumeProc_awaits hr i k hstart
  rcases runAs_meets hproc (fun _ _ => (awaits_receiving hr).tick) h with ⟨r, u, hu, rfl⟩ | ht
  · exact .inl hu.pending
  · exact ht

theorem exec_beset {i : Instr} (hs : Awaits turn rest s₀ s) (h : exec i s = .next t) : Beset rest s₀ t := by
  cases hi : i.isCommand with
  | true =>
    rw [exec_command hi] at h
    exact runAs_beset hr (.command i) hs h
  | false =>
    rcases exec_form hi s with he | he
    · exact runForm_beset ((awaits_receiving hr).rxClass i hs) (he ▸ h)
    · exact runForm_beset ((awaits_receiving hr).txForm i hs) (he ▸ h)

theorem step_beset (hs : Awaits turn rest s₀ s) (h : step s = .next t) : Beset rest s₀ t := by
  have hs' : Awaits turn rest s₀ s.refill := by
    obtain ⟨earlier, hscript, -⟩ := hs.script
    cases hq : s.env.script with
    | nil => simp [hq] at hscript
    | cons first later => rwa [State.refill_script hq]
  rcases step_cases s with ⟨v, p, q, hp, he⟩ | ⟨-, he⟩ | ⟨i, -, -, he⟩
  · exact runAs_beset hr hp (hs'.of_eq rfl rfl rfl : Awaits turn rest s₀ (s.refill.withPort q)) (he ▸ h)
  · exact runForm_beset ((awaits_receiving hr).toSteady.tick hs') (he ▸ h)
  · exact exec_beset hr hs' (he ▸ h)

end

/-- Settles O48: in the first turn nothing is done before the reset (`step_aborts`, `exec_aborts`); past a later one the run cannot
have gone on (`step_beset`, `exec_beset`). -/
theorem hardwareResetAbortsHold : Obligations.HardwareResetAbortsHold := by
  refine ⟨fun s turn rest hscript hr hbusy => ?idleOrHeld, fun i s turn rest hi hscript hr => ?start,
    fun s t earlier rest turn hscript hr hearlier hlen h => ?partway⟩
  case idleOrHeld =>
    obtain ⟨t, ht⟩ := sequence_next s.refill
    obtain ⟨hcore, htrace, hparams, hrest⟩ := step_aborts hr hscript hbusy ht
    exact ⟨t, ht, hcore, htrace, hparams, hrest⟩
  case start =>
    obtain ⟨t, ht⟩ := exec_next i s
    obtain ⟨hcore, htrace, hparams, hrest⟩ := exec_aborts hr hi hscript ht
    exact ⟨t, ht, hcore, htrace, hparams, hrest⟩
  case partway =>
    have hs : Awaits turn rest s s := ⟨⟨earlier, hscript, hearlier⟩, rfl, rfl⟩
    have ht : Beset rest s t := h.elim (step_beset hr hs) fun ⟨_, hi⟩ => exec_beset hr hs hi
    exact ht.resolve_left (Nat.not_lt.mpr hlen)

end Sys2Proof.Machine
end
